-- ==== Sys2Proof/Word.lean ====
section
/-! DEFINITION. The word type of the hardware (00_scope.md R11, R12). -/

namespace Sys2Proof

/-- Every register of the engine, of the VTC and of the PLL is 32 bits wide (R11). -/
abbrev Word := BitVec 32

/-- One byte of a device window (little-endian placement where bytes matter, R63). -/
abbrev Byte := BitVec 8

end Sys2Proof
end

