-- ==== Sys2Proof/Config.lean ====
section
/-! DEFINITION. What an implementation fixes (00_scope.md R9, R10): the device constants, the type of the parameters of
one engine, and the free values, which have no body. The spec's default parameter values are in Machine/Params.lean. -/

namespace Sys2Proof

/-! ## Device constants (R9) -/

/-- `REF_HZ`: the 100 MHz reference (R9). -/
abbrev Config.refHz : Nat := 100000000
/-- `D_MIN` (R9). -/
abbrev Config.dMin : Nat := 1
/-- `D_MAX` (R9). -/
abbrev Config.dMax : Nat := 106
/-- `M_MIN` (R9). -/
abbrev Config.mMin : Nat := 2
/-- `M_MAX` (R9). -/
abbrev Config.mMax : Nat := 64
/-- `M_LO_FACTOR` (R9). -/
abbrev Config.mLoFactor : Nat := 6
/-- `M_HI_FACTOR` (R9). -/
abbrev Config.mHiFactor : Nat := 12
/-- `PRESCALE` (R9). -/
abbrev Config.prescale : Nat := 5
/-- `VTC_CTL_VALUE` (R9). -/
abbrev Config.vtcCtlValue : Word := 0x03F7EF06
/-- `O_MIN` (R10, decided by D12). -/
abbrev Config.oMin : Nat := 1
/-- `O_MAX` (R10, decided by D12). -/
abbrev Config.oMax : Nat := 128
/-- The engine window is 256 bytes (R21, R60). -/
abbrev Config.engineWindowBytes : Nat := 256
/-- The VTC window runs from offset 0x00 to the word at 0x90 (R60; its size in bytes: log 14, DEDUCED). -/
abbrev Config.vtcWindowBytes : Nat := 0x94
/-- The PLL window runs from offset 0x00 to the word at 0x1C (R60; its size in bytes: log 14, DEDUCED). -/
abbrev Config.pllWindowBytes : Nat := 0x20

/-! ## The parameters of one engine (R10) -/

/-- The counter edges a pair register of the VTC image may hold: the eight DisplayTiming fields (R44, R45). -/
inductive TimingEdge where
  | hActive | hSyncStart | hSyncEnd | hTotal
  | vActive | vSyncStart | vSyncEnd | vTotal
deriving DecidableEq, Repr

/-- One pair register: `lo` in bits [15:0], `hi` in bits [31:16] (R44). -/
structure EdgePair where
  lo : TimingEdge
  hi : TimingEdge
deriving DecidableEq, Repr

/-- `VTC_EDGE_MAP`: the pair held by each of the VTC offsets 0x78 to 0x90 (R45). -/
structure EdgeMap where
  x78 : EdgePair
  x7C : EdgePair
  x80 : EdgePair
  x84 : EdgePair
  x88 : EdgePair
  x8C : EdgePair
  x90 : EdgePair
deriving DecidableEq, Repr

/-- `DIV_WORD_SOURCE`: which divider `div_clk` encodes (R176). -/
inductive DivWordSource where
  | inputDivider
  | outputDivider
deriving DecidableEq, Repr

/-- The form of `CountWord` (R181): bits relocated, or the named alternative `CountWord = DivWord` (D13). -/
inductive CountForm where
  | relocated
  | sameAsDivWord
deriving DecidableEq, Repr

/-- The layout of a divider word (R10: `DIV1_SENTINEL`, `WEDGE_BIT`, `NOCOUNT_BIT`; D13). -/
structure DividerLayout where
  div1Sentinel : Word
  wedgeBit : Nat
  noCountBit : Nat
  countForm : CountForm
deriving DecidableEq, Repr

/-- The parameters of one engine, fixed for it and unaffected by reset (R10, R253). `ppc` is 32 bits because the PPC
register reads it (R32). -/
structure Params where
  ppc : Word
  lockLookup : Vector (BitVec 40) 64
  filterLookupLow : Vector (BitVec 10) 64
  vtcC68 : Word
  vtcC6C : Word
  pollLimit : Nat
  engineBase : Word
  vtcBase : Word
  pllBase : Word
  edgeMap : EdgeMap
  divWordSource : DivWordSource
  divider : DividerLayout
deriving DecidableEq, Repr

/-! ## Open parameter values of the engine that `State.reset` describes: no body, so no proof can see one -/

/-- `LOCK_LOOKUP[i]` of the reset engine: the values are not in the source (R53, I17). -/
opaque Config.lockLookup : Nat → BitVec 40
/-- `FILTER_LOOKUP_LOW[i]` of the reset engine (R53, I17). -/
opaque Config.filterLookupLow : Nat → BitVec 10
/-- `VTC_C68` of the reset engine (R41, I18). -/
opaque Config.vtcC68 : Word
/-- `VTC_C6C` of the reset engine (R41, I18). -/
opaque Config.vtcC6C : Word
/-- `POLL_LIMIT - 1` of the reset engine: any natural, so that `POLL_LIMIT ≥ 1` (R198, I23). -/
opaque Config.pollLimitPred : Nat

/-! ## Free values -/

/-- The n-th free word: an output that the spec calls "any value" (I1). -/
opaque Config.freeWord : Nat → Word
/-- The n-th free choice: which value a race reads (I12), or whether a command that need not finish does (I1). -/
opaque Config.freeChoice : Nat → Bool
/-- A STATUS word of the PLL device, drawn by an oracle that sees the engine's PLL writes so far (offset and value,
oldest first) and the number of free values drawn before (R68, I6). No law is placed on it. -/
opaque Config.freePllStatus : List (Word × Word) → Nat → Word

end Sys2Proof
end

