-- ==== Sys2Proof/Syntax.lean ====
section
/-! DEFINITION. The commands of the engine: one constructor per row of spec/opcode_table.json (30_encoding.md R82).
A command word has no operand field (R80), so no constructor has an argument. -/

namespace Sys2Proof

/-- The eleven commands (R82). -/
inductive Instr where
  /-- NOP, R107. -/
  | nop
  /-- DERIVE_PACKED, R120. -/
  | derivePacked
  /-- DERIVE_VTC, R130. -/
  | deriveVtc
  /-- VTC_WRITE, R140. -/
  | vtcWrite
  /-- CLK_PRESCALE, R160. -/
  | clkPrescale
  /-- PLL_SEARCH, R163. -/
  | pllSearch
  /-- PLL_PACK, R175. -/
  | pllPack
  /-- PLL_WRITE, R190. -/
  | pllWrite
  /-- PLL_START, R195. -/
  | pllStart
  /-- PLL_STOP, R200. -/
  | pllStop
  /-- CLEAR_ERROR, R108. -/
  | clearError
deriving DecidableEq, Repr

end Sys2Proof
end

