-- ==== Sys2Proof/WellFormed.lean ====
section
/-! DEFINITION. Well-formedness: of a command (no operand, so nothing to check, 30_encoding.md R80), and of the
parameters of an engine (00_scope.md R10, 60_exceptions.md R235). -/

namespace Sys2Proof

/-- A command has "no immediate, register or mode field" (R80): every term is well formed. -/
def Instr.wellFormed (i : Instr) : Bool :=
  match i with
  | .nop | .derivePacked | .deriveVtc | .vtcWrite | .clkPrescale | .pllSearch
  | .pllPack | .pllWrite | .pllStart | .pllStop | .clearError => true

/-- A base address is word-aligned (R10, R60). -/
def Params.aligned (base : Word) : Bool := base.toNat % 4 == 0

/-- Two windows of `la` and `lb` bytes at `a` and `b` share no address of the 32-bit space (R69): neither window's
first address lies in the other (addresses wrap: log 14). -/
def Params.disjoint (a : Word) (la : Nat) (b : Word) (lb : Nat) : Bool :=
  decide (la ≤ (b - a).toNat) && decide (lb ≤ (a - b).toNat)

/-- The three bases are word-aligned: the domain R10 gives them, though R235 does not list it (log 14, DEDUCED). -/
def Params.basesAligned (p : Params) : Bool :=
  Params.aligned p.engineBase && Params.aligned p.vtcBase && Params.aligned p.pllBase

/-- "The three windows must not overlap one another" (R69). -/
def Params.windowsDisjoint (p : Params) : Bool :=
  Params.disjoint p.engineBase Config.engineWindowBytes p.vtcBase Config.vtcWindowBytes &&
  Params.disjoint p.engineBase Config.engineWindowBytes p.pllBase Config.pllWindowBytes &&
  Params.disjoint p.vtcBase Config.vtcWindowBytes p.pllBase Config.pllWindowBytes

/-- The parameters are those of a valid engine: PPC ≥ 1, POLL_LIMIT ≥ 1, bases word-aligned, windows disjoint
(R10, R32, R69, R235). -/
def Params.valid (p : Params) : Bool :=
  decide (p.ppc ≠ 0) && decide (1 ≤ p.pollLimit) && p.basesAligned && p.windowsDisjoint

end Sys2Proof
end

