-- ==== Sys2Proof/Decode.lean ====
section
/-! DEFINITION. Decoding a command word, total and rejecting by name (30_encoding.md R80 to R84), and the encoder. -/

namespace Sys2Proof

/-- Why bytes are no command. -/
inductive Reject where
  /-- Fewer than the four bytes of a command word are there. -/
  | truncated
  /-- RSVD, bits [31:8], is not 0 (R83). -/
  | reservedBitsSet (w : Word)
  /-- The opcode is unassigned: 0x0A to 0x0E, or 0x10 to 0xFF (R83). -/
  | unassignedOpcode (op : Byte)
deriving DecidableEq, Repr

/-- The OPCODE field, bits [7:0] (R80). -/
def opcodeOf (w : Word) : Byte := w.extractLsb' 0 8

/-- The RSVD field, bits [31:8] (R80). -/
def reservedOf (w : Word) : BitVec 24 := w.extractLsb' 8 24

/-- The opcode map of R82. -/
def opcodeTable : List (Byte × Instr) :=
  [ (0x00, .nop), (0x01, .derivePacked), (0x02, .deriveVtc), (0x03, .vtcWrite),
    (0x04, .clkPrescale), (0x05, .pllSearch), (0x06, .pllPack), (0x07, .pllWrite),
    (0x08, .pllStart), (0x09, .pllStop), (0x0F, .clearError) ]

/-- Decoding a 32-bit command word (R82, R83): total (R84). -/
def decodeWord (w : Word) : Except Reject Instr :=
  if reservedOf w ≠ 0 then .error (.reservedBitsSet w)
  else
    match opcodeTable.find? (fun row => row.1 == opcodeOf w) with
    | some row => .ok row.2
    | none => .error (.unassignedOpcode (opcodeOf w))

/-- Four bytes as a word, the byte at offset +0 holding bits [7:0] (R63). -/
def wordOfBytes (b0 b1 b2 b3 : Byte) : Word := b3 ++ b2 ++ b1 ++ b0

/-- The bytes of a word, the byte at offset +0 first (R63). -/
def bytesOfWord (w : Word) : List Byte :=
  [w.extractLsb' 0 8, w.extractLsb' 8 8, w.extractLsb' 16 8, w.extractLsb' 24 8]

/-- Decoding bytes: the command of the first four, and the bytes after them. -/
def decodeBytes (bs : List Byte) : Except Reject (Instr × List Byte) :=
  match bs with
  | b0 :: b1 :: b2 :: b3 :: rest =>
    match decodeWord (wordOfBytes b0 b1 b2 b3) with
    | .ok i => .ok (i, rest)
    | .error r => .error r
  | _ => .error .truncated

/-- The command word of each command, as the "word" column of R82 writes it. -/
def encode (i : Instr) : Word :=
  match i with
  | .nop => 0x00000000
  | .derivePacked => 0x00000001
  | .deriveVtc => 0x00000002
  | .vtcWrite => 0x00000003
  | .clkPrescale => 0x00000004
  | .pllSearch => 0x00000005
  | .pllPack => 0x00000006
  | .pllWrite => 0x00000007
  | .pllStart => 0x00000008
  | .pllStop => 0x00000009
  | .clearError => 0x0000000F

/-- The command word as bytes. -/
def encodeBytes (i : Instr) : List Byte := bytesOfWord (encode i)

/-- The command word of `nbits` bits given as the number `w` (bits above `nbits` are 0); every command is one 32-bit
word (R80), so a longer one is none. -/
def tableWord (nbits w : Nat) : Word := BitVec.ofNat 32 (w % 2 ^ nbits)

/-- The command this decoder reads from a word numbered as spec/opcode_table.json numbers it. -/
def decodeTableWord (nbits w : Nat) : Option Instr :=
  if nbits ≤ 32 then
    match decodeBytes (bytesOfWord (tableWord nbits w)) with
    | .ok (i, _) => some i
    | .error _ => none
  else none

end Sys2Proof
end

