-- ==== Sys2Proof/Machine/Params.lean ====
section
/-! DEFINITION. The spec's default parameter values (00_scope.md R10) and the engine that `State.reset` describes. -/

namespace Sys2Proof.Machine

/-- The default `VTC_EDGE_MAP` (10_state.md R45, decision D9). -/
def defaultEdgeMap : EdgeMap where
  x78 := ⟨.hSyncStart, .hSyncEnd⟩
  x7C := ⟨.hActive, .hActive⟩
  x80 := ⟨.vSyncStart, .vSyncEnd⟩
  x84 := ⟨.hSyncStart, .hSyncStart⟩
  x88 := ⟨.hActive, .hActive⟩
  x8C := ⟨.vSyncStart, .vSyncEnd⟩
  x90 := ⟨.hSyncStart, .hSyncStart⟩

/-- The named alternative of D9: every slot the default fills with a horizontal offset holds the horizontal
sync/back-porch pair instead (95_test_vectors.md V13). -/
def syncPairEdgeMap : EdgeMap where
  x78 := ⟨.hSyncStart, .hSyncEnd⟩
  x7C := ⟨.hSyncStart, .hSyncEnd⟩
  x80 := ⟨.vSyncStart, .vSyncEnd⟩
  x84 := ⟨.hSyncStart, .hSyncEnd⟩
  x88 := ⟨.hSyncStart, .hSyncEnd⟩
  x8C := ⟨.vSyncStart, .vSyncEnd⟩
  x90 := ⟨.hSyncStart, .hSyncEnd⟩

/-- `DIV1_SENTINEL` = 0x1041, `WEDGE_BIT` = 13, `NOCOUNT_BIT` = 12, counts relocated (R10, R180, R181; D13). -/
def defaultDividerLayout : DividerLayout where
  div1Sentinel := 0x1041
  wedgeBit := 13
  noCountBit := 12
  countForm := .relocated

/-- The parameters of the engine that `State.reset` describes: the spec's defaults where it has them (PPC 2, D2; the
maps above; DIV_WORD_SOURCE input_divider, D15), the open values without a body, and three bases chosen here
(DESIGN CHOICE, log 2). -/
def resetParams : Params where
  ppc := 2
  lockLookup := Vector.ofFn (fun i => Config.lockLookup i.val)
  filterLookupLow := Vector.ofFn (fun i => Config.filterLookupLow i.val)
  vtcC68 := Config.vtcC68
  vtcC6C := Config.vtcC6C
  pollLimit := Config.pollLimitPred + 1
  engineBase := 0x00000000
  vtcBase := 0x00001000
  pllBase := 0x00002000
  edgeMap := defaultEdgeMap
  divWordSource := .inputDivider
  divider := defaultDividerLayout

end Sys2Proof.Machine
end

