-- ==== Sys2Proof/Machine/State.lean ====
section
/-! DEFINITION. The state of the machine (10_state.md R20), as plain data, and its reset value (70_reset_and_hazards.md R250). -/

namespace Sys2Proof.Machine

/-- The registers of the engine window, by the names of R21. -/
inductive EngineReg where
  | cmd | status | error
  | hActive | hSyncStart | hSyncEnd | hTotal | vActive | vSyncStart | vSyncEnd | vTotal
  | timingFlags | pixelClockHz | refreshHz | ppc
  | pkHActive | pkHFp | pkHSync | pkHBp | pkVActive | pkVFp | pkVSync | pkVBp
  | pkFlags | pkIter | pkOrigBlank | pkPackedBlank
  | vtcImg00 | vtcImg60 | vtcImg68 | vtcImg6C | vtcImg70 | vtcImg74 | vtcImg78
  | vtcImg7C | vtcImg80 | vtcImg84 | vtcImg88 | vtcImg8C | vtcImg90
  | searchTargetHz | toleranceHz | resD | resM | resO | resAchievedHz | resErrorHz
  | pllImgClk0L | pllImgFbL | pllImgFbHClk0H | pllImgDiv | pllImgLockL | pllImgFltrLockH
deriving DecidableEq, Repr

/-- The eight timing inputs, each a 16-bit VALUE field whose register reads 0 in bits [31:16] (R27). -/
structure TimingInputs where
  hActive : BitVec 16
  hSyncStart : BitVec 16
  hSyncEnd : BitVec 16
  hTotal : BitVec 16
  vActive : BitVec 16
  vSyncStart : BitVec 16
  vSyncEnd : BitVec 16
  vTotal : BitVec 16
deriving DecidableEq, Repr

/-- The PK_* registers (R33 to R36). -/
structure PackedTiming where
  hActive : BitVec 16
  hFp : BitVec 16
  hSync : BitVec 16
  hBp : BitVec 16
  vActive : BitVec 16
  vFp : BitVec 16
  vSync : BitVec 16
  vBp : BitVec 16
  /-- [0] HPOL, [1] VPOL, [2] INTERLACE (R35). -/
  flags : BitVec 3
  iter : Word
  origBlank : Word
  packedBlank : Word
deriving DecidableEq, Repr

/-- The 13 VTC_IMG_* registers, named by their VTC offset (R37, R38). -/
structure VtcImage where
  w00 : Word
  w60 : Word
  w68 : Word
  w6C : Word
  w70 : Word
  w74 : Word
  w78 : Word
  w7C : Word
  w80 : Word
  w84 : Word
  w88 : Word
  w8C : Word
  w90 : Word
deriving DecidableEq, Repr

/-- The six PLL_IMG_* registers (R51, R52). -/
structure PllImage where
  clk0L : Word
  fbL : Word
  fbHClk0H : Word
  div : Word
  lockL : Word
  fltrLockH : Word
deriving DecidableEq, Repr

/-- PLL_STATE (R23, R24). -/
inductive PllState where
  | idle
  | configured
  | running
deriving DecidableEq, Repr

/-- The sequencer (R57). -/
inductive Seq where
  | ready
  | pending (w : Word)
  | pollStart (k : Nat)
  | pollStop (k : Nat)
deriving DecidableEq, Repr

/-- The error codes of R220; 8 to 15 are reserved and never held. -/
inductive ErrorCode where
  | noError
  | invalidTiming
  | unreachableFrequency
  | domainError
  | hardwareTimeout
  | notReady
  | illegalCommand
  | busyWrite
deriving DecidableEq, Repr

/-- ERROR: CODE in [3:0], OPCODE in [15:8], the rest reads 0 (R25). -/
structure ErrorReg where
  code : ErrorCode
  opcode : Byte
deriving DecidableEq, Repr

/-- The names a model fault may have (R233, R234). -/
inductive ModelFault where
  | invalidTiming
  | pllSequence
deriving DecidableEq, Repr

/-- FAULTS, the set of recorded model faults (R232): whether it holds each of the two names. -/
structure FaultSet where
  invalidTiming : Bool
  pllSequence : Bool
deriving DecidableEq, Repr

/-- One device access of the event history (R79), with its offset in the device's window. -/
inductive DeviceEvent where
  | vtcWrite (off v : Word)
  | pllWrite (off v : Word)
  | pllRead (off v : Word)
deriving DecidableEq, Repr

/-- The width of a host access: only `word` is allowed (R64). -/
inductive AccessSize where
  | byte
  | half
  | word
  | double
deriving DecidableEq, Repr

/-- A host load, or a host store of a word (R85). -/
inductive AccessKind where
  | read
  | write (v : Word)
deriving DecidableEq, Repr

/-- One host access on the bus, at an absolute address (R60, R64). -/
structure HostAccess where
  addr : Word
  size : AccessSize
  kind : AccessKind
deriving DecidableEq, Repr

/-- Who moves next, and how (R19, R101, R252): the engine takes a step, the host makes an access, the host's WAIT loop
reads STATUS (R86), or the platform resets the block. -/
inductive Turn where
  | engine
  | host (a : HostAccess)
  | wait
  | reset
deriving DecidableEq, Repr

/-- A host read (R105): the word it returned; or, for a read made during a command, the race of 20_memory.md R74 while it is
open: the offset, the value when the read was made, and the value the command has written there since (the first value
again, as long as it has written none). The race is settled when the command ends (log 9). -/
inductive HostRead where
  | got (v : Word)
  | raced (off : Nat) (before after : Word)
deriving DecidableEq, Repr

/-- The bytes the engine has written to the device windows: pairs of address and byte in canonical form, addresses
strictly rising. An unlisted address holds no known value (R251). -/
abbrev Memory := List Host.Cell

/-- Nothing makes this machine stop with a fault: a failing command records an error and ends (R226), a model fault is
recorded and the command goes on (R232). -/
inductive Fault
deriving DecidableEq, Repr

/-- Why the model gives no step. -/
inductive Refusal where
  /-- Raised by `exec` for an instruction that has no meaning yet: safe. -/
  | notModelled (mnemonic : String)
  /-- Raised by `step` when the parameters are no valid engine's (R235): safe. -/
  | invalidInstance
  /-- Raised by a host access that is not 32 bits wide (R64): safe. -/
  | notWordAccess
  /-- Raised by a host access outside the 256-byte engine window (R64): safe. -/
  | outOfWindowAccess
  /-- Raised by a host access at an offset that is no multiple of 4 (R64): safe. -/
  | misalignedAccess
deriving DecidableEq, Repr

/-- The state of the machine. -/
structure State where
  /-- The engine's parameters, fixed (R10, R253). -/
  params : Params
  /-- H_ACTIVE to V_TOTAL (R27). -/
  timing : TimingInputs
  /-- TIMING_FLAGS: [0] H_ACTIVE_HIGH, [1] V_ACTIVE_HIGH, [2] INTERLACED (R29). -/
  timingFlags : BitVec 3
  /-- PIXEL_CLOCK_HZ (R30). -/
  pixelClockHz : Word
  /-- REFRESH_HZ (R31). -/
  refreshHz : Word
  /-- PK_* (R33 to R36). -/
  packed : PackedTiming
  /-- VTC_IMG_* (R37). -/
  vtcImage : VtcImage
  /-- SEARCH_TARGET_HZ (R47). -/
  searchTargetHz : Word
  /-- TOLERANCE_HZ (R48). -/
  toleranceHz : Word
  /-- RES_D (R49). -/
  resD : BitVec 8
  /-- RES_M (R49). -/
  resM : BitVec 8
  /-- RES_O (R49). -/
  resO : BitVec 8
  /-- RES_ACHIEVED_HZ (R50). -/
  resAchievedHz : Word
  /-- RES_ERROR_HZ (R50). -/
  resErrorHz : Word
  /-- PLL_IMG_* (R51). -/
  pllImage : PllImage
  /-- STATUS.PACKED_VALID (R23). -/
  packedValid : Bool
  /-- STATUS.VTC_IMG_VALID (R23). -/
  vtcImgValid : Bool
  /-- STATUS.TARGET_VALID (R23). -/
  targetValid : Bool
  /-- STATUS.SEARCH_VALID (R23). -/
  searchValid : Bool
  /-- STATUS.PLL_IMG_VALID (R23). -/
  pllImgValid : Bool
  /-- ERROR (R25). -/
  error : ErrorReg
  /-- PLL_STATE (R24). -/
  pllState : PllState
  /-- SEQ (R57). -/
  seq : Seq
  /-- FAULTS (R232). -/
  faults : FaultSet
  /-- The event history, in issue order (R79). -/
  history : List DeviceEvent
  /-- The last value written at each device register (R79), as bytes of the bus (R63). -/
  mem : Memory
  /-- The model's own: the turns still to come; when it is empty the engine moves (R101). -/
  agenda : List Turn
  /-- The model's own: the words the PLL device answers to the next STATUS reads; when it is empty the answer is a free
  value (R68). -/
  pllAnswers : List Word
  /-- The model's own: how many free values have been drawn. -/
  freeCount : Nat
  /-- The model's own: the host's reads, oldest first (R105, R74). -/
  hostReads : List HostRead
deriving DecidableEq, Repr

/-- The reset value of each 16-bit timing input is 0 (R27). -/
def TimingInputs.reset : TimingInputs := ⟨0, 0, 0, 0, 0, 0, 0, 0⟩

/-- The PK_* registers reset to 0 (R250). -/
def PackedTiming.reset : PackedTiming := ⟨0, 0, 0, 0, 0, 0, 0, 0, 0, 0, 0, 0⟩

/-- The VTC_IMG_* registers reset to 0 (R250). -/
def VtcImage.reset : VtcImage := ⟨0, 0, 0, 0, 0, 0, 0, 0, 0, 0, 0, 0, 0⟩

/-- The PLL_IMG_* registers reset to 0 (R250). -/
def PllImage.reset : PllImage := ⟨0, 0, 0, 0, 0, 0⟩

/-- ERROR resets to 0 (R250). -/
def ErrorReg.reset : ErrorReg := ⟨.noError, 0⟩

/-- FAULTS is empty at the start of a run (R250). -/
def FaultSet.empty : FaultSet := ⟨false, false⟩

/-- An engine with the parameters `p` right after reset, at the start of a run (R250, R253). -/
def State.resetWith (p : Params) : State where
  params := p
  timing := .reset
  timingFlags := 0
  pixelClockHz := 0
  refreshHz := 0
  packed := .reset
  vtcImage := .reset
  searchTargetHz := 0
  toleranceHz := 0xFFFFFFFF
  resD := 0
  resM := 0
  resO := 0
  resAchievedHz := 0
  resErrorHz := 0
  pllImage := .reset
  packedValid := false
  vtcImgValid := false
  targetValid := false
  searchValid := false
  pllImgValid := false
  error := .reset
  pllState := .idle
  seq := .ready
  faults := .empty
  history := []
  mem := []
  agenda := []
  pllAnswers := []
  freeCount := 0
  hostReads := []

/-- The machine right after reset (R250). -/
def State.reset : State := State.resetWith resetParams

end Sys2Proof.Machine
end

