-- ==== Sys2Proof/Machine/Ops.lean ====
section
/-! DEFINITION. The named operations the meanings share: memory of the device windows, device accesses (00_scope.md R14),
errors (60_exceptions.md R226), model faults (R232) and free values. -/

namespace Sys2Proof.Machine

/-! ## The device windows as bytes (20_memory.md R63, R79) -/

/-- The byte last written at the address `a`, if the engine has written one. -/
def Memory.readByte : Memory → Nat → Option Byte
  | [], _ => none
  | (b, v) :: rest, a => if a = b then some v else Memory.readByte rest a

/-- Writing a byte keeps addresses strictly rising. -/
def Memory.writeByte : Memory → Nat → Byte → Memory
  | [], a, v => [(a, v)]
  | (b, w) :: rest, a, v =>
    if a < b then (a, v) :: (b, w) :: rest
    else if a = b then (a, v) :: rest
    else (b, w) :: Memory.writeByte rest a v

/-- The canonical form: addresses strictly rising, all in the 32-bit address space. An unlisted address reads as no
value, which no entry equals. -/
abbrev Memory.wf (m : Memory) : Prop :=
  List.Pairwise (fun x y => x.1 < y.1) m ∧ ∀ c ∈ m, c.1 < 2 ^ 32

/-- Writing a word, the byte at offset +0 holding bits [7:0] (R63). -/
def Memory.writeWord (m : Memory) (a : Word) (v : Word) : Memory :=
  let m0 := Memory.writeByte m a.toNat (v.extractLsb' 0 8)
  let m1 := Memory.writeByte m0 (a + 1).toNat (v.extractLsb' 8 8)
  let m2 := Memory.writeByte m1 (a + 2).toNat (v.extractLsb' 16 8)
  Memory.writeByte m2 (a + 3).toNat (v.extractLsb' 24 8)

/-- The word last written at `a`, if all four bytes have been written. -/
def Memory.readWord (m : Memory) (a : Word) : Option Word :=
  match Memory.readByte m a.toNat, Memory.readByte m (a + 1).toNat,
      Memory.readByte m (a + 2).toNat, Memory.readByte m (a + 3).toNat with
  | some b0, some b1, some b2, some b3 => some (wordOfBytes b0 b1 b2 b3)
  | _, _, _, _ => none

/-! ## Device accesses (R14, R70, R71, R79) -/

/-- `VtcWrite(off, v)`: one 32-bit write to `VTC_BASE + off`. -/
def State.vtcWrite (off v : Word) (s : State) : State :=
  { s with
    history := s.history ++ [.vtcWrite off v]
    mem := s.mem.writeWord (s.params.vtcBase + off) v }

/-- `PllWrite(off, v)`: one 32-bit write to `PLL_BASE + off`. -/
def State.pllWrite (off v : Word) (s : State) : State :=
  { s with
    history := s.history ++ [.pllWrite off v]
    mem := s.mem.writeWord (s.params.pllBase + off) v }

/-- A sequence of VTC writes, in the order of the list (R71). -/
def State.vtcWrites (ws : List (Word × Word)) (s : State) : State :=
  ws.foldl (fun t w => t.vtcWrite w.1 w.2) s

/-- A sequence of PLL writes, in the order of the list (R71). -/
def State.pllWrites (ws : List (Word × Word)) (s : State) : State :=
  ws.foldl (fun t w => t.pllWrite w.1 w.2) s

/-- The engine's PLL writes of an event history: offset and value, oldest first. -/
def pllWritesOf (h : List DeviceEvent) : List (Word × Word) :=
  h.filterMap fun e =>
    match e with
    | .pllWrite off v => some (off, v)
    | .vtcWrite _ _ => none
    | .pllRead _ _ => none

/-- The word the PLL device answers to a STATUS read in the state `s` (R68). -/
def State.pllAnswer (s : State) : Word :=
  match s.pllAnswers with
  | w :: _ => w
  | [] => Config.freePllStatus (pllWritesOf s.history) s.freeCount

/-- `PllRead(off)`: one 32-bit read, whose value is the device's answer. The state after it; the value is
`s.pllAnswer`. -/
def State.pllRead (off : Word) (s : State) : State :=
  let t := { s with history := s.history ++ [DeviceEvent.pllRead off s.pllAnswer] }
  match s.pllAnswers with
  | _ :: rest => { t with pllAnswers := rest }
  | [] => { t with freeCount := s.freeCount + 1 }

/-! ## Errors (R220, R226, R227): the engine's one way to fail, and the way back -/

/-- The numeric code of R220. -/
def ErrorCode.num (e : ErrorCode) : BitVec 4 :=
  match e with
  | .noError => 0
  | .invalidTiming => 1
  | .unreachableFrequency => 2
  | .domainError => 3
  | .hardwareTimeout => 4
  | .notReady => 5
  | .illegalCommand => 6
  | .busyWrite => 7

/-- The recording half of `raise` (R226): the first error since reset or CLEAR_ERROR is kept. -/
def State.recordError (e : ErrorCode) (op : Byte) (s : State) : State :=
  if s.error.code = .noError then { s with error := ⟨e, op⟩ } else s

/-- The end of a command: `SEQ <- Ready`. -/
def State.toReady (s : State) : State := { s with seq := .ready }

/-- `raise E(op)` (R226): record the error, and end the command. -/
def State.raise (e : ErrorCode) (op : Byte) (s : State) : State := (s.recordError e op).toReady

/-- `r[ERROR] <- 0` (R108), the way back from a recorded error (R231). -/
def State.clearErrorReg (s : State) : State := { s with error := .reset }

/-! ## Model faults (R232) -/

/-- Adding a name to FAULTS. -/
def FaultSet.add (f : ModelFault) (fs : FaultSet) : FaultSet :=
  match f with
  | .invalidTiming => { fs with invalidTiming := true }
  | .pllSequence => { fs with pllSequence := true }

/-- `fault F` (R14, R232): recorded "without changing hardware state". -/
def State.fault (f : ModelFault) (s : State) : State := { s with faults := s.faults.add f }

/-- `if c: fault F`. -/
def State.faultIf (c : Bool) (f : ModelFault) (s : State) : State := if c then s.fault f else s

/-! ## Free values -/

/-- The n-th of the free values drawn next in the state `s`. -/
def State.free (s : State) (n : Nat) : Word := Config.freeWord (s.freeCount + n)

/-- The free choice made next in the state `s`. -/
def State.choice (s : State) : Bool := Config.freeChoice s.freeCount

/-- `n` free values have been drawn. -/
def State.drew (n : Nat) (s : State) : State := { s with freeCount := s.freeCount + n }

/-! ## Host reads made during a command (20_memory.md R74; log 9) -/

/-- Settling the open races among the host's reads, each by a free choice, the `n`-th and the following ones: the value
before, or the value the command wrote. -/
def HostRead.settle : List HostRead → Nat → List HostRead
  | [], _ => []
  | .got v :: rest, n => .got v :: HostRead.settle rest n
  | .raced _ before after :: rest, n =>
    .got (if Config.freeChoice n then after else before) :: HostRead.settle rest (n + 1)

/-- How many races are open among the host's reads. -/
def HostRead.openCount : List HostRead → Nat
  | [] => 0
  | .got _ :: rest => HostRead.openCount rest
  | .raced _ _ _ :: rest => HostRead.openCount rest + 1

/-- The open races are settled: the command that they race with has ended. -/
def State.settleReads (s : State) : State :=
  { s with
    hostReads := HostRead.settle s.hostReads s.freeCount
    freeCount := s.freeCount + HostRead.openCount s.hostReads }

/-! ## Reset as an event (R250, R251, R252) -/

/-- The platform's reset of the block, between any two steps: the engine state becomes that of R250, a command in
progress is abandoned, no device access is made. What is not the engine's own state stays: the parameters, FAULTS (R232),
the history and contents of the device windows, and the turns, answers and reads of the other agents; a read that races with
the abandoned command is settled (log 18). -/
def State.resetEvent (s : State) : State :=
  { State.resetWith s.params with
    faults := s.faults
    history := s.history
    mem := s.mem
    agenda := s.agenda
    pllAnswers := s.pllAnswers
    freeCount := s.settleReads.freeCount
    hostReads := s.settleReads.hostReads }

end Sys2Proof.Machine
end

