-- ==== Sys2Proof/Machine/Operands.lean ====
section
/-! DEFINITION. The operands of the commands (30_encoding.md R81): the timing inputs and their validity (10_state.md R28),
counter edges and 16-bit pairs (R44), the lookup tables (R53), the divider words (42_pll_programmer.md R180, R181). -/

namespace Sys2Proof.Machine

/-- One axis is valid: `active ≥ 1` and `active ≤ sync_start ≤ sync_end ≤ total` (R28). -/
def axisValid (active syncStart syncEnd total : BitVec 16) : Bool :=
  decide (1 ≤ active.toNat) && decide (active.toNat ≤ syncStart.toNat) &&
  decide (syncStart.toNat ≤ syncEnd.toNat) && decide (syncEnd.toNat ≤ total.toNat)

/-- `TimingValid()` (R28). -/
def TimingInputs.valid (t : TimingInputs) : Bool :=
  axisValid t.hActive t.hSyncStart t.hSyncEnd t.hTotal &&
  axisValid t.vActive t.vSyncStart t.vSyncEnd t.vTotal

/-- The value of a counter edge. -/
def TimingInputs.edge (t : TimingInputs) (e : TimingEdge) : BitVec 16 :=
  match e with
  | .hActive => t.hActive
  | .hSyncStart => t.hSyncStart
  | .hSyncEnd => t.hSyncEnd
  | .hTotal => t.hTotal
  | .vActive => t.vActive
  | .vSyncStart => t.vSyncStart
  | .vSyncEnd => t.vSyncEnd
  | .vTotal => t.vTotal

/-- `(hi << 16) | lo` of two 16-bit halves (R44). -/
def halves (hi lo : BitVec 16) : Word := hi ++ lo

/-- A pair register of the VTC image (R44). -/
def TimingInputs.pair (t : TimingInputs) (p : EdgePair) : Word := halves (t.edge p.hi) (t.edge p.lo)

/-- TIMING_FLAGS[0], H_ACTIVE_HIGH (R29). -/
def hActiveHigh (fl : BitVec 3) : Bool := fl.getLsbD 0
/-- TIMING_FLAGS[1], V_ACTIVE_HIGH (R29). -/
def vActiveHigh (fl : BitVec 3) : Bool := fl.getLsbD 1
/-- TIMING_FLAGS[2], INTERLACED (R29). -/
def interlaced (fl : BitVec 3) : Bool := fl.getLsbD 2

/-- `LOCK_LOOKUP[m - 1]` (R53). PLL_PACK checks `1 ≤ m ≤ 64` first (R177), so the `else` is never a command's operand. -/
def lockEntry (p : Params) (m : Nat) : BitVec 40 :=
  if h : m - 1 < 64 then p.lockLookup[m - 1] else 0

/-- `FILTER_LOOKUP_LOW[m - 1]` (R53); as `lockEntry`. -/
def filterEntry (p : Params) (m : Nat) : BitVec 10 :=
  if h : m - 1 < 64 then p.filterLookupLow[m - 1] else 0

/-- `high_time = d / 2` (R180). -/
def highTime (d : Nat) : Nat := d / 2

/-- `low_time = d - high_time` (R180). -/
def lowTime (d : Nat) : Nat := d - highTime d

/-- `DivWord(d)`, the duty-cycle counter encoding (R180). -/
def divWord (l : DividerLayout) (d : Nat) : Word :=
  if d = 1 then l.div1Sentinel
  else
    let counts : Word := BitVec.ofNat 32 (lowTime d % 64) ||| (BitVec.ofNat 32 (highTime d % 64) <<< 6)
    if d % 2 = 1 then counts ||| ((1 : Word) <<< l.wedgeBit) else counts

/-- The bit `src` of `w`, moved to the bit `dst`. -/
def moveBit (w : Word) (src dst : Nat) : Word := if w.getLsbD src then (1 : Word) <<< dst else 0

/-- `CountWord(d)` (R181): the count field in place, the no-count bit moved to bit 22 and the wedge bit to bit 23; or
`DivWord(d)` itself under the named alternative of D13. R181's pseudocode moves the bits 12 and 13 by number; in a layout with
other `NOCOUNT_BIT` or `WEDGE_BIT` the bits that move are those of the layout (DESIGN CHOICE, log 28). -/
def countWord (l : DividerLayout) (d : Nat) : Word :=
  let w := divWord l d
  match l.countForm with
  | .relocated => (w &&& 0xFFF) ||| moveBit w l.noCountBit 22 ||| moveBit w l.wedgeBit 23
  | .sameAsDivWord => w

end Sys2Proof.Machine
end

