-- ==== Sys2Proof/Machine/Flags.lean ====
section
/-! DEFINITION. STATUS and ERROR as the host reads them (10_state.md R23, R25; 40_control.md R106), the valid-bit effects
of register writes (R54, R55) and the device-level polarity bits (41_timing_converter.md R126). -/

namespace Sys2Proof.Machine

/-- STATUS.BUSY: `SEQ ≠ Ready` (R57). -/
def State.busy (s : State) : Bool :=
  match s.seq with
  | .ready => false
  | .pending _ => true
  | .pollStart _ => true
  | .pollStop _ => true

/-- The STATUS code of PLL_STATE: 0 Idle, 1 Configured, 2 Running (R23). -/
def PllState.code (p : PllState) : BitVec 2 :=
  match p with
  | .idle => 0
  | .configured => 1
  | .running => 2

/-- STATUS.ERR: `ERROR.CODE ≠ 0` (R106). -/
def State.err (s : State) : Bool := s.error.code.num != 0

/-- STATUS (R23): bit 9 down to bit 0, under 22 reserved zeros. -/
def State.statusWord (s : State) : Word :=
  (0 : BitVec 22) ++ BitVec.ofBool s.pllImgValid ++ BitVec.ofBool s.searchValid ++
    BitVec.ofBool s.targetValid ++ BitVec.ofBool s.vtcImgValid ++ BitVec.ofBool s.packedValid ++
    BitVec.ofBool s.err ++ (0 : BitVec 1) ++ s.pllState.code ++ BitVec.ofBool s.busy

/-- ERROR (R25): OPCODE in [15:8], CODE in [3:0]. -/
def State.errorWord (s : State) : Word :=
  (0 : BitVec 16) ++ s.error.opcode ++ (0 : BitVec 4) ++ s.error.code.num

/-- A write to a timing input or to TIMING_FLAGS clears PACKED_VALID and VTC_IMG_VALID (R54). -/
def State.afterTimingWrite (s : State) : State := { s with packedValid := false, vtcImgValid := false }

/-- A host write to PIXEL_CLOCK_HZ clears TARGET_VALID (R55). -/
def State.afterPixelClockWrite (s : State) : State := { s with targetValid := false }

/-- A write to SEARCH_TARGET_HZ sets TARGET_VALID and clears SEARCH_VALID (R55). -/
def State.afterTargetWrite (s : State) : State := { s with targetValid := true, searchValid := false }

/-- A write to RES_D, RES_M or RES_O sets SEARCH_VALID and clears PLL_IMG_VALID (R55, R164). -/
def State.afterResultWrite (s : State) : State := { s with searchValid := true, pllImgValid := false }

/-- `PolarityBits()` (R126): HPOL = 1 - H_ACTIVE_HIGH in bit 0, VPOL = 1 - V_ACTIVE_HIGH in bit 1, INTERLACE in bit 2. -/
def polarityBits (fl : BitVec 3) : BitVec 3 :=
  BitVec.ofBool (interlaced fl) ++ BitVec.ofBool (!vActiveHigh fl) ++ BitVec.ofBool (!hActiveHigh fl)

end Sys2Proof.Machine
end

