-- ==== Sys2Proof/Machine/Control.lean ====
section
/-! DEFINITION. The control commands NOP and CLEAR_ERROR (40_control.md R107, R108). -/

namespace Sys2Proof.Machine

/-- NOP (R107). -/
def execNop (s : State) : Host.Outcome State Fault Refusal := .next s.toReady

/-- CLEAR_ERROR (R108): `r[ERROR] <- 0; SEQ <- Ready`. FAULTS stays. -/
def execClearError (s : State) : Host.Outcome State Fault Refusal := .next s.clearErrorReg.toReady

end Sys2Proof.Machine
end

