-- ==== Sys2Proof/Machine/Pll.lean ====
section
/-! DEFINITION. The PLLProgrammer commands CLK_PRESCALE, PLL_SEARCH, PLL_PACK, PLL_WRITE, PLL_START, PLL_STOP
(42_pll_programmer.md), and the poll steps that finish the last two. -/

namespace Sys2Proof.Machine

/-! ## CLK_PRESCALE (R160) -/

/-- CLK_PRESCALE (R160). -/
def execClkPrescale (s : State) : Host.Outcome State Fault Refusal :=
  let t := Config.prescale * s.pixelClockHz.toNat
  if t > 0xFFFFFFFF then .next (s.raise .domainError 0x04)
  else .next ({ s with searchTargetHz := BitVec.ofNat 32 t }).afterTargetWrite.toReady

/-! ## PLL_SEARCH (R163 to R173) -/

/-- One candidate of the search: D, M, O, the achieved frequency f and the error e (R163). -/
structure Candidate where
  d : Nat
  m : Nat
  o : Nat
  f : Nat
  e : Nat
deriving DecidableEq, Repr

/-- `i in [a, b]`, ascending, nothing when `a > b` (00_scope.md R14). -/
def rangeIncl (a b : Nat) : List Nat := (List.range (b + 1 - a)).map (fun i => a + i)

/-- `Mlo = max(M_MIN, M_LO_FACTOR * D)` (R168). -/
def mLo (d : Nat) : Nat := max Config.mMin (Config.mLoFactor * d)

/-- `Mhi = min(M_MAX, M_HI_FACTOR * D)` (R168). -/
def mHi (d : Nat) : Nat := min Config.mMax (Config.mHiFactor * d)

/-- `OutDiv(D, M, T)` (R166): the VCO frequency over the target, to nearest with halves up, clamped to [1, 128]. -/
def outDiv (d m t : Nat) : Nat :=
  min Config.oMax (max Config.oMin ((2 * Config.refHz * m + d * t) / (2 * d * t)))

/-- The achieved frequency of a triple, in whole Hz (R167). -/
def achieved (d m o : Nat) : Nat := (Config.refHz * m) / (d * o)

/-- `|a - b|`, without wrap (R13). -/
def absDiff (a b : Nat) : Nat := (a - b) + (b - a)

/-- The candidate of a pair (R163). -/
def candidate (t d m : Nat) : Candidate :=
  let o := outDiv d m t
  let f := achieved d m o
  { d := d, m := m, o := o, f := f, e := absDiff f t }

/-- The enumerated pairs: ascending D, then ascending M (R165, R168). -/
def enumPairs : List (Nat × Nat) :=
  (rangeIncl Config.dMin Config.dMax).flatMap fun d => (rangeIncl (mLo d) (mHi d)).map fun m => (d, m)

/-- A candidate replaces the best only when its error is strictly smaller (R165). -/
def better (best : Option Candidate) (c : Candidate) : Option Candidate :=
  match best with
  | none => some c
  | some b => if c.e < b.e then some c else some b

/-- `search(target_hz)` (R163): never `none` (R169; `pllSearch_isSome`). -/
def pllSearch (t : Nat) : Option Candidate :=
  (enumPairs.map fun p => candidate t p.1 p.2).foldl better none

/-- The writes of PLL_SEARCH's result (R163, R164). -/
def State.storeResult (c : Candidate) (s : State) : State :=
  ({ s with
    resD := BitVec.ofNat 8 c.d
    resM := BitVec.ofNat 8 c.m
    resO := BitVec.ofNat 8 c.o
    resAchievedHz := BitVec.ofNat 32 c.f
    resErrorHz := BitVec.ofNat 32 c.e }).afterResultWrite

/-- PLL_SEARCH (R163). The case `none` does not arise (R169). -/
def execPllSearch (s : State) : Host.Outcome State Fault Refusal :=
  if !s.targetValid then .next (s.raise .notReady 0x05)
  else if s.searchTargetHz = 0 then .next (s.raise .domainError 0x05)
  else
    match pllSearch s.searchTargetHz.toNat with
    | none => .next s.toReady
    | some c =>
      if s.toleranceHz.toNat < c.e then .next ((s.storeResult c).raise .unreachableFrequency 0x05)
      else .next (s.storeResult c).toReady

/-! ## PLL_PACK (R175 to R185) -/

/-- The PLL register image of a triple in range (R175, R176, R178, R179). -/
def packImage (p : Params) (d m o : Nat) : PllImage :=
  let lock := lockEntry p m
  let filter := filterEntry p m
  { clk0L := countWord p.divider o
    fbL := countWord p.divider m
    fbHClk0H := 0
    div :=
      match p.divWordSource with
      | .inputDivider => divWord p.divider d
      | .outputDivider => divWord p.divider o
    lockL := lock.extractLsb' 0 32
    fltrLockH := (filter.setWidth 32 <<< 16) ||| (lock.extractLsb' 32 8).setWidth 32 }

/-- DOMAIN_ERROR of PLL_PACK: PLL_IMG_VALID is cleared first (R177). -/
def State.packDomainError (s : State) : State := ({ s with pllImgValid := false }).raise .domainError 0x06

/-- PLL_PACK (R175): NOT_READY, then M, then D, then O (R229). -/
def execPllPack (s : State) : Host.Outcome State Fault Refusal :=
  let d := s.resD.toNat
  let m := s.resM.toNat
  let o := s.resO.toNat
  if !s.searchValid then .next (s.raise .notReady 0x06)
  else if m < 1 ∨ 64 < m then .next s.packDomainError
  else if d < 1 ∨ 106 < d then .next s.packDomainError
  else if o < 1 ∨ 128 < o then .next s.packDomainError
  else .next ({ s with pllImage := packImage s.params d m o, pllImgValid := true }).toReady

/-! ## PLL_WRITE (R190 to R192; 20_memory.md R73) -/

/-- The six writes of PLL_WRITE in order: offset and value (R73). -/
def PllImage.writes (i : PllImage) : List (Word × Word) :=
  [ (0x08, i.clk0L), (0x0C, i.fbL), (0x10, i.fbHClk0H), (0x14, i.div), (0x18, i.lockL), (0x1C, i.fltrLockH) ]

/-- PLL_STATE after the batch: Idle becomes Configured; Configured and Running are kept (R190). -/
def PllState.afterWrite (p : PllState) : PllState :=
  match p with
  | .idle => .configured
  | .configured => .configured
  | .running => .running

/-- PLL_WRITE (R190): outside Idle F_PLL_SEQUENCE is recorded and the writes still happen (R192). -/
def execPllWrite (s : State) : Host.Outcome State Fault Refusal :=
  if !s.pllImgValid then .next (s.raise .notReady 0x07)
  else
    let t := (s.faultIf (s.pllState != .idle) .pllSequence).pllWrites s.pllImage.writes
    .next ({ t with pllState := s.pllState.afterWrite }).toReady

/-! ## PLL_START and PLL_STOP (R195 to R202) -/

/-- PLL_START's issuing step (R195): outside Configured F_PLL_SEQUENCE is recorded and the start still happens (R197). -/
def execPllStart (s : State) : Host.Outcome State Fault Refusal :=
  .next { (s.faultIf (s.pllState != .configured) .pllSequence).pllWrite 0x00 0x00000001 with seq := .pollStart 0 }

/-- PLL_STOP's issuing step (R200). -/
def execPllStop (s : State) : Host.Outcome State Fault Refusal :=
  .next { s.pllWrite 0x00 0x00000000 with seq := .pollStop 0 }

/-- The step of `SEQ = PollStart(k)` (R196). -/
def pollStartStep (k : Nat) (s : State) : State :=
  let t := s.pllRead 0x04
  if s.pllAnswer.getLsbD 0 then { t with pllState := .running, seq := .ready }
  else if s.params.pollLimit ≤ k + 1 then
    ({ t.pllWrite 0x00 0x00000000 with pllState := .idle }).raise .hardwareTimeout 0x08
  else { t with seq := .pollStart (k + 1) }

/-- The step of `SEQ = PollStop(k)` (R201). -/
def pollStopStep (k : Nat) (s : State) : State :=
  let t := s.pllRead 0x04
  if !s.pllAnswer.getLsbD 0 then { t with pllState := .idle, seq := .ready }
  else if s.params.pollLimit ≤ k + 1 then ({ t with pllState := .idle }).raise .hardwareTimeout 0x09
  else { t with seq := .pollStop (k + 1) }

end Sys2Proof.Machine
end

