-- ==== Sys2Proof/Machine/Timing.lean ====
section
/-! DEFINITION. The TimingConverter commands DERIVE_PACKED, DERIVE_VTC, VTC_WRITE (41_timing_converter.md). -/

namespace Sys2Proof.Machine

/-! ## DERIVE_PACKED (R120 to R127) -/

/-- `packed_total_blanking` (R120, step 3). -/
def packedBlank (n fp sy bp : Nat) : Nat := (fp + bp + sy) * n

/-- The deficit-correction loop (R122): while the packed blanking is below `orig`, the front porch grows by 1. Answers the
front porch and the number of increments. `fuel` bounds the rounds; each round adds `n ≥ 1` to the packed blanking, so
`orig` of it is always enough. -/
def reconcile (n sy bp orig : Nat) : (fuel fp iter : Nat) → Nat × Nat
  | 0, fp, iter => (fp, iter)
  | fuel + 1, fp, iter =>
    if packedBlank n fp sy bp < orig then reconcile n sy bp orig fuel (fp + 1) (iter + 1)
    else (fp, iter)

/-- The PK_* registers DERIVE_PACKED computes from valid timing inputs, with `n` pixels per clock (R120). -/
def packTiming (n : Nat) (t : TimingInputs) (fl : BitVec 3) : PackedTiming :=
  let ha := t.hActive.toNat
  let hss := t.hSyncStart.toNat
  let hse := t.hSyncEnd.toNat
  let ht := t.hTotal.toNat
  let sy := (hse - hss) / n
  let bp := (ht - hse) / n
  let orig := (hss - ha) + (hse - hss) + (ht - hse)
  let fpIter := reconcile n sy bp orig orig ((hss - ha) / n) 0
  { hActive := BitVec.ofNat 16 (ha / n)
    hFp := BitVec.ofNat 16 fpIter.1
    hSync := BitVec.ofNat 16 sy
    hBp := BitVec.ofNat 16 bp
    vActive := t.vActive
    vFp := BitVec.ofNat 16 (t.vSyncStart.toNat - t.vActive.toNat)
    vSync := BitVec.ofNat 16 (t.vSyncEnd.toNat - t.vSyncStart.toNat)
    vBp := BitVec.ofNat 16 (t.vTotal.toNat - t.vSyncEnd.toNat)
    flags := polarityBits fl
    iter := BitVec.ofNat 32 fpIter.2
    origBlank := BitVec.ofNat 32 orig
    packedBlank := BitVec.ofNat 32 (packedBlank n fpIter.1 sy bp) }

/-- The PK_* registers after DERIVE_PACKED with invalid timing inputs: any value (R120, R233, I1). -/
def State.freePacked (s : State) : PackedTiming where
  hActive := (s.free 0).setWidth 16
  hFp := (s.free 1).setWidth 16
  hSync := (s.free 2).setWidth 16
  hBp := (s.free 3).setWidth 16
  vActive := (s.free 4).setWidth 16
  vFp := (s.free 5).setWidth 16
  vSync := (s.free 6).setWidth 16
  vBp := (s.free 7).setWidth 16
  flags := (s.free 8).setWidth 3
  iter := s.free 9
  origBlank := s.free 10
  packedBlank := s.free 11

/-- Whether DERIVE_PACKED with invalid timing inputs finishes in this step: "completion: not guaranteed" (R120), "the
command need not finish" (R233), so a free choice (I1). -/
def State.packedFinishes (s : State) : Bool := s.choice

/-- DERIVE_PACKED (R120). With invalid timing inputs F_INVALID_TIMING is recorded and the twelve outputs are free values;
the command finishes, or stays pending, by a free choice. -/
def execDerivePacked (s : State) : Host.Outcome State Fault Refusal :=
  if s.timing.valid then
    .next ({ s with
      packed := packTiming s.params.ppc.toNat s.timing s.timingFlags
      packedValid := true }).toReady
  else
    .next { (s.drew 12).fault .invalidTiming with
      packed := s.freePacked
      packedValid := s.packedValid || s.packedFinishes
      seq := if s.packedFinishes then .ready else s.seq }

/-! ## DERIVE_VTC (R130, R131) -/

/-- The VTC register image of the timing inputs (R130; 10_state.md R39 to R45). -/
def deriveVtcImage (p : Params) (t : TimingInputs) : VtcImage where
  w00 := Config.vtcCtlValue
  w60 := halves t.vActive t.hActive
  w68 := p.vtcC68
  w6C := p.vtcC6C
  w70 := halves 0 t.hTotal
  w74 := halves t.vTotal t.vTotal
  w78 := t.pair p.edgeMap.x78
  w7C := t.pair p.edgeMap.x7C
  w80 := t.pair p.edgeMap.x80
  w84 := t.pair p.edgeMap.x84
  w88 := t.pair p.edgeMap.x88
  w8C := t.pair p.edgeMap.x8C
  w90 := t.pair p.edgeMap.x90

/-- DERIVE_VTC (R130). With invalid timing inputs F_INVALID_TIMING is recorded and the values are still the computed
ones. -/
def execDeriveVtc (s : State) : Host.Outcome State Fault Refusal :=
  .next ({ s.faultIf (!s.timing.valid) .invalidTiming with
    vtcImage := deriveVtcImage s.params s.timing
    vtcImgValid := true }).toReady

/-! ## VTC_WRITE (R140, R141; 20_memory.md R72) -/

/-- The 13 writes of VTC_WRITE in order: offset and value, the control register last (R72). -/
def VtcImage.writes (i : VtcImage) : List (Word × Word) :=
  [ (0x60, i.w60), (0x68, i.w68), (0x6C, i.w6C), (0x70, i.w70), (0x74, i.w74), (0x78, i.w78), (0x7C, i.w7C),
    (0x80, i.w80), (0x84, i.w84), (0x88, i.w88), (0x8C, i.w8C), (0x90, i.w90), (0x00, i.w00) ]

/-- VTC_WRITE (R140). -/
def execVtcWrite (s : State) : Host.Outcome State Fault Refusal :=
  if s.vtcImgValid then .next (s.vtcWrites s.vtcImage.writes).toReady
  else .next (s.raise .notReady 0x03)

end Sys2Proof.Machine
end

