-- ==== Sys2Proof/Machine/Dispatch.lean ====
section
/-! DEFINITION. One arm per command (30_encoding.md R82). -/

namespace Sys2Proof.Machine

def exec (i : Instr) (s : State) : Host.Outcome State Fault Refusal :=
  match i with
  | .nop => Sys2Proof.Machine.execNop s
  | .derivePacked => Sys2Proof.Machine.execDerivePacked s
  | .deriveVtc => Sys2Proof.Machine.execDeriveVtc s
  | .vtcWrite => Sys2Proof.Machine.execVtcWrite s
  | .clkPrescale => Sys2Proof.Machine.execClkPrescale s
  | .pllSearch => Sys2Proof.Machine.execPllSearch s
  | .pllPack => Sys2Proof.Machine.execPllPack s
  | .pllWrite => Sys2Proof.Machine.execPllWrite s
  | .pllStart => Sys2Proof.Machine.execPllStart s
  | .pllStop => Sys2Proof.Machine.execPllStop s
  | .clearError => Sys2Proof.Machine.execClearError s

end Sys2Proof.Machine
end

