-- ==== Sys2Proof/Machine/RegMap.lean ====
section
/-! DEFINITION. The engine register map (10_state.md R21): offsets, reads (40_control.md R105) and writes (R102, R103). -/

namespace Sys2Proof.Machine

/-- The offset of each register from ENGINE_BASE (R21, R38, R52). -/
def EngineReg.offset (r : EngineReg) : Nat :=
  match r with
  | .cmd => 0x000
  | .status => 0x004
  | .error => 0x008
  | .hActive => 0x010
  | .hSyncStart => 0x014
  | .hSyncEnd => 0x018
  | .hTotal => 0x01C
  | .vActive => 0x020
  | .vSyncStart => 0x024
  | .vSyncEnd => 0x028
  | .vTotal => 0x02C
  | .timingFlags => 0x030
  | .pixelClockHz => 0x034
  | .refreshHz => 0x038
  | .ppc => 0x03C
  | .pkHActive => 0x040
  | .pkHFp => 0x044
  | .pkHSync => 0x048
  | .pkHBp => 0x04C
  | .pkVActive => 0x050
  | .pkVFp => 0x054
  | .pkVSync => 0x058
  | .pkVBp => 0x05C
  | .pkFlags => 0x060
  | .pkIter => 0x064
  | .pkOrigBlank => 0x068
  | .pkPackedBlank => 0x06C
  | .vtcImg00 => 0x080
  | .vtcImg60 => 0x084
  | .vtcImg68 => 0x088
  | .vtcImg6C => 0x08C
  | .vtcImg70 => 0x090
  | .vtcImg74 => 0x094
  | .vtcImg78 => 0x098
  | .vtcImg7C => 0x09C
  | .vtcImg80 => 0x0A0
  | .vtcImg84 => 0x0A4
  | .vtcImg88 => 0x0A8
  | .vtcImg8C => 0x0AC
  | .vtcImg90 => 0x0B0
  | .searchTargetHz => 0x0C0
  | .toleranceHz => 0x0C4
  | .resD => 0x0C8
  | .resM => 0x0CC
  | .resO => 0x0D0
  | .resAchievedHz => 0x0D4
  | .resErrorHz => 0x0D8
  | .pllImgClk0L => 0x0E0
  | .pllImgFbL => 0x0E4
  | .pllImgFbHClk0H => 0x0E8
  | .pllImgDiv => 0x0EC
  | .pllImgLockL => 0x0F0
  | .pllImgFltrLockH => 0x0F4

/-- The control registers and the timing inputs, in the order of R21. -/
def EngineReg.inputs : List EngineReg :=
  [.cmd, .status, .error, .hActive, .hSyncStart, .hSyncEnd, .hTotal, .vActive, .vSyncStart, .vSyncEnd, .vTotal,
   .timingFlags, .pixelClockHz, .refreshHz, .ppc]

/-- The packed-timing registers (R33 to R36). -/
def EngineReg.packedTiming : List EngineReg :=
  [.pkHActive, .pkHFp, .pkHSync, .pkHBp, .pkVActive, .pkVFp, .pkVSync, .pkVBp,
   .pkFlags, .pkIter, .pkOrigBlank, .pkPackedBlank]

/-- The VTC image registers (R38). -/
def EngineReg.vtcImage : List EngineReg :=
  [.vtcImg00, .vtcImg60, .vtcImg68, .vtcImg6C, .vtcImg70, .vtcImg74, .vtcImg78,
   .vtcImg7C, .vtcImg80, .vtcImg84, .vtcImg88, .vtcImg8C, .vtcImg90]

/-- The search and PLL image registers (R47 to R52). -/
def EngineReg.pll : List EngineReg :=
  [.searchTargetHz, .toleranceHz, .resD, .resM, .resO, .resAchievedHz, .resErrorHz,
   .pllImgClk0L, .pllImgFbL, .pllImgFbHClk0H, .pllImgDiv, .pllImgLockL, .pllImgFltrLockH]

/-- The registers of the window, in the order of R21. -/
def EngineReg.all : List EngineReg :=
  EngineReg.inputs ++ (EngineReg.packedTiming ++ (EngineReg.vtcImage ++ EngineReg.pll))

/-- The register at an offset; `none` at a reserved offset (R21, R22). -/
def EngineReg.ofOffset (off : Nat) : Option EngineReg := EngineReg.all.find? (fun r => r.offset == off)

/-- A 16-bit field as the register reads: bits [31:16] read 0 (R22). -/
def zext16 (v : BitVec 16) : Word := v.setWidth 32

/-- The word a register reads (R105): reserved bits read 0 (R22). -/
def EngineReg.read (r : EngineReg) (s : State) : Word :=
  match r with
  | .cmd => 0
  | .status => s.statusWord
  | .error => s.errorWord
  | .hActive => zext16 s.timing.hActive
  | .hSyncStart => zext16 s.timing.hSyncStart
  | .hSyncEnd => zext16 s.timing.hSyncEnd
  | .hTotal => zext16 s.timing.hTotal
  | .vActive => zext16 s.timing.vActive
  | .vSyncStart => zext16 s.timing.vSyncStart
  | .vSyncEnd => zext16 s.timing.vSyncEnd
  | .vTotal => zext16 s.timing.vTotal
  | .timingFlags => s.timingFlags.setWidth 32
  | .pixelClockHz => s.pixelClockHz
  | .refreshHz => s.refreshHz
  | .ppc => s.params.ppc
  | .pkHActive => zext16 s.packed.hActive
  | .pkHFp => zext16 s.packed.hFp
  | .pkHSync => zext16 s.packed.hSync
  | .pkHBp => zext16 s.packed.hBp
  | .pkVActive => zext16 s.packed.vActive
  | .pkVFp => zext16 s.packed.vFp
  | .pkVSync => zext16 s.packed.vSync
  | .pkVBp => zext16 s.packed.vBp
  | .pkFlags => s.packed.flags.setWidth 32
  | .pkIter => s.packed.iter
  | .pkOrigBlank => s.packed.origBlank
  | .pkPackedBlank => s.packed.packedBlank
  | .vtcImg00 => s.vtcImage.w00
  | .vtcImg60 => s.vtcImage.w60
  | .vtcImg68 => s.vtcImage.w68
  | .vtcImg6C => s.vtcImage.w6C
  | .vtcImg70 => s.vtcImage.w70
  | .vtcImg74 => s.vtcImage.w74
  | .vtcImg78 => s.vtcImage.w78
  | .vtcImg7C => s.vtcImage.w7C
  | .vtcImg80 => s.vtcImage.w80
  | .vtcImg84 => s.vtcImage.w84
  | .vtcImg88 => s.vtcImage.w88
  | .vtcImg8C => s.vtcImage.w8C
  | .vtcImg90 => s.vtcImage.w90
  | .searchTargetHz => s.searchTargetHz
  | .toleranceHz => s.toleranceHz
  | .resD => s.resD.setWidth 32
  | .resM => s.resM.setWidth 32
  | .resO => s.resO.setWidth 32
  | .resAchievedHz => s.resAchievedHz
  | .resErrorHz => s.resErrorHz
  | .pllImgClk0L => s.pllImage.clk0L
  | .pllImgFbL => s.pllImage.fbL
  | .pllImgFbHClk0H => s.pllImage.fbHClk0H
  | .pllImgDiv => s.pllImage.div
  | .pllImgLockL => s.pllImage.lockL
  | .pllImgFltrLockH => s.pllImage.fltrLockH

/-- The word at an offset: a reserved offset reads 0 (R22). -/
def readOffset (off : Nat) (s : State) : Word :=
  match EngineReg.ofOffset off with
  | some r => r.read s
  | none => 0

/-- Storing one timing input, with the valid-bit effect of R54. -/
def State.setTiming (t : TimingInputs) (s : State) : State := ({ s with timing := t }).afterTimingWrite

/-- A host write of `v` to a register while `SEQ = Ready` (R100, R102, R103): CMD issues a command, a RW register takes
the word with its reserved bits dropped and the valid-bit effects of R54 and R55, a read-only register ignores it. -/
def EngineReg.write (r : EngineReg) (v : Word) (s : State) : State :=
  match r with
  | .cmd => { s with seq := .pending v }
  | .hActive => s.setTiming { s.timing with hActive := v.setWidth 16 }
  | .hSyncStart => s.setTiming { s.timing with hSyncStart := v.setWidth 16 }
  | .hSyncEnd => s.setTiming { s.timing with hSyncEnd := v.setWidth 16 }
  | .hTotal => s.setTiming { s.timing with hTotal := v.setWidth 16 }
  | .vActive => s.setTiming { s.timing with vActive := v.setWidth 16 }
  | .vSyncStart => s.setTiming { s.timing with vSyncStart := v.setWidth 16 }
  | .vSyncEnd => s.setTiming { s.timing with vSyncEnd := v.setWidth 16 }
  | .vTotal => s.setTiming { s.timing with vTotal := v.setWidth 16 }
  | .timingFlags => ({ s with timingFlags := v.setWidth 3 }).afterTimingWrite
  | .pixelClockHz => ({ s with pixelClockHz := v }).afterPixelClockWrite
  | .refreshHz => { s with refreshHz := v }
  | .searchTargetHz => ({ s with searchTargetHz := v }).afterTargetWrite
  | .toleranceHz => { s with toleranceHz := v }
  | .resD => ({ s with resD := v.setWidth 8 }).afterResultWrite
  | .resM => ({ s with resM := v.setWidth 8 }).afterResultWrite
  | .resO => ({ s with resO := v.setWidth 8 }).afterResultWrite
  | .status | .error | .ppc => s
  | .pkHActive | .pkHFp | .pkHSync | .pkHBp | .pkVActive | .pkVFp | .pkVSync | .pkVBp => s
  | .pkFlags | .pkIter | .pkOrigBlank | .pkPackedBlank => s
  | .vtcImg00 | .vtcImg60 | .vtcImg68 | .vtcImg6C | .vtcImg70 | .vtcImg74 | .vtcImg78 => s
  | .vtcImg7C | .vtcImg80 | .vtcImg84 | .vtcImg88 | .vtcImg8C | .vtcImg90 => s
  | .resAchievedHz | .resErrorHz => s
  | .pllImgClk0L | .pllImgFbL | .pllImgFbHClk0H | .pllImgDiv | .pllImgLockL | .pllImgFltrLockH => s

/-- A host write at an offset while `SEQ = Ready`: a reserved offset ignores it (R22, R103). -/
def writeOffset (off : Nat) (v : Word) (s : State) : State :=
  match EngineReg.ofOffset off with
  | some r => r.write v s
  | none => s

end Sys2Proof.Machine
end

