-- ==== Sys2Proof/Machine/Engine.lean ====
section
/-! DEFINITION. The engine's step (40_control.md R101): a pending word is decoded and executed, or a poll step is
made; and the host's reads that race with a command (20_memory.md R74). -/

namespace Sys2Proof.Machine

/-- Decoding and executing a pending word: an illegal one raises ILLEGAL_COMMAND with `w[7:0]` (R101, R221). -/
def runWord (w : Word) (s : State) : Host.Outcome State Fault Refusal :=
  match decodeWord w with
  | .ok i => exec i s
  | .error _ => .next (s.raise .illegalCommand (opcodeOf w))

/-- One step of the engine; in Ready it "does nothing until the host writes CMD" (R253). -/
def engineStep (s : State) : Host.Outcome State Fault Refusal :=
  match s.seq with
  | .ready => .next s
  | .pending w => runWord w s
  | .pollStart k => .next (pollStartStep k s)
  | .pollStop k => .next (pollStopStep k s)

/-! ## The host's reads during a command (20_memory.md R74; log 9) -/

/-- What an open race has of an engine step from `s` to `t`: if the step changed what its offset reads, the value it wrote
there is the value after the command. BUSY is no part of the race: it reads as during the command. -/
def HostRead.note (s t : State) (r : HostRead) : HostRead :=
  match r with
  | .got v => .got v
  | .raced off before after =>
    let new := readOffset off { t with seq := s.seq }
    .raced off before (if readOffset off s = new then after else new)

/-- The host's reads after an engine step from `s` to `t`: the races open in `s` take what the step wrote, and are settled
if the step has ended the command. -/
def State.closeReads (s t : State) : State :=
  let noted := t.hostReads.map (HostRead.note s t)
  { t with
    hostReads :=
      if !s.busy then t.hostReads
      else if t.busy then noted
      else HostRead.settle noted t.freeCount
    freeCount := if s.busy && !t.busy then t.freeCount + HostRead.openCount noted else t.freeCount }

/-- A turn of the engine: its step, and what the host's open reads have of it. -/
def engineTurn (s : State) : Host.Outcome State Fault Refusal :=
  match engineStep s with
  | .next t => .next (s.closeReads t)
  | .fault f => .fault f
  | .refused r => .refused r

end Sys2Proof.Machine
end

