-- ==== Sys2Proof/Machine/HostAccess.lean ====
section
/-! DEFINITION. The host's accesses to the engine window (40_control.md R100 to R105; 20_memory.md R64, R66, R74). -/

namespace Sys2Proof.Machine

/-- A host write to the engine window: dropped with BUSY_WRITE while a command is pending or executing (R104, R227). -/
def hostWrite (off : Nat) (v : Word) (s : State) : State :=
  if s.busy then s.recordError .busyWrite 0xFF else writeOffset off v s

/-- A host read (R105): the current value; during a command the current value too, in a race that is open until the command
ends (R74; log 9). -/
def hostRead (off : Nat) (s : State) : State :=
  let v := readOffset off s
  { s with hostReads := s.hostReads ++ [if s.busy then .raced off v v else .got v] }

/-- One host access (R64): only an aligned 32-bit word inside the 256-byte window is answered. -/
def hostAccess (a : HostAccess) (s : State) : Host.Outcome State Fault Refusal :=
  let off := (a.addr - s.params.engineBase).toNat
  if a.size ≠ .word then .refused .notWordAccess
  else if Config.engineWindowBytes ≤ off then .refused .outOfWindowAccess
  else if off % 4 ≠ 0 then .refused .misalignedAccess
  else
    match a.kind with
    | .write v => .next (hostWrite off v s)
    | .read => .next (hostRead off s)

/-- One round of the host's WAIT loop (30_encoding.md R86): read STATUS; while BUSY reads 1, the engine moves and the host
reads again. -/
def hostWait (s : State) : State :=
  let t := hostRead EngineReg.status.offset s
  if s.busy then { t with agenda := .engine :: .wait :: t.agenda } else t

end Sys2Proof.Machine
end

