-- ==== Sys2Proof/Machine/HostProgram.lean ====
section
/-! DEFINITION. Host programs (30_encoding.md R85, R86): the transactions WR, RD, CMD and the pseudo-instructions, as turns
of the agenda. The host's own control flow is out of scope (00_scope.md R7); only its WAIT loop is a turn. -/

namespace Sys2Proof.Machine

/-- The name of a register in a host program, "exactly the names of 10_state.md rule R21" and of R38 and R52 (R87). -/
def EngineReg.name (r : EngineReg) : String :=
  match r with
  | .cmd => "CMD"
  | .status => "STATUS"
  | .error => "ERROR"
  | .hActive => "H_ACTIVE"
  | .hSyncStart => "H_SYNC_START"
  | .hSyncEnd => "H_SYNC_END"
  | .hTotal => "H_TOTAL"
  | .vActive => "V_ACTIVE"
  | .vSyncStart => "V_SYNC_START"
  | .vSyncEnd => "V_SYNC_END"
  | .vTotal => "V_TOTAL"
  | .timingFlags => "TIMING_FLAGS"
  | .pixelClockHz => "PIXEL_CLOCK_HZ"
  | .refreshHz => "REFRESH_HZ"
  | .ppc => "PPC"
  | .pkHActive => "PK_H_ACTIVE"
  | .pkHFp => "PK_H_FP"
  | .pkHSync => "PK_H_SYNC"
  | .pkHBp => "PK_H_BP"
  | .pkVActive => "PK_V_ACTIVE"
  | .pkVFp => "PK_V_FP"
  | .pkVSync => "PK_V_SYNC"
  | .pkVBp => "PK_V_BP"
  | .pkFlags => "PK_FLAGS"
  | .pkIter => "PK_ITER"
  | .pkOrigBlank => "PK_ORIG_BLANK"
  | .pkPackedBlank => "PK_PACKED_BLANK"
  | .vtcImg00 => "VTC_IMG_00"
  | .vtcImg60 => "VTC_IMG_60"
  | .vtcImg68 => "VTC_IMG_68"
  | .vtcImg6C => "VTC_IMG_6C"
  | .vtcImg70 => "VTC_IMG_70"
  | .vtcImg74 => "VTC_IMG_74"
  | .vtcImg78 => "VTC_IMG_78"
  | .vtcImg7C => "VTC_IMG_7C"
  | .vtcImg80 => "VTC_IMG_80"
  | .vtcImg84 => "VTC_IMG_84"
  | .vtcImg88 => "VTC_IMG_88"
  | .vtcImg8C => "VTC_IMG_8C"
  | .vtcImg90 => "VTC_IMG_90"
  | .searchTargetHz => "SEARCH_TARGET_HZ"
  | .toleranceHz => "TOLERANCE_HZ"
  | .resD => "RES_D"
  | .resM => "RES_M"
  | .resO => "RES_O"
  | .resAchievedHz => "RES_ACHIEVED_HZ"
  | .resErrorHz => "RES_ERROR_HZ"
  | .pllImgClk0L => "PLL_IMG_CLK0_L"
  | .pllImgFbL => "PLL_IMG_FB_L"
  | .pllImgFbHClk0H => "PLL_IMG_FB_H_CLK0_H"
  | .pllImgDiv => "PLL_IMG_DIV"
  | .pllImgLockL => "PLL_IMG_LOCK_L"
  | .pllImgFltrLockH => "PLL_IMG_FLTR_LOCK_H"

/-- The register a name of a host program stands for; names are case-sensitive (R87). -/
def EngineReg.ofName (n : String) : Option EngineReg := EngineReg.all.find? (fun r => r.name == n)

/-- One line of a host program, or WAIT (R85, R86). -/
inductive HostOp where
  | wr (r : EngineReg) (v : Word)
  | rd (r : EngineReg)
  | cmd (i : Instr)
  | wait
deriving DecidableEq, Repr

/-- The turn of a line, for an engine at `base` (R85). -/
def HostOp.turn (base : Word) (h : HostOp) : Turn :=
  match h with
  | .wr r v => .host ⟨base + BitVec.ofNat 32 r.offset, .word, .write v⟩
  | .rd r => .host ⟨base + BitVec.ofNat 32 r.offset, .word, .read⟩
  | .cmd i => .host ⟨base + BitVec.ofNat 32 EngineReg.cmd.offset, .word, .write (encode i)⟩
  | .wait => .wait

/-- `RUN <MNEMONIC>`: `CMD <MNEMONIC>` then `WAIT` (R86). -/
def HostOp.run (i : Instr) : List HostOp := [.cmd i, .wait]

/-- `SET_TIMING ha, hss, hse, ht, va, vss, vse, vt, flags` (R86). -/
def HostOp.setTiming (ha hss hse ht va vss vse vt flags : Word) : List HostOp :=
  [ .wr .hActive ha, .wr .hSyncStart hss, .wr .hSyncEnd hse, .wr .hTotal ht,
    .wr .vActive va, .wr .vSyncStart vss, .wr .vSyncEnd vse, .wr .vTotal vt, .wr .timingFlags flags ]

/-- `MODESET_VTC` (R86, R142). -/
def HostOp.modesetVtc : List HostOp :=
  HostOp.run .derivePacked ++ HostOp.run .deriveVtc ++ HostOp.run .vtcWrite

/-- `PLL_SET` (R86, R204). -/
def HostOp.pllSet : List HostOp :=
  HostOp.run .clkPrescale ++ HostOp.run .pllSearch ++ HostOp.run .pllPack ++
  HostOp.run .pllStop ++ HostOp.run .pllWrite ++ HostOp.run .pllStart

/-- A host program as the agenda of an engine at `base`. -/
def HostOp.agenda (base : Word) (p : List HostOp) : List Turn := p.map (HostOp.turn base)

end Sys2Proof.Machine
end

