-- ==== Sys2Proof/Machine/Step.lean ====
section
/-! DEFINITION. One step of the machine: the turn at the head of the agenda, or the engine's when the agenda is empty. -/

namespace Sys2Proof.Machine

/-- One step. An engine whose parameters are invalid gets no step (60_exceptions.md R235). -/
def step (s : State) : Host.Outcome State Fault Refusal :=
  if s.params.valid then
    match s.agenda with
    | [] => engineTurn s
    | .engine :: rest => engineTurn { s with agenda := rest }
    | .host a :: rest => hostAccess a { s with agenda := rest }
    | .wait :: rest => .next (hostWait { s with agenda := rest })
    | .reset :: rest => .next (State.resetEvent { s with agenda := rest })
  else .refused .invalidInstance

/-- `s` with a command word accepted (`SEQ = Pending(w)`, R100) and the next turn the engine's, so that the very next step
decodes and runs it. -/
def State.withFetchWord (s : State) (nbits w : Nat) : State :=
  { s with seq := .pending (tableWord nbits w), agenda := .engine :: s.agenda }

end Sys2Proof.Machine
end

