-- ==== Sys2Proof/Safety.lean ====
section
/-! DEFINITION. What claims call a safe run (60_exceptions.md R232), and the invariants they use. -/

namespace Sys2Proof.Machine

/-- No model fault is recorded: "a run in which `FAULTS` is non-empty is never a successful run" (R232). -/
def State.successful (s : State) : Prop := s.faults = FaultSet.empty

/-- `k` steps from `s` all answer a next state, and no model fault is recorded at the end (faults are never cleared). -/
def SafeRun (k : Nat) (s : State) : Prop :=
  ∃ t, Host.Core.run core k s = .next t ∧ State.successful t

/-! ## The spec's own words for claims -/

/-- The next turn is the engine's (R101; the model's schedule). -/
def State.engineMoves (s : State) : Prop := s.agenda = [] ∨ ∃ rest, s.agenda = .engine :: rest

/-- The command words of R82, as the table writes them. -/
def commandWords : List (Word × Instr) :=
  [ (0x00000000, .nop), (0x00000001, .derivePacked), (0x00000002, .deriveVtc), (0x00000003, .vtcWrite),
    (0x00000004, .clkPrescale), (0x00000005, .pllSearch), (0x00000006, .pllPack), (0x00000007, .pllWrite),
    (0x00000008, .pllStart), (0x00000009, .pllStop), (0x0000000F, .clearError) ]

/-- A word R83 calls illegal: an OPCODE in 0x0A to 0x0E or 0x10 to 0xFF, or RSVD ≠ 0. -/
def IllegalWord (w : Word) : Prop :=
  (10 ≤ w.toNat % 256 ∧ w.toNat % 256 ≤ 14) ∨ (16 ≤ w.toNat % 256 ∧ w.toNat % 256 ≤ 255) ∨ w.toNat / 256 ≠ 0

/-! ## The engine register map, as the tables of 10_state.md write it (R21, R38, R52) -/

/-- The part of `engineWindowRows` for the control registers and timing inputs. -/
def engineWindowRowsInputs : List (Nat × EngineReg × String) :=
  [ (0x000, .cmd, "CMD"), (0x004, .status, "STATUS"), (0x008, .error, "ERROR"), (0x010, .hActive, "H_ACTIVE"),
    (0x014, .hSyncStart, "H_SYNC_START"), (0x018, .hSyncEnd, "H_SYNC_END"), (0x01C, .hTotal, "H_TOTAL"),
    (0x020, .vActive, "V_ACTIVE"), (0x024, .vSyncStart, "V_SYNC_START"), (0x028, .vSyncEnd, "V_SYNC_END"),
    (0x02C, .vTotal, "V_TOTAL"), (0x030, .timingFlags, "TIMING_FLAGS"),
    (0x034, .pixelClockHz, "PIXEL_CLOCK_HZ"), (0x038, .refreshHz, "REFRESH_HZ"), (0x03C, .ppc, "PPC") ]

/-- The part of `engineWindowRows` for the packed timing. -/
def engineWindowRowsPacked : List (Nat × EngineReg × String) :=
  [ (0x040, .pkHActive, "PK_H_ACTIVE"), (0x044, .pkHFp, "PK_H_FP"), (0x048, .pkHSync, "PK_H_SYNC"),
    (0x04C, .pkHBp, "PK_H_BP"), (0x050, .pkVActive, "PK_V_ACTIVE"), (0x054, .pkVFp, "PK_V_FP"),
    (0x058, .pkVSync, "PK_V_SYNC"), (0x05C, .pkVBp, "PK_V_BP"), (0x060, .pkFlags, "PK_FLAGS"),
    (0x064, .pkIter, "PK_ITER"), (0x068, .pkOrigBlank, "PK_ORIG_BLANK"),
    (0x06C, .pkPackedBlank, "PK_PACKED_BLANK") ]

/-- The part of `engineWindowRows` for the VTC image. -/
def engineWindowRowsVtc : List (Nat × EngineReg × String) :=
  [ (0x080, .vtcImg00, "VTC_IMG_00"), (0x084, .vtcImg60, "VTC_IMG_60"), (0x088, .vtcImg68, "VTC_IMG_68"),
    (0x08C, .vtcImg6C, "VTC_IMG_6C"), (0x090, .vtcImg70, "VTC_IMG_70"), (0x094, .vtcImg74, "VTC_IMG_74"),
    (0x098, .vtcImg78, "VTC_IMG_78"), (0x09C, .vtcImg7C, "VTC_IMG_7C"), (0x0A0, .vtcImg80, "VTC_IMG_80"),
    (0x0A4, .vtcImg84, "VTC_IMG_84"), (0x0A8, .vtcImg88, "VTC_IMG_88"), (0x0AC, .vtcImg8C, "VTC_IMG_8C"),
    (0x0B0, .vtcImg90, "VTC_IMG_90") ]

/-- The part of `engineWindowRows` for the search and PLL image. -/
def engineWindowRowsPll : List (Nat × EngineReg × String) :=
  [ (0x0C0, .searchTargetHz, "SEARCH_TARGET_HZ"), (0x0C4, .toleranceHz, "TOLERANCE_HZ"),
    (0x0C8, .resD, "RES_D"), (0x0CC, .resM, "RES_M"), (0x0D0, .resO, "RES_O"),
    (0x0D4, .resAchievedHz, "RES_ACHIEVED_HZ"), (0x0D8, .resErrorHz, "RES_ERROR_HZ"),
    (0x0E0, .pllImgClk0L, "PLL_IMG_CLK0_L"), (0x0E4, .pllImgFbL, "PLL_IMG_FB_L"),
    (0x0E8, .pllImgFbHClk0H, "PLL_IMG_FB_H_CLK0_H"), (0x0EC, .pllImgDiv, "PLL_IMG_DIV"),
    (0x0F0, .pllImgLockL, "PLL_IMG_LOCK_L"), (0x0F4, .pllImgFltrLockH, "PLL_IMG_FLTR_LOCK_H") ]

/-- The rows of R21, R38 and R52: offset, register, name. -/
def engineWindowRows : List (Nat × EngineReg × String) :=
  engineWindowRowsInputs ++ engineWindowRowsPacked ++ engineWindowRowsVtc ++ engineWindowRowsPll

/-- The part of `registerFields` for the control registers and timing inputs. -/
def registerFieldsInputs (s : State) : List (EngineReg × Word) :=
  [ (.cmd, 0), (.hActive, s.timing.hActive.setWidth 32), (.hSyncStart, s.timing.hSyncStart.setWidth 32),
    (.hSyncEnd, s.timing.hSyncEnd.setWidth 32), (.hTotal, s.timing.hTotal.setWidth 32),
    (.vActive, s.timing.vActive.setWidth 32), (.vSyncStart, s.timing.vSyncStart.setWidth 32),
    (.vSyncEnd, s.timing.vSyncEnd.setWidth 32), (.vTotal, s.timing.vTotal.setWidth 32),
    (.timingFlags, s.timingFlags.setWidth 32), (.pixelClockHz, s.pixelClockHz), (.refreshHz, s.refreshHz),
    (.ppc, s.params.ppc) ]

/-- The part of `registerFields` for the packed timing. -/
def registerFieldsPacked (s : State) : List (EngineReg × Word) :=
  [ (.pkHActive, s.packed.hActive.setWidth 32), (.pkHFp, s.packed.hFp.setWidth 32),
    (.pkHSync, s.packed.hSync.setWidth 32), (.pkHBp, s.packed.hBp.setWidth 32),
    (.pkVActive, s.packed.vActive.setWidth 32), (.pkVFp, s.packed.vFp.setWidth 32),
    (.pkVSync, s.packed.vSync.setWidth 32), (.pkVBp, s.packed.vBp.setWidth 32),
    (.pkFlags, s.packed.flags.setWidth 32), (.pkIter, s.packed.iter), (.pkOrigBlank, s.packed.origBlank),
    (.pkPackedBlank, s.packed.packedBlank) ]

/-- The part of `registerFields` for the VTC image. -/
def registerFieldsVtc (s : State) : List (EngineReg × Word) :=
  [ (.vtcImg00, s.vtcImage.w00), (.vtcImg60, s.vtcImage.w60), (.vtcImg68, s.vtcImage.w68),
    (.vtcImg6C, s.vtcImage.w6C), (.vtcImg70, s.vtcImage.w70), (.vtcImg74, s.vtcImage.w74),
    (.vtcImg78, s.vtcImage.w78), (.vtcImg7C, s.vtcImage.w7C), (.vtcImg80, s.vtcImage.w80),
    (.vtcImg84, s.vtcImage.w84), (.vtcImg88, s.vtcImage.w88), (.vtcImg8C, s.vtcImage.w8C),
    (.vtcImg90, s.vtcImage.w90) ]

/-- The part of `registerFields` for the search and PLL image. -/
def registerFieldsPll (s : State) : List (EngineReg × Word) :=
  [ (.searchTargetHz, s.searchTargetHz), (.toleranceHz, s.toleranceHz), (.resD, s.resD.setWidth 32),
    (.resM, s.resM.setWidth 32), (.resO, s.resO.setWidth 32), (.resAchievedHz, s.resAchievedHz),
    (.resErrorHz, s.resErrorHz), (.pllImgClk0L, s.pllImage.clk0L), (.pllImgFbL, s.pllImage.fbL),
    (.pllImgFbHClk0H, s.pllImage.fbHClk0H), (.pllImgDiv, s.pllImage.div), (.pllImgLockL, s.pllImage.lockL),
    (.pllImgFltrLockH, s.pllImage.fltrLockH) ]

/-- What each register but STATUS and ERROR holds, and so reads: its field, a narrower field under zeros (R26 to R37, R47 to
R52). -/
def registerFields (s : State) : List (EngineReg × Word) :=
  registerFieldsInputs s ++ registerFieldsPacked s ++ registerFieldsVtc s ++ registerFieldsPll s

/-- The timing inputs are valid, as R28 writes it. -/
def ValidTiming (t : TimingInputs) : Prop :=
  1 ≤ t.hActive.toNat ∧ 1 ≤ t.vActive.toNat ∧
  (t.hActive.toNat ≤ t.hSyncStart.toNat ∧ t.hSyncStart.toNat ≤ t.hSyncEnd.toNat ∧
    t.hSyncEnd.toNat ≤ t.hTotal.toNat) ∧
  (t.vActive.toNat ≤ t.vSyncStart.toNat ∧ t.vSyncStart.toNat ≤ t.vSyncEnd.toNat ∧
    t.vSyncEnd.toNat ≤ t.vTotal.toNat)

/-- The bits a RW register keeps of a host write, the rest being reserved (R102); `none` for CMD and the read-only
registers. -/
def EngineReg.keptBits (r : EngineReg) : Option Word :=
  if r ∈ [EngineReg.hActive, .hSyncStart, .hSyncEnd, .hTotal, .vActive, .vSyncStart, .vSyncEnd, .vTotal] then
    some 0xFFFF
  else if r = .timingFlags then some 0x7
  else if r ∈ [EngineReg.pixelClockHz, .refreshHz, .searchTargetHz, .toleranceHz] then some 0xFFFFFFFF
  else if r ∈ [EngineReg.resD, .resM, .resO] then some 0xFF
  else none

/-- A byte address outside the words of a device window at `base` with the given offsets. -/
def outsideWords (base : Word) (offs : List Word) (a : Nat) : Prop :=
  ∀ off ∈ offs, ∀ k : Nat, k < 4 → a ≠ (base + off + BitVec.ofNat 32 k).toNat

/-! ## The device windows (20_memory.md R61, R62, R79) -/

/-- The VTC offsets the engine writes (R62). -/
def vtcOffsets : List Word :=
  [0x00, 0x60, 0x68, 0x6C, 0x70, 0x74, 0x78, 0x7C, 0x80, 0x84, 0x88, 0x8C, 0x90]

/-- The PLL offsets the engine writes: CTRL and the six image words, never STATUS (R61). -/
def pllOffsets : List Word := [0x00, 0x08, 0x0C, 0x10, 0x14, 0x18, 0x1C]

/-- A device access the engine may make (R61, R62): CTRL bits [31:1] are written 0. -/
def DeviceEvent.legal (e : DeviceEvent) : Prop :=
  match e with
  | .vtcWrite off _ => off ∈ vtcOffsets
  | .pllWrite off v => off ∈ pllOffsets ∧ (off = 0x00 → v = 0 ∨ v = 1)
  | .pllRead off _ => off = 0x04

/-- The device memory after one more access: a read leaves it alone. -/
def DeviceEvent.apply (p : Params) (m : Memory) (e : DeviceEvent) : Memory :=
  match e with
  | .vtcWrite off v => m.writeWord (p.vtcBase + off) v
  | .pllWrite off v => m.writeWord (p.pllBase + off) v
  | .pllRead _ _ => m

/-- "The last value written at each offset" of an event history (R79), as bytes. -/
def replay (p : Params) (h : List DeviceEvent) : Memory := h.foldl (DeviceEvent.apply p) []

/-- The device memory is in canonical form, holds what the history wrote, and the history is legal. -/
structure DeviceInv (s : State) : Prop where
  wf : Memory.wf s.mem
  replays : s.mem = replay s.params s.history
  legal : ∀ e ∈ s.history, e.legal

/-! ## The valid bits (10_state.md R23) -/

/-- RES_D, RES_M and RES_O are in the ranges PLL_PACK checks (R177). -/
def State.tripleInRange (s : State) : Prop :=
  1 ≤ s.resM.toNat ∧ s.resM.toNat ≤ 64 ∧ 1 ≤ s.resD.toNat ∧ s.resD.toNat ≤ 106 ∧
    1 ≤ s.resO.toNat ∧ s.resO.toNat ≤ 128

/-- A valid bit means what R23 says: the image or packed timing it guards is that of the registers it was computed from
(for DERIVE_PACKED, when those are valid: R120). -/
structure FreshInv (s : State) : Prop where
  packed : s.packedValid = true → s.timing.valid = true →
    s.packed = packTiming s.params.ppc.toNat s.timing s.timingFlags
  vtcImage : s.vtcImgValid = true → s.vtcImage = deriveVtcImage s.params s.timing
  pllImage : s.pllImgValid = true → s.tripleInRange ∧
    s.pllImage = packImage s.params s.resD.toNat s.resM.toNat s.resO.toNat

/-! ## ERROR and the sequencer -/

/-- ERROR never holds the source's InvalidTiming (R228), holds opcode 0 when it holds no error (R25), and 0xFF
with BUSY_WRITE (R25, R227). -/
structure ErrorInv (s : State) : Prop where
  neverInvalidTiming : s.error.code ≠ .invalidTiming
  noErrorNoOpcode : s.error.code = .noError → s.error.opcode = 0
  busyWriteOpcode : s.error.code = .busyWrite → s.error.opcode = 0xFF

/-- Fewer than POLL_LIMIT STATUS reads have been made while a poll goes on (R196, R201). -/
def PollInv (s : State) : Prop :=
  match s.seq with
  | .ready => True
  | .pending _ => True
  | .pollStart k => k < s.params.pollLimit
  | .pollStop k => k < s.params.pollLimit

/-- No race is open among the host's reads while the engine is Ready: every busy read has been settled (R74, log 9). -/
def ReadsInv (s : State) : Prop := s.seq = .ready → ∀ r ∈ s.hostReads, ∃ v, r = .got v

end Sys2Proof.Machine
end

