-- ==== Sys2Proof/Certificates/Slice0/Obligations.lean ====
section
/-! DEFINITION. The statements about the model, for the provers: each `def Obligations.<Name> : Prop`. -/

open Sys2Proof Sys2Proof.Machine

/-! ## Encoding, decoding and the step -/

/-- R82: the words of the opcode map, written out, decode to their commands. -/
def Obligations.OpcodeMapWordsDecode : Prop :=
  decodeWord 0x00000000 = .ok .nop ∧ decodeWord 0x00000001 = .ok .derivePacked ∧
  decodeWord 0x00000002 = .ok .deriveVtc ∧ decodeWord 0x00000003 = .ok .vtcWrite ∧
  decodeWord 0x00000004 = .ok .clkPrescale ∧ decodeWord 0x00000005 = .ok .pllSearch ∧
  decodeWord 0x00000006 = .ok .pllPack ∧ decodeWord 0x00000007 = .ok .pllWrite ∧
  decodeWord 0x00000008 = .ok .pllStart ∧ decodeWord 0x00000009 = .ok .pllStop ∧
  decodeWord 0x0000000F = .ok .clearError

/-- R82, R84: a word decodes to the command of a row of R82 exactly when it is that row's word, and every other word is
rejected: decoding is total. -/
def Obligations.WordDecodesExactlyWhenItIsTheCommandWord : Prop :=
  (∀ (w : Word) (i : Instr), decodeWord w = .ok i ↔ (w, i) ∈ commandWords) ∧
  (∀ w : Word, (∀ i, (w, i) ∉ commandWords) → ∃ r, decodeWord w = .error r)

/-- Decode and encode agree on bytes, for every command and whatever follows it, in both directions. -/
def Obligations.BytesDecodeAndEncodeAgree : Prop :=
  (∀ (i : Instr) (rest : List Byte), decodeBytes (encodeBytes i ++ rest) = .ok (i, rest)) ∧
  (∀ (bs : List Byte) (i : Instr) (rest : List Byte),
    decodeBytes bs = .ok (i, rest) → bs = encodeBytes i ++ rest)

/-- R101: when the engine moves on a pending word that decodes to `i`, the step answers the next state of `exec i`, with the
host's open busy reads closed over it (R74, log 9); with none open the step is `exec i`. A word placed by `withFetchWord` is
run by the very next step. Whose turn it is, is the model's schedule (log 4). -/
def Obligations.StepRunsThePendingCommand : Prop :=
  (∀ (s : State) (w : Word) (i : Instr), s.params.valid = true → s.engineMoves → s.seq = .pending w →
    decodeWord w = .ok i →
    (∃ t, exec i { s with agenda := s.agenda.tail } = .next t ∧
      step s = .next (State.closeReads { s with agenda := s.agenda.tail } t)) ∧
    ((∀ r ∈ s.hostReads, ∃ v, r = .got v) → step s = exec i { s with agenda := s.agenda.tail })) ∧
  (∀ (s : State) (i : Instr), s.params.valid = true →
    ∃ t, exec i { s with seq := .pending (encode i) } = .next t ∧
      step (s.withFetchWord 32 (encode i).toNat) =
        .next (State.closeReads { s with seq := .pending (encode i) } t))

/-- R83, R221: the illegal words are those outside R82's table; a pending one raises ILLEGAL_COMMAND with `w[7:0]`, and
nothing but ERROR and SEQ changes (and the turn taken, log 4, and the host's open busy reads, log 9). -/
def Obligations.IllegalWordRaisesIllegalCommand : Prop :=
  (∀ w : Word, IllegalWord w ↔ ∀ i, (w, i) ∉ commandWords) ∧
  (∀ (s : State) (w : Word), s.params.valid = true → s.engineMoves → s.seq = .pending w → IllegalWord w →
    step s = .next (State.closeReads { s with agenda := s.agenda.tail } { s with
      agenda := s.agenda.tail
      seq := .ready
      error := if s.error.code = .noError then ⟨.illegalCommand, w.setWidth 8⟩ else s.error }))

/-- R253: in every Ready state, that after reset included, a turn of the engine (log 4) does nothing. That it is a step all
the same is the model's choice (log 26). -/
def Obligations.ReadyEngineDoesNothing : Prop :=
  ∀ s : State, s.params.valid = true → s.engineMoves → s.seq = .ready →
    step s = .next { s with agenda := s.agenda.tail }

/-! ## Control commands -/

/-- R107: NOP ends the command and changes nothing else. -/
def Obligations.NopOnlyEndsTheCommand : Prop :=
  ∀ s : State, exec .nop s = .next { s with seq := .ready }

/-- R108: CLEAR_ERROR empties ERROR (which then reads 0, and STATUS.ERR reads 0) and changes nothing else, FAULTS
included. -/
def Obligations.ClearErrorEmptiesTheErrorRegister : Prop :=
  ∀ s : State, ∃ t, exec .clearError s = .next t ∧
    t = { s with error := ⟨.noError, 0⟩, seq := .ready } ∧
    EngineReg.read .error t = 0 ∧ (EngineReg.read .status t).getLsbD 4 = false

/-! ## DERIVE_PACKED -/

/-- R120, R121, R125, R126: DERIVE_PACKED completes with the packed timing of valid inputs (blanking and iterations in
closed form, R123, R124), and nothing else changes. The invalid inputs are those of the next statement. -/
def Obligations.DerivePackedComputesThePackedTiming : Prop :=
  ∀ s : State, s.params.ppc ≠ 0 → ValidTiming s.timing →
    let n := s.params.ppc.toNat
    let ha := s.timing.hActive.toNat
    let hss := s.timing.hSyncStart.toNat
    let hse := s.timing.hSyncEnd.toNat
    let ht := s.timing.hTotal.toNat
    ∃ t, exec .derivePacked s = .next t ∧
      t = { s with packed := t.packed, packedValid := true, seq := .ready } ∧
      t.packed.hActive.toNat = ha / n ∧
      t.packed.hSync.toNat = (hse - hss) / n ∧
      t.packed.hBp.toNat = (ht - hse) / n ∧
      t.packed.iter.toNat = ((hss - ha) % n + (hse - hss) % n + (ht - hse) % n + (n - 1)) / n ∧
      t.packed.hFp.toNat = (hss - ha) / n + t.packed.iter.toNat ∧
      t.packed.origBlank.toNat = ht - ha ∧
      t.packed.packedBlank.toNat =
        (t.packed.hFp.toNat + t.packed.hBp.toNat + t.packed.hSync.toNat) * n ∧
      t.packed.vActive = s.timing.vActive ∧
      t.packed.vFp.toNat = s.timing.vSyncStart.toNat - s.timing.vActive.toNat ∧
      t.packed.vSync.toNat = s.timing.vSyncEnd.toNat - s.timing.vSyncStart.toNat ∧
      t.packed.vBp.toNat = s.timing.vTotal.toNat - s.timing.vSyncEnd.toNat ∧
      t.packed.flags.getLsbD 0 = !s.timingFlags.getLsbD 0 ∧
      t.packed.flags.getLsbD 1 = !s.timingFlags.getLsbD 1 ∧
      t.packed.flags.getLsbD 2 = s.timingFlags.getLsbD 2

/-- Log 7 (R120 and R233 leave the outputs and the completion open): with invalid timing inputs DERIVE_PACKED answers a next
state in which F_INVALID_TIMING is recorded, the packed timing is any value, and the command has either finished or is still
to be finished; nothing else changes but the count of drawn free values. -/
def Obligations.DerivePackedOfInvalidTimingChangesOnlyItsOutputs : Prop :=
  ∀ s : State, ¬ ValidTiming s.timing →
    ∃ t, exec .derivePacked s = .next t ∧
      t = { s with
        packed := t.packed
        packedValid := t.packedValid
        seq := t.seq
        faults := { s.faults with invalidTiming := true }
        freeCount := t.freeCount } ∧
      (t.seq = .ready ∧ t.packedValid = true ∨ t.seq = s.seq ∧ t.packedValid = s.packedValid)

/-- R123: at loop exit the packed blanking is the least multiple of N not below the original blanking, equal to it exactly
when N divides it. -/
def Obligations.PackedBlankingIsTheLeastMultiple : Prop :=
  ∀ s : State, s.params.ppc ≠ 0 → ValidTiming s.timing →
    ∃ t, exec .derivePacked s = .next t ∧
      let n := s.params.ppc.toNat
      let orig := t.packed.origBlank.toNat
      let pk := t.packed.packedBlank.toNat
      orig = s.timing.hTotal.toNat - s.timing.hActive.toNat ∧
      pk = n * ((orig + (n - 1)) / n) ∧ orig ≤ pk ∧ pk < orig + n ∧ (pk = orig ↔ orig % n = 0)

/-- R124: the number of iterations of the loop, and its bounds. -/
def Obligations.PackingLoopIterationBounds : Prop :=
  ∀ s : State, s.params.ppc ≠ 0 → ValidTiming s.timing →
    ∃ t, exec .derivePacked s = .next t ∧
      let n := s.params.ppc.toNat
      let r1 := (s.timing.hSyncStart.toNat - s.timing.hActive.toNat) % n
      let r2 := (s.timing.hSyncEnd.toNat - s.timing.hSyncStart.toNat) % n
      let r3 := (s.timing.hTotal.toNat - s.timing.hSyncEnd.toNat) % n
      let iter := t.packed.iter.toNat
      iter = (r1 + r2 + r3 + (n - 1)) / n ∧ iter ≤ n ∧ iter ≤ 3 ∧
      (n = 1 → iter = 0) ∧ (n = 2 ∨ n = 3 → iter ≤ 2) ∧
      (n = 2 → (iter = 2 ↔ r1 = 1 ∧ r2 = 1 ∧ r3 = 1)) ∧
      t.packed.hFp.toNat = (s.timing.hSyncStart.toNat - s.timing.hActive.toNat) / n + iter

/-! ## DERIVE_VTC and VTC_WRITE -/

/-- R130 (and R39 to R43): DERIVE_VTC computes the register image, under the default edge map as its pseudocode writes it;
invalid inputs add F_INVALID_TIMING and change no value; nothing else changes. -/
def Obligations.DeriveVtcComputesTheRegisterImage : Prop :=
  ∀ s : State,
    let ha := s.timing.hActive.setWidth 32
    let hss := s.timing.hSyncStart.setWidth 32
    let hse := s.timing.hSyncEnd.setWidth 32
    let ht := s.timing.hTotal.setWidth 32
    let va := s.timing.vActive.setWidth 32
    let vss := s.timing.vSyncStart.setWidth 32
    let vse := s.timing.vSyncEnd.setWidth 32
    let vt := s.timing.vTotal.setWidth 32
    ∃ t, exec .deriveVtc s = .next t ∧
      t = { s with vtcImage := t.vtcImage, vtcImgValid := true, faults := t.faults, seq := .ready } ∧
      (ValidTiming s.timing → t.faults = s.faults) ∧
      (¬ ValidTiming s.timing → t.faults = { s.faults with invalidTiming := true }) ∧
      t.vtcImage.w00 = 0x03F7EF06 ∧
      t.vtcImage.w60 = (va <<< 16) ||| ha ∧
      t.vtcImage.w68 = s.params.vtcC68 ∧
      t.vtcImage.w6C = s.params.vtcC6C ∧
      t.vtcImage.w70 = ht ∧
      t.vtcImage.w74 = (vt <<< 16) ||| vt ∧
      (s.params.edgeMap = defaultEdgeMap →
        t.vtcImage.w78 = (hse <<< 16) ||| hss ∧
        t.vtcImage.w7C = (ha <<< 16) ||| ha ∧
        t.vtcImage.w80 = (vse <<< 16) ||| vss ∧
        t.vtcImage.w84 = (hss <<< 16) ||| hss ∧
        t.vtcImage.w88 = (ha <<< 16) ||| ha ∧
        t.vtcImage.w8C = (vse <<< 16) ||| vss ∧
        t.vtcImage.w90 = (hss <<< 16) ||| hss)

/-- R44: under any edge map each pair register holds the edge `lo` in bits [15:0] and the edge `hi` in bits [31:16]. -/
def Obligations.EdgeMapFillsThePairRegisters : Prop :=
  ∀ s : State, ∃ t, exec .deriveVtc s = .next t ∧
    ∀ x ∈ [(t.vtcImage.w78, s.params.edgeMap.x78), (t.vtcImage.w7C, s.params.edgeMap.x7C),
        (t.vtcImage.w80, s.params.edgeMap.x80), (t.vtcImage.w84, s.params.edgeMap.x84),
        (t.vtcImage.w88, s.params.edgeMap.x88), (t.vtcImage.w8C, s.params.edgeMap.x8C),
        (t.vtcImage.w90, s.params.edgeMap.x90)],
      x.1.extractLsb' 0 16 = s.timing.edge x.2.lo ∧ x.1.extractLsb' 16 16 = s.timing.edge x.2.hi

/-- R46: the image is the same in two states with the same timing inputs, edge map and constants, whatever their flags,
clocks, refresh rate and PPC (or anything else). -/
def Obligations.VtcImageDependsOnlyOnTheTiming : Prop :=
  ∀ s s' : State, s.timing = s'.timing → s.params.edgeMap = s'.params.edgeMap →
    s.params.vtcC68 = s'.params.vtcC68 → s.params.vtcC6C = s'.params.vtcC6C →
    ∃ t t', exec .deriveVtc s = .next t ∧ exec .deriveVtc s' = .next t' ∧ t.vtcImage = t'.vtcImage

/-- R140, R72: with a valid image VTC_WRITE makes the 13 writes in order, the control register last; afterwards the VTC
window holds the image and no other byte has changed. Without one it raises NOT_READY and makes no device access. -/
def Obligations.VtcWriteProgramsTheVtcControlLast : Prop :=
  ∀ s : State,
    (s.vtcImgValid = true →
      ∃ t, exec .vtcWrite s = .next t ∧
        t = { s with history := t.history, mem := t.mem, seq := .ready } ∧
        t.history = s.history ++
          [ .vtcWrite 0x60 s.vtcImage.w60, .vtcWrite 0x68 s.vtcImage.w68, .vtcWrite 0x6C s.vtcImage.w6C,
            .vtcWrite 0x70 s.vtcImage.w70, .vtcWrite 0x74 s.vtcImage.w74, .vtcWrite 0x78 s.vtcImage.w78,
            .vtcWrite 0x7C s.vtcImage.w7C, .vtcWrite 0x80 s.vtcImage.w80, .vtcWrite 0x84 s.vtcImage.w84,
            .vtcWrite 0x88 s.vtcImage.w88, .vtcWrite 0x8C s.vtcImage.w8C, .vtcWrite 0x90 s.vtcImage.w90,
            .vtcWrite 0x00 s.vtcImage.w00 ] ∧
        (∀ x ∈ [ ((0x00 : Word), s.vtcImage.w00), (0x60, s.vtcImage.w60), (0x68, s.vtcImage.w68),
              (0x6C, s.vtcImage.w6C), (0x70, s.vtcImage.w70), (0x74, s.vtcImage.w74), (0x78, s.vtcImage.w78),
              (0x7C, s.vtcImage.w7C), (0x80, s.vtcImage.w80), (0x84, s.vtcImage.w84), (0x88, s.vtcImage.w88),
              (0x8C, s.vtcImage.w8C), (0x90, s.vtcImage.w90) ],
          t.mem.readWord (s.params.vtcBase + x.1) = some x.2) ∧
        ∀ a, outsideWords s.params.vtcBase
            [0x00, 0x60, 0x68, 0x6C, 0x70, 0x74, 0x78, 0x7C, 0x80, 0x84, 0x88, 0x8C, 0x90] a →
          t.mem.readByte a = s.mem.readByte a) ∧
    (s.vtcImgValid = false →
      exec .vtcWrite s = .next { s with
        seq := .ready
        error := if s.error.code = .noError then ⟨.notReady, 0x03⟩ else s.error })

/-! ## CLK_PRESCALE and PLL_SEARCH -/

/-- R160: CLK_PRESCALE stores five times the pixel clock, or raises DOMAIN_ERROR when that exceeds 32 bits, which is when
PIXEL_CLOCK_HZ > 858 993 459. -/
def Obligations.ClkPrescaleMultipliesByFive : Prop :=
  ∀ s : State,
    (5 * s.pixelClockHz.toNat ≤ 0xFFFFFFFF →
      ∃ t, exec .clkPrescale s = .next t ∧ t.searchTargetHz.toNat = 5 * s.pixelClockHz.toNat ∧
        t = { s with
          searchTargetHz := t.searchTargetHz
          targetValid := true
          searchValid := false
          seq := .ready }) ∧
    (0xFFFFFFFF < 5 * s.pixelClockHz.toNat →
      exec .clkPrescale s = .next { s with
        seq := .ready
        error := if s.error.code = .noError then ⟨.domainError, 0x04⟩ else s.error }) ∧
    (0xFFFFFFFF < 5 * s.pixelClockHz.toNat ↔ 858993459 < s.pixelClockHz.toNat)

/-- R163 to R168, R173: PLL_SEARCH refuses a target that is not valid or 0; otherwise it stores the first pair in
enumeration order whose error is least, with its output divider, frequency and error, and raises UNREACHABLE_FREQUENCY after
that when the error exceeds the tolerance. Nothing else changes. -/
def Obligations.PllSearchStoresTheFirstLeastError : Prop :=
  ∀ s : State,
    let T := s.searchTargetHz.toNat
    let inRange : Nat → Nat → Prop := fun d m =>
      1 ≤ d ∧ d ≤ 106 ∧ max 2 (6 * d) ≤ m ∧ m ≤ min 64 (12 * d)
    let outDivOf : Nat → Nat → Nat := fun d m =>
      min 128 (max 1 ((2 * 100000000 * m + d * T) / (2 * d * T)))
    let freqOf : Nat → Nat → Nat := fun d m => 100000000 * m / (d * outDivOf d m)
    let errOf : Nat → Nat → Nat := fun d m => (freqOf d m - T) + (T - freqOf d m)
    (s.targetValid = false →
      exec .pllSearch s = .next { s with
        seq := .ready
        error := if s.error.code = .noError then ⟨.notReady, 0x05⟩ else s.error }) ∧
    (s.targetValid = true → T = 0 →
      exec .pllSearch s = .next { s with
        seq := .ready
        error := if s.error.code = .noError then ⟨.domainError, 0x05⟩ else s.error }) ∧
    (s.targetValid = true → 1 ≤ T →
      ∃ D M t, inRange D M ∧
        (∀ d m, inRange d m → errOf D M ≤ errOf d m) ∧
        (∀ d m, inRange d m → d < D ∨ d = D ∧ m < M → errOf D M < errOf d m) ∧
        exec .pllSearch s = .next t ∧
        t.resD.toNat = D ∧ t.resM.toNat = M ∧ t.resO.toNat = outDivOf D M ∧
        t.resAchievedHz.toNat = freqOf D M ∧ t.resErrorHz.toNat = errOf D M ∧
        t = { s with
          resD := t.resD
          resM := t.resM
          resO := t.resO
          resAchievedHz := t.resAchievedHz
          resErrorHz := t.resErrorHz
          searchValid := true
          pllImgValid := false
          seq := .ready
          error :=
            if s.toleranceHz.toNat < errOf D M then
              (if s.error.code = .noError then ⟨.unreachableFrequency, 0x05⟩ else s.error)
            else s.error })

/-- R168: the enumerated pairs are those of the feasible ranges, 180 in all; none has D above 10; and the range of each
D in 1 to 10 is the table's. -/
def Obligations.SearchEnumeratesTheFeasiblePairs : Prop :=
  enumPairs.length = 180 ∧
  (∀ d m, (d, m) ∈ enumPairs ↔ 1 ≤ d ∧ d ≤ 106 ∧ max 2 (6 * d) ≤ m ∧ m ≤ min 64 (12 * d)) ∧
  (∀ d m, (d, m) ∈ enumPairs → d ≤ 10 ∧ 6 * d ≤ m ∧
    600000000 * d ≤ 100000000 * m ∧ 100000000 * m ≤ 1200000000 * d) ∧
  (∀ x ∈ [(1, 6, 12), (2, 12, 24), (3, 18, 36), (4, 24, 48), (5, 30, 60), (6, 36, 64), (7, 42, 64), (8, 48, 64),
      (9, 54, 64), (10, 60, 64)], ∀ m, (x.1, m) ∈ enumPairs ↔ x.2.1 ≤ m ∧ m ≤ x.2.2)

/-- R170: a target made from a triple of the search's ranges is found with error 0. -/
def Obligations.SearchRoundTripsToErrorZero : Prop :=
  ∀ (s : State) (d m o : Nat), 1 ≤ d → d ≤ 10 → max 2 (6 * d) ≤ m → m ≤ min 64 (12 * d) → 1 ≤ o → o ≤ 128 →
    s.targetValid = true → s.searchTargetHz.toNat = 100000000 * m / (d * o) →
    ∃ t, exec .pllSearch s = .next t ∧ t.resErrorHz = 0 ∧ t.error = s.error

/-- Corner targets (R172 (b), (c) and (f)): with the reset tolerance no search of a target at least 1 raises; above 2.4 GHz
the answer is (1, 12, 1) at 1.2 GHz; at most 4 669 260 Hz every candidate's output divider is 128, and the answer is
(1, 6, 128) at 4 687 500 Hz. -/
def Obligations.SearchOfExtremeTargets : Prop :=
  ∀ s : State, s.targetValid = true → s.toleranceHz = 0xFFFFFFFF →
    (1 ≤ s.searchTargetHz.toNat → ∃ t, exec .pllSearch s = .next t ∧ t.searchValid = true ∧ t.error = s.error) ∧
    (2400000000 < s.searchTargetHz.toNat →
      ∃ t, exec .pllSearch s = .next t ∧ t.resD = 1 ∧ t.resM = 12 ∧ t.resO = 1 ∧
        t.resAchievedHz = 1200000000 ∧ t.error = s.error) ∧
    (1 ≤ s.searchTargetHz.toNat → s.searchTargetHz.toNat ≤ 4669260 →
      (∀ p ∈ enumPairs, outDiv p.1 p.2 s.searchTargetHz.toNat = 128) ∧
      ∃ t, exec .pllSearch s = .next t ∧ t.resD = 1 ∧ t.resM = 6 ∧ t.resO = 128 ∧
        t.resAchievedHz = 4687500 ∧ t.error = s.error)

/-! ## PLL_PACK -/

/-- R175 to R179: PLL_PACK raises NOT_READY without a result; raises DOMAIN_ERROR, clears PLL_IMG_VALID and keeps the image
when M, D or O is out of range; and packs the triple otherwise. Nothing else changes. That NOT_READY keeps PLL_IMG_VALID is
the model's reading of R56 against R175, R177 and R222 (log 19); the positions of the lock and filter bits are the spec's
general knowledge (log 16); count words in another layout than the spec's are log 28. -/
def Obligations.PllPackBuildsTheRegisterImage : Prop :=
  ∀ s : State,
    let D := s.resD.toNat
    let M := s.resM.toNat
    let O := s.resO.toNat
    (s.searchValid = false →
      exec .pllPack s = .next { s with
        seq := .ready
        error := if s.error.code = .noError then ⟨.notReady, 0x06⟩ else s.error }) ∧
    (s.searchValid = true → ¬ ((1 ≤ M ∧ M ≤ 64) ∧ (1 ≤ D ∧ D ≤ 106) ∧ (1 ≤ O ∧ O ≤ 128)) →
      exec .pllPack s = .next { s with
        pllImgValid := false
        seq := .ready
        error := if s.error.code = .noError then ⟨.domainError, 0x06⟩ else s.error }) ∧
    (s.searchValid = true → (1 ≤ M ∧ M ≤ 64) → (1 ≤ D ∧ D ≤ 106) → (1 ≤ O ∧ O ≤ 128) →
      ∃ t, exec .pllPack s = .next t ∧
        t = { s with pllImage := t.pllImage, pllImgValid := true, seq := .ready } ∧
        t.pllImage.clk0L = countWord s.params.divider O ∧
        t.pllImage.fbL = countWord s.params.divider M ∧
        t.pllImage.fbHClk0H = 0 ∧
        (s.params.divWordSource = .inputDivider → t.pllImage.div = divWord s.params.divider D) ∧
        (s.params.divWordSource = .outputDivider → t.pllImage.div = divWord s.params.divider O) ∧
        (∀ h : M - 1 < 64,
          (∀ i, i < 32 → t.pllImage.lockL.getLsbD i = (s.params.lockLookup[M - 1]).getLsbD i) ∧
          (∀ i, i < 32 → t.pllImage.fltrLockH.getLsbD i =
            if i < 8 then (s.params.lockLookup[M - 1]).getLsbD (32 + i)
            else if 16 ≤ i ∧ i < 26 then (s.params.filterLookupLow[M - 1]).getLsbD (i - 16)
            else false)))

/-- R180, R182: the divider word of every d in [1, 128] in the default layout, as a number: the sentinel for 1, else the low
count in bits [5:0], the high count in bits [11:6] and the wedge of an odd d in bit 13. -/
def Obligations.DividerWordEncodesTheDutyCycle : Prop :=
  (divWord defaultDividerLayout 1).toNat = 0x1041 ∧
  ∀ d : Nat, 2 ≤ d → d ≤ 128 →
    (divWord defaultDividerLayout d).toNat =
      (d - d / 2) % 64 + 64 * (d / 2 % 64) + (if d % 2 = 1 then 8192 else 0)

/-- R181: the count word in the default layout keeps the 12-bit count field and moves bits 12 and 13 of the divider word to
bits 22 and 23. -/
def Obligations.CountWordRelocatesTheFlagBits : Prop :=
  ∀ d : Nat, countWord defaultDividerLayout d =
    (divWord defaultDividerLayout d &&& 0xFFF) ||| ((divWord defaultDividerLayout d <<< 10) &&& 0x00C00000)

/-- R185: PLL_PACK's image is the same in two states with the same result, SEARCH_VALID and tables (and the divider layout
and DIV_WORD_SOURCE of R176, R180 and R181, which are parameters here, log 1), whatever else they hold: PPC, POLL_LIMIT, the
bases and every other parameter included. -/
def Obligations.PackReadsOnlyTheTripleAndTheTables : Prop :=
  ∀ s s' : State, s.params.lockLookup = s'.params.lockLookup →
    s.params.filterLookupLow = s'.params.filterLookupLow → s.params.divider = s'.params.divider →
    s.params.divWordSource = s'.params.divWordSource → s.resD = s'.resD → s.resM = s'.resM → s.resO = s'.resO →
    s.searchValid = true → s'.searchValid = true →
    ∃ t t', exec .pllPack s = .next t ∧ exec .pllPack s' = .next t' ∧ t.pllImgValid = t'.pllImgValid ∧
      (t.pllImgValid = true → t.pllImage = t'.pllImage)

/-! ## PLL_WRITE, PLL_START, PLL_STOP -/

/-- R190, R73, R192: with a valid image PLL_WRITE makes the six writes in order, CTRL not among them, and moves Idle to
Configured; outside Idle F_PLL_SEQUENCE is recorded and PLL_STATE kept. Without one it raises NOT_READY and makes no device
access. -/
def Obligations.PllWriteProgramsThePll : Prop :=
  ∀ s : State,
    (s.pllImgValid = true →
      ∃ t, exec .pllWrite s = .next t ∧
        t = { s with
          history := t.history
          mem := t.mem
          faults := if s.pllState = .idle then s.faults else { s.faults with pllSequence := true }
          pllState := if s.pllState = .idle then .configured else s.pllState
          seq := .ready } ∧
        t.history = s.history ++
          [ .pllWrite 0x08 s.pllImage.clk0L, .pllWrite 0x0C s.pllImage.fbL, .pllWrite 0x10 s.pllImage.fbHClk0H,
            .pllWrite 0x14 s.pllImage.div, .pllWrite 0x18 s.pllImage.lockL, .pllWrite 0x1C s.pllImage.fltrLockH ] ∧
        (∀ x ∈ [ ((0x08 : Word), s.pllImage.clk0L), (0x0C, s.pllImage.fbL), (0x10, s.pllImage.fbHClk0H),
              (0x14, s.pllImage.div), (0x18, s.pllImage.lockL), (0x1C, s.pllImage.fltrLockH) ],
          t.mem.readWord (s.params.pllBase + x.1) = some x.2) ∧
        ∀ a, outsideWords s.params.pllBase [0x08, 0x0C, 0x10, 0x14, 0x18, 0x1C] a →
          t.mem.readByte a = s.mem.readByte a) ∧
    (s.pllImgValid = false →
      exec .pllWrite s = .next { s with
        seq := .ready
        error := if s.error.code = .noError then ⟨.notReady, 0x07⟩ else s.error })

/-- R195: PLL_START writes 1 to CTRL, starts polling, and records F_PLL_SEQUENCE outside Configured; no other byte and no
other state changes. -/
def Obligations.PllStartWritesCtrlAndBeginsPolling : Prop :=
  ∀ s : State, ∃ t, exec .pllStart s = .next t ∧
    t = { s with
      history := s.history ++ [.pllWrite 0x00 0x00000001]
      mem := t.mem
      faults := if s.pllState = .configured then s.faults else { s.faults with pllSequence := true }
      seq := .pollStart 0 } ∧
    t.mem.readWord s.params.pllBase = some 0x00000001 ∧
    ∀ a, outsideWords s.params.pllBase [0x00] a → t.mem.readByte a = s.mem.readByte a

/-- R200: PLL_STOP writes 0 to CTRL and starts polling, in every PLL state; no other byte and no other state changes. -/
def Obligations.PllStopClearsCtrlAndBeginsPolling : Prop :=
  ∀ s : State, ∃ t, exec .pllStop s = .next t ∧
    t = { s with
      history := s.history ++ [.pllWrite 0x00 0x00000000]
      mem := t.mem
      seq := .pollStop 0 } ∧
    t.mem.readWord s.params.pllBase = some 0x00000000 ∧
    ∀ a, outsideWords s.params.pllBase [0x00] a → t.mem.readByte a = s.mem.readByte a

/-- R196: one poll step of PLL_START reads STATUS once and, by bit 0 of the device's answer and the count of reads, ends in
Running, times out with CTRL written 0, or polls on. The answer is the device's, whatever it is, and is used up or
counted as a draw (log 5); the turn is the
engine's (log 4); the host's open busy reads are closed over the step (log 9). -/
def Obligations.PollStartStepFollowsTheStatusBit : Prop :=
  ∀ (s : State) (k : Nat), s.params.valid = true → s.engineMoves → s.seq = .pollStart k →
    let w := s.pllAnswer
    let n := if s.pllAnswers = [] then s.freeCount + 1 else s.freeCount
    (w.getLsbD 0 = true →
      step s = .next (State.closeReads { s with agenda := s.agenda.tail } { s with
        agenda := s.agenda.tail
        history := s.history ++ [.pllRead 0x04 w]
        pllAnswers := s.pllAnswers.tail
        freeCount := n
        pllState := .running
        seq := .ready })) ∧
    (w.getLsbD 0 = false → k + 1 < s.params.pollLimit →
      step s = .next (State.closeReads { s with agenda := s.agenda.tail } { s with
        agenda := s.agenda.tail
        history := s.history ++ [.pllRead 0x04 w]
        pllAnswers := s.pllAnswers.tail
        freeCount := n
        seq := .pollStart (k + 1) })) ∧
    (w.getLsbD 0 = false → s.params.pollLimit ≤ k + 1 →
      ∃ t, step s = .next (State.closeReads { s with agenda := s.agenda.tail } t) ∧
        t = { s with
          agenda := s.agenda.tail
          history := s.history ++ [.pllRead 0x04 w, .pllWrite 0x00 0x00000000]
          mem := t.mem
          pllAnswers := s.pllAnswers.tail
          freeCount := n
          pllState := .idle
          seq := .ready
          error := if s.error.code = .noError then ⟨.hardwareTimeout, 0x08⟩ else s.error } ∧
        t.mem.readWord s.params.pllBase = some 0x00000000 ∧
        ∀ a, outsideWords s.params.pllBase [0x00] a → t.mem.readByte a = s.mem.readByte a)

/-- R201: one poll step of PLL_STOP reads STATUS once and, by bit 0 of the device's answer and the count of reads, ends in
Idle, times out in Idle, or polls on (the answer, used up or counted as a draw: log 5; the turn: log 4; the host's open
busy reads: log 9). -/
def Obligations.PollStopStepFollowsTheStatusBit : Prop :=
  ∀ (s : State) (k : Nat), s.params.valid = true → s.engineMoves → s.seq = .pollStop k →
    let w := s.pllAnswer
    let n := if s.pllAnswers = [] then s.freeCount + 1 else s.freeCount
    (w.getLsbD 0 = false →
      step s = .next (State.closeReads { s with agenda := s.agenda.tail } { s with
        agenda := s.agenda.tail
        history := s.history ++ [.pllRead 0x04 w]
        pllAnswers := s.pllAnswers.tail
        freeCount := n
        pllState := .idle
        seq := .ready })) ∧
    (w.getLsbD 0 = true → k + 1 < s.params.pollLimit →
      step s = .next (State.closeReads { s with agenda := s.agenda.tail } { s with
        agenda := s.agenda.tail
        history := s.history ++ [.pllRead 0x04 w]
        pllAnswers := s.pllAnswers.tail
        freeCount := n
        seq := .pollStop (k + 1) })) ∧
    (w.getLsbD 0 = true → s.params.pollLimit ≤ k + 1 →
      step s = .next (State.closeReads { s with agenda := s.agenda.tail } { s with
        agenda := s.agenda.tail
        history := s.history ++ [.pllRead 0x04 w]
        pllAnswers := s.pllAnswers.tail
        freeCount := n
        pllState := .idle
        seq := .ready
        error := if s.error.code = .noError then ⟨.hardwareTimeout, 0x09⟩ else s.error }))

/-- R196, R205: the whole poll of PLL_START, alone (an empty agenda, log 4): it ends in Running right after the first answer with bit 0 set, if that
is among the first POLL_LIMIT; when none of these is, it times out with PLL_STATE Idle and CTRL written 0. The history
holds every read. -/
def Obligations.StartPollRunsToRunningOrTimesOut : Prop :=
  ∀ (s : State) (ws rest : List Word), s.params.valid = true → s.agenda = [] → s.seq = .pollStart 0 →
    (∀ w ∈ ws, w.getLsbD 0 = false) →
    (∀ w, w.getLsbD 0 = true → ws.length < s.params.pollLimit → s.pllAnswers = ws ++ w :: rest →
      ∃ t, Host.Core.run core (ws.length + 1) s = .next t ∧ t.seq = .ready ∧ t.pllState = .running ∧
        t.error = s.error ∧ t.faults = s.faults ∧ t.mem = s.mem ∧ t.pllAnswers = rest ∧
        t.history = s.history ++ ws.map (DeviceEvent.pllRead 0x04) ++ [.pllRead 0x04 w]) ∧
    (ws.length = s.params.pollLimit → s.pllAnswers = ws ++ rest →
      ∃ t, Host.Core.run core ws.length s = .next t ∧ t.seq = .ready ∧ t.pllState = .idle ∧
        (s.error.code = .noError → t.error = ⟨.hardwareTimeout, 0x08⟩) ∧
        t.mem.readWord s.params.pllBase = some 0 ∧ t.pllAnswers = rest ∧
        t.history = s.history ++ ws.map (DeviceEvent.pllRead 0x04) ++ [.pllWrite 0x00 0x00000000])

/-- R236: from any pending word but DERIVE_PACKED with invalid timing inputs, with nobody else moving (an empty agenda, log
4) and whatever the PLL device answers (log 5), the engine is Ready again after one step, or for PLL_START and PLL_STOP after one step and at most POLL_LIMIT
poll steps, all of which answer a next state. -/
def Obligations.EveryCommandEndsWithinThePollLimit : Prop :=
  ∀ (s : State) (w : Word), s.params.valid = true → s.agenda = [] → s.seq = .pending w →
    (w = 0x00000001 → ValidTiming s.timing) →
    (w ≠ 0x00000008 → w ≠ 0x00000009 → ∃ t, step s = .next t ∧ t.seq = .ready) ∧
    (w = 0x00000008 ∨ w = 0x00000009 →
      ∃ n t, n ≤ s.params.pollLimit ∧ Host.Core.run core (1 + n) s = .next t ∧ t.seq = .ready)

/-! ## Rules of the whole engine -/

/-- R109: whatever ERROR holds, every command does the same to everything but ERROR. -/
def Obligations.CommandsRunWhateverErrorHolds : Prop :=
  ∀ (i : Instr) (s : State) (e : ErrorReg), ∃ t t', exec i s = .next t ∧ exec i { s with error := e } = .next t' ∧
    { t with error := s.error } = { t' with error := s.error }

/-- R31: REFRESH_HZ is read by no command and has no effect on any output. -/
def Obligations.RefreshHzHasNoEffect : Prop :=
  ∀ (i : Instr) (s : State) (v : Word), ∃ t, exec i s = .next t ∧
    exec i { s with refreshHz := v } = .next { t with refreshHz := v }

/-- R25, R226: a recorded error stays until CLEAR_ERROR or reset. -/
def Obligations.FirstErrorIsKept : Prop :=
  ∀ s t : State, step s = .next t → s.error.code ≠ .noError →
    t.error = s.error ∨ s.seq = .pending 0x0000000F ∨ ∃ rest, s.agenda = .reset :: rest

/-- R232: no step clears a model fault, a reset and CLEAR_ERROR included. -/
def Obligations.ModelFaultsAreNeverCleared : Prop :=
  ∀ s t : State, step s = .next t →
    (s.faults.invalidTiming = true → t.faults.invalidTiming = true) ∧
    (s.faults.pllSequence = true → t.faults.pllSequence = true)

/-- R233, R234: which commands record which model fault, and when. -/
def Obligations.ModelFaultsAreSetExactlyWhereStated : Prop :=
  ∀ (i : Instr) (s : State), ∃ t, exec i s = .next t ∧
    (t.faults.invalidTiming = true ↔ s.faults.invalidTiming = true ∨
      (i = .derivePacked ∨ i = .deriveVtc) ∧ ¬ ValidTiming s.timing) ∧
    (t.faults.pllSequence = true ↔ s.faults.pllSequence = true ∨
      (i = .pllWrite ∧ s.pllImgValid = true ∧ s.pllState ≠ .idle) ∨
      (i = .pllStart ∧ s.pllState ≠ .configured))

/-- R24, R203: PLL_STATE changes only in a PLL_WRITE from Idle, in a poll step, or by reset. -/
def Obligations.PllStateChangesOnlyWhereStated : Prop :=
  ∀ s t : State, step s = .next t → t.pllState ≠ s.pllState →
    (s.seq = .pending 0x00000007 ∧ s.pllImgValid = true ∧ s.pllState = .idle ∧ t.pllState = .configured) ∨
    (∃ k, s.seq = .pollStart k ∧ (t.pllState = .running ∨ t.pllState = .idle)) ∨
    (∃ k, s.seq = .pollStop k ∧ t.pllState = .idle) ∨
    (∃ rest, s.agenda = .reset :: rest ∧ t.pllState = .idle)

/-- R33 to R37, R50, R51: a command writes only the registers its rule lists: no command changes an input of the host, the
parameters or what the other agents hold of the schedule; each result register has one command that writes it. -/
def Obligations.EachRegisterHasItsOwnWriter : Prop :=
  ∀ (i : Instr) (s : State), ∃ t, exec i s = .next t ∧
    t.params = s.params ∧ t.timing = s.timing ∧ t.timingFlags = s.timingFlags ∧
    t.pixelClockHz = s.pixelClockHz ∧ t.refreshHz = s.refreshHz ∧ t.toleranceHz = s.toleranceHz ∧
    t.agenda = s.agenda ∧ t.hostReads = s.hostReads ∧ t.pllAnswers = s.pllAnswers ∧
    (i ≠ .derivePacked → t.packed = s.packed ∧ t.freeCount = s.freeCount) ∧
    (i ≠ .deriveVtc → t.vtcImage = s.vtcImage) ∧
    (i ≠ .clkPrescale → t.searchTargetHz = s.searchTargetHz) ∧
    (i ≠ .pllSearch → t.resD = s.resD ∧ t.resM = s.resM ∧ t.resO = s.resO ∧
      t.resAchievedHz = s.resAchievedHz ∧ t.resErrorHz = s.resErrorHz) ∧
    (i ≠ .pllPack → t.pllImage = s.pllImage) ∧
    (i ≠ .vtcWrite → i ≠ .pllWrite → i ≠ .pllStart → i ≠ .pllStop → t.history = s.history ∧ t.mem = s.mem)

/-- R56: in any step a valid bit goes from 0 to 1 only by the command that computes what it guards, or by a host write (of
SEARCH_TARGET_HZ for TARGET_VALID, of RES_D, RES_M or RES_O for SEARCH_VALID). -/
def Obligations.ValidBitsAreSetOnlyByTheirWriters : Prop :=
  ∀ s t : State, step s = .next t →
    (t.packedValid = true → s.packedValid = true ∨ s.seq = .pending 0x00000001) ∧
    (t.vtcImgValid = true → s.vtcImgValid = true ∨ s.seq = .pending 0x00000002) ∧
    (t.targetValid = true → s.targetValid = true ∨ s.seq = .pending 0x00000004 ∨
      ∃ a rest v, s.agenda = .host a :: rest ∧ a.kind = .write v ∧ (a.addr - s.params.engineBase).toNat = 0x0C0) ∧
    (t.searchValid = true → s.searchValid = true ∨ s.seq = .pending 0x00000005 ∨
      ∃ a rest v, s.agenda = .host a :: rest ∧ a.kind = .write v ∧
        ((a.addr - s.params.engineBase).toNat = 0x0C8 ∨ (a.addr - s.params.engineBase).toNat = 0x0CC ∨
          (a.addr - s.params.engineBase).toNat = 0x0D0)) ∧
    (t.pllImgValid = true → s.pllImgValid = true ∨ s.seq = .pending 0x00000006)

/-- R71, R79, R253: a step only appends to the event history, and never changes the parameters. -/
def Obligations.HistoryGrowsAndParametersStay : Prop :=
  ∀ s t : State, step s = .next t → s.history <+: t.history ∧ t.params = s.params

/-! ## Host accesses -/

/-- The maps of R21, R38 and R52, row by row: at each offset the register of the row, under the row's name (R87), and no
register at any other offset. -/
def Obligations.EngineWindowMap : Prop :=
  (∀ (off : Nat) (r : EngineReg), EngineReg.ofOffset off = some r ↔ (off, r, r.name) ∈ engineWindowRows) ∧
  (∀ (off : Nat) (r : EngineReg) (n : String), (off, r, n) ∈ engineWindowRows →
    r.offset = off ∧ EngineReg.ofName n = some r) ∧
  (∀ off ∈ [0x00C, 0x070, 0x074, 0x078, 0x07C, 0x0B4, 0x0B8, 0x0BC, 0x0DC, 0x0F8, 0x0FC],
    EngineReg.ofOffset off = none)

/-- R100: a host write of `w` to CMD with the engine Ready makes `w` pending and changes nothing else; with the engine busy it
is dropped as R104 says. -/
def Obligations.HostWriteToCmdIssuesTheCommand : Prop :=
  ∀ (s : State) (w : Word) (rest : List Turn), s.params.valid = true →
    s.agenda = .host ⟨s.params.engineBase, .word, .write w⟩ :: rest →
    (s.seq = .ready → step s = .next { s with seq := .pending w, agenda := rest }) ∧
    (s.seq ≠ .ready → step s = .next { s with
      agenda := rest
      error := if s.error.code = .noError then ⟨.busyWrite, 0xFF⟩ else s.error })

/-- R102, R54, R55: a host write to a RW register, with the engine Ready: the register takes the word with its reserved bits
forced to 0; every other register but STATUS reads as before; the five valid bits change as R54 and R55 say; nothing else
changes but the turn taken. -/
def Obligations.HostWriteStoresTheKeptBits : Prop :=
  ∀ (s : State) (r : EngineReg) (mask v : Word) (rest : List Turn), s.params.valid = true → s.seq = .ready →
    r.keptBits = some mask →
    s.agenda = .host ⟨s.params.engineBase + BitVec.ofNat 32 r.offset, .word, .write v⟩ :: rest →
    ∃ t, step s = .next t ∧ r.read t = v &&& mask ∧
      (∀ r', r' ≠ r → r' ≠ .status → r'.read t = r'.read s) ∧
      ((t.packedValid, t.vtcImgValid, t.targetValid, t.searchValid, t.pllImgValid) =
        if r.offset < 0x034 then (false, false, s.targetValid, s.searchValid, s.pllImgValid)
        else if r = .pixelClockHz then (s.packedValid, s.vtcImgValid, false, s.searchValid, s.pllImgValid)
        else if r = .searchTargetHz then (s.packedValid, s.vtcImgValid, true, false, s.pllImgValid)
        else if r = .resD ∨ r = .resM ∨ r = .resO then (s.packedValid, s.vtcImgValid, s.targetValid, true, false)
        else (s.packedValid, s.vtcImgValid, s.targetValid, s.searchValid, s.pllImgValid)) ∧
      t.seq = .ready ∧ t.pllState = s.pllState ∧ t.error = s.error ∧ t.faults = s.faults ∧
      t.history = s.history ∧ t.mem = s.mem ∧ t.agenda = rest ∧ t.params = s.params ∧
      t.pllAnswers = s.pllAnswers ∧ t.freeCount = s.freeCount ∧ t.hostReads = s.hostReads

/-- R103, R22: a host write, with the engine Ready, to a read-only register or a reserved offset changes nothing. -/
def Obligations.HostWriteToReadOnlyIsIgnored : Prop :=
  ∀ (s : State) (off : Nat) (v : Word) (rest : List Turn), s.params.valid = true → s.seq = .ready →
    off < 256 → off % 4 = 0 → off ≠ 0 → (∀ r, EngineReg.ofOffset off = some r → r.keptBits = none) →
    s.agenda = .host ⟨s.params.engineBase + BitVec.ofNat 32 off, .word, .write v⟩ :: rest →
    step s = .next { s with agenda := rest }

/-- R104, R227: a host write to any offset while BUSY reads 1 is dropped and raises BUSY_WRITE with opcode 0xFF; the command
in progress is not affected. -/
def Obligations.HostWriteWhileBusyIsDropped : Prop :=
  ∀ (s : State) (off : Nat) (v : Word) (rest : List Turn), s.params.valid = true → s.seq ≠ .ready →
    off < 256 → off % 4 = 0 →
    s.agenda = .host ⟨s.params.engineBase + BitVec.ofNat 32 off, .word, .write v⟩ :: rest →
    step s = .next { s with
      agenda := rest
      error := if s.error.code = .noError then ⟨.busyWrite, 0xFF⟩ else s.error }

/-- R105, R66: a host read with the engine Ready returns the current value (0 at CMD and at reserved offsets) and changes
nothing. Every register but STATUS and ERROR (R23 and R25, which have statements of their own) reads the field it holds, a
narrower field under zeros (R26 to R37, R47 to R52). -/
def Obligations.HostReadReturnsTheCurrentValue : Prop :=
  (∀ (s : State) (off : Nat) (rest : List Turn), s.params.valid = true → s.seq = .ready → off < 256 → off % 4 = 0 →
    s.agenda = .host ⟨s.params.engineBase + BitVec.ofNat 32 off, .word, .read⟩ :: rest →
    ∃ v, step s = .next { s with agenda := rest, hostReads := s.hostReads ++ [.got v] } ∧
      (∀ r, EngineReg.ofOffset off = some r → v = r.read s) ∧
      (off = 0 ∨ EngineReg.ofOffset off = none → v = 0)) ∧
  (∀ (s : State) (r : EngineReg), r ≠ .status → r ≠ .error → (r, r.read s) ∈ registerFields s) ∧
  (∀ (s : State) (r : EngineReg) (v : Word), (r, v) ∈ registerFields s → r.read s = v)

/-- R74, as log 9 models the race: a host read while a command is pending or executing opens a race from the value now (BUSY
reading 1) and changes nothing of the engine; in each engine step an open race takes the value that the step wrote at its
offset, if it changed it; when the step ends the command the read is settled to the value before or to the value the
command wrote; a read that is not in a race stays as it is. -/
def Obligations.BusyReadReturnsBeforeOrAfter : Prop :=
  (∀ (s : State) (off : Nat) (rest : List Turn), s.params.valid = true → s.seq ≠ .ready → off < 256 → off % 4 = 0 →
    s.agenda = .host ⟨s.params.engineBase + BitVec.ofNat 32 off, .word, .read⟩ :: rest →
    step s = .next { s with
      agenda := rest
      hostReads := s.hostReads ++ [.raced off (readOffset off s) (readOffset off s)] } ∧
    (off = 0x004 → (readOffset off s).getLsbD 0 = true)) ∧
  (∀ s t : State, s.engineMoves → s.seq ≠ .ready → step s = .next t →
    t.hostReads.length = s.hostReads.length ∧
    (∀ (i : Nat) (v : Word), s.hostReads[i]? = some (.got v) → t.hostReads[i]? = some (.got v)) ∧
    ∀ (i off : Nat) (before after : Word), s.hostReads[i]? = some (.raced off before after) →
      let new := readOffset off { t with seq := s.seq }
      let written := if readOffset off s = new then after else new
      (t.seq ≠ .ready → t.hostReads[i]? = some (.raced off before written)) ∧
      (t.seq = .ready → t.hostReads[i]? = some (.got before) ∨ t.hostReads[i]? = some (.got written)))

/-- R86: a turn of the host's WAIT loop (log 10) reads STATUS once and changes nothing of the engine; while BUSY reads 1 it
puts a turn of the engine and itself back at the head of the agenda, and when BUSY reads 0 it is over. -/
def Obligations.WaitReadsStatusUntilBusyReadsZero : Prop :=
  ∀ (s : State) (rest : List Turn), s.params.valid = true → s.agenda = .wait :: rest →
    let v := EngineReg.read .status s
    (v.getLsbD 0 = true → step s = .next { s with
      agenda := .engine :: .wait :: rest
      hostReads := s.hostReads ++ [.raced 0x004 v v] }) ∧
    (v.getLsbD 0 = false → step s = .next { s with
      agenda := rest
      hostReads := s.hostReads ++ [.got v] }) ∧
    (v.getLsbD 0 = true ↔ s.seq ≠ .ready)

/-- R64, R235: a host access that is not 32 bits wide, lies outside the window or is misaligned gets no step. -/
def Obligations.BadHostAccessIsRefused : Prop :=
  ∀ (s : State) (a : HostAccess) (rest : List Turn), s.params.valid = true → s.agenda = .host a :: rest →
    (a.size ≠ .word ∨ 256 ≤ (a.addr - s.params.engineBase).toNat ∨
      (a.addr - s.params.engineBase).toNat % 4 ≠ 0 ↔ ∃ r, step s = .refused r)

/-- The model's reading of R10, R60, R69 and R235 (log 14): an engine with invalid parameters gets no step, and parameters
are valid exactly when PPC and POLL_LIMIT are at least 1, the bases are word-aligned and no two windows share an address.
R235 lists PPC = 0, POLL_LIMIT = 0 and overlapping windows. The model's own, by log 14: the unaligned base (R10 gives the
bases that domain, R235 does not list it), the sizes 148 and 32 bytes (0x94 and 0x20, up to the last word of R60's offsets)
and overlap as a shared byte address modulo 2^32. -/
def Obligations.InvalidParametersAreRefused : Prop :=
  (∀ s : State, s.params.valid = false → step s = .refused .invalidInstance) ∧
  (∀ p : Params, p.valid = true ↔
    1 ≤ p.ppc.toNat ∧ 1 ≤ p.pollLimit ∧
    (p.engineBase.toNat % 4 = 0 ∧ p.vtcBase.toNat % 4 = 0 ∧ p.pllBase.toNat % 4 = 0) ∧
    (∀ i j : Nat, i < 256 → j < 148 → p.engineBase + BitVec.ofNat 32 i ≠ p.vtcBase + BitVec.ofNat 32 j) ∧
    (∀ i j : Nat, i < 256 → j < 32 → p.engineBase + BitVec.ofNat 32 i ≠ p.pllBase + BitVec.ofNat 32 j) ∧
    (∀ i j : Nat, i < 148 → j < 32 → p.vtcBase + BitVec.ofNat 32 i ≠ p.pllBase + BitVec.ofNat 32 j))

/-- R23, R106: the bits of STATUS are views of SEQ, PLL_STATE, ERROR and the valid bits; the reserved ones read 0. -/
def Obligations.StatusBitsAreViews : Prop :=
  ∀ s : State,
    let w := EngineReg.read .status s
    (w.getLsbD 0 = true ↔ s.seq ≠ .ready) ∧
    w.extractLsb' 1 2 = (match s.pllState with | .idle => 0 | .configured => 1 | .running => 2) ∧
    (w.getLsbD 4 = true ↔ s.error.code ≠ .noError) ∧
    w.getLsbD 5 = s.packedValid ∧ w.getLsbD 6 = s.vtcImgValid ∧ w.getLsbD 7 = s.targetValid ∧
    w.getLsbD 8 = s.searchValid ∧ w.getLsbD 9 = s.pllImgValid ∧
    w.getLsbD 3 = false ∧ ∀ i, 10 ≤ i → w.getLsbD i = false

/-- R25, R220: ERROR reads `(OPCODE << 8) | CODE`, with the numeric codes of R220. -/
def Obligations.ErrorReadsOpcodeAndCode : Prop :=
  ∀ s : State, (EngineReg.read .error s).toNat = 256 * s.error.opcode.toNat +
    (match s.error.code with
      | .noError => 0
      | .invalidTiming => 1
      | .unreachableFrequency => 2
      | .domainError => 3
      | .hardwareTimeout => 4
      | .notReady => 5
      | .illegalCommand => 6
      | .busyWrite => 7)

/-! ## Reset -/

/-- R250: after reset every register reads as the table says, whatever the parameters; PLL_STATE is Idle, SEQ is Ready, and
at the start of a run FAULTS is empty and no device access has been made. -/
def Obligations.ResetValuesOfTheRegisters : Prop :=
  State.reset = State.resetWith State.reset.params ∧
  ∀ p : Params,
    (∀ r : EngineReg, r.read (State.resetWith p) =
      if r = .ppc then p.ppc else if r = .toleranceHz then 0xFFFFFFFF else 0) ∧
    (∀ off : Nat, EngineReg.ofOffset off = none → readOffset off (State.resetWith p) = 0) ∧
    (State.resetWith p).pllState = .idle ∧ (State.resetWith p).seq = .ready ∧
    (State.resetWith p).faults = ⟨false, false⟩ ∧ (State.resetWith p).history = []

/-- R251, R252: a reset between any two steps abandons the command in progress and gives every register its reset value; it
makes no device access, keeps the parameters and clears no model fault. What it keeps of the other agents, and that it
settles the host's open busy reads, is log 18. -/
def Obligations.ResetEventAbandonsTheCommand : Prop :=
  ∀ (s : State) (rest : List Turn), s.params.valid = true → s.agenda = .reset :: rest →
    ∃ t, step s = .next t ∧
      (∀ r : EngineReg, r.read t = r.read (State.resetWith s.params)) ∧
      t.seq = .ready ∧ t.pllState = .idle ∧ t.params = s.params ∧ t.faults = s.faults ∧
      t.history = s.history ∧ t.mem = s.mem ∧ t.agenda = rest ∧ t.pllAnswers = s.pllAnswers ∧
      t.freeCount = s.freeCount + HostRead.openCount s.hostReads ∧
      t.hostReads = HostRead.settle s.hostReads s.freeCount ∧ (∀ r ∈ t.hostReads, ∃ v, r = .got v)

/-! ## Invariants -/

/-- The reset states meet every invariant, whatever the parameters. The engine of `State.reset`, whose bases (log 2) and
defaults (log 1) are the model's choices, is a valid one. -/
def Obligations.ResetStateMeetsTheInvariants : Prop :=
  State.reset.params.valid = true ∧
  ∀ p : Params, DeviceInv (State.resetWith p) ∧ FreshInv (State.resetWith p) ∧ ErrorInv (State.resetWith p) ∧
    PollInv (State.resetWith p) ∧ ReadsInv (State.resetWith p)

/-- R79, with the bytes of log 11: every step keeps the device memory in canonical form and equal to the last values written by the event history, which
only ever holds the accesses R61 and R62 allow. -/
def Obligations.StepKeepsTheDeviceMemoryOfTheHistory : Prop :=
  ∀ s t : State, DeviceInv s → step s = .next t → DeviceInv t

/-- R23: every step keeps what the valid bits say: a valid image or packed timing is that of the registers it is computed from. -/
def Obligations.StepKeepsValidImagesFresh : Prop :=
  ∀ s t : State, FreshInv s → step s = .next t → FreshInv t

/-- R25, R196, R201, R228: every step keeps ERROR legal (InvalidTiming is never recorded), the count of polls below
POLL_LIMIT, and no busy read of the host open in Ready (R74, log 9). -/
def Obligations.StepKeepsErrorLegalAndPollsBounded : Prop :=
  ∀ s t : State, ErrorInv s ∧ PollInv s ∧ ReadsInv s → step s = .next t → ErrorInv t ∧ PollInv t ∧ ReadsInv t
end

