-- ==== Sys2Proof/Laws/Codec.lean ====
section
/-! SUPPORT. Decoding and encoding command words. -/

namespace Sys2Proof

/-- No two rows of the opcode map have the same opcode. -/
theorem opcodeTable_distinct : opcodeTable.Pairwise fun x y => x.1 ≠ y.1 := by decide

theorem bytesOfWord_wordOfBytes (b0 b1 b2 b3 : Byte) : bytesOfWord (wordOfBytes b0 b1 b2 b3) = [b0, b1, b2, b3] := by
  simp only [bytesOfWord, wordOfBytes, List.cons.injEq, and_true]
  refine ⟨?_, ?_, ?_, ?_⟩ <;>
  · apply BitVec.eq_of_getLsbD_eq
    intro i hi
    simp only [BitVec.getLsbD_extractLsb', BitVec.getLsbD_append]
    have e1 : ¬ 16 + i < 8 := by omega
    have e2 : ¬ 16 + i - 8 < 8 := by omega
    have e3 : 16 + i - 8 - 8 = i := by omega
    have e4 : ¬ 24 + i < 8 := by omega
    have e5 : ¬ 24 + i - 8 < 8 := by omega
    have e6 : ¬ 24 + i - 8 - 8 < 8 := by omega
    have e7 : 24 + i - 8 - 8 - 8 = i := by omega
    simp [hi, e1, e2, e3, e4, e5, e6, e7]

/-- An illegal word has a reserved bit set or an unassigned opcode. -/
theorem decodeWord_ok {w : Word} {i : Instr} (h : decodeWord w = .ok i) :
    reservedOf w = 0 ∧ (opcodeOf w, i) ∈ opcodeTable := by
  unfold decodeWord at h
  split at h
  · cases h
  · rename_i hr
    split at h
    · rename_i row hrow
      cases h
      refine ⟨not_not.1 hr, ?_⟩
      have h1 := List.find?_some hrow
      have h2 := List.mem_of_find?_eq_some hrow
      simp only [beq_iff_eq] at h1
      rw [← h1]
      exact h2
    · cases h

end Sys2Proof
end

