-- ==== Sys2Proof/Laws/State.lean ====
section
/-! SUPPORT. One lemma per field per shared update, so that no proof unfolds a record update. -/

namespace Sys2Proof.Machine

/-! ### toReady -/

@[simp] theorem State.toReady_params (s : State) : (s.toReady).params = s.params := rfl
@[simp] theorem State.toReady_timing (s : State) : (s.toReady).timing = s.timing := rfl
@[simp] theorem State.toReady_timingFlags (s : State) : (s.toReady).timingFlags = s.timingFlags := rfl
@[simp] theorem State.toReady_pixelClockHz (s : State) : (s.toReady).pixelClockHz = s.pixelClockHz := rfl
@[simp] theorem State.toReady_refreshHz (s : State) : (s.toReady).refreshHz = s.refreshHz := rfl
@[simp] theorem State.toReady_packed (s : State) : (s.toReady).packed = s.packed := rfl
@[simp] theorem State.toReady_vtcImage (s : State) : (s.toReady).vtcImage = s.vtcImage := rfl
@[simp] theorem State.toReady_searchTargetHz (s : State) : (s.toReady).searchTargetHz = s.searchTargetHz := rfl
@[simp] theorem State.toReady_toleranceHz (s : State) : (s.toReady).toleranceHz = s.toleranceHz := rfl
@[simp] theorem State.toReady_resD (s : State) : (s.toReady).resD = s.resD := rfl
@[simp] theorem State.toReady_resM (s : State) : (s.toReady).resM = s.resM := rfl
@[simp] theorem State.toReady_resO (s : State) : (s.toReady).resO = s.resO := rfl
@[simp] theorem State.toReady_resAchievedHz (s : State) : (s.toReady).resAchievedHz = s.resAchievedHz := rfl
@[simp] theorem State.toReady_resErrorHz (s : State) : (s.toReady).resErrorHz = s.resErrorHz := rfl
@[simp] theorem State.toReady_pllImage (s : State) : (s.toReady).pllImage = s.pllImage := rfl
@[simp] theorem State.toReady_packedValid (s : State) : (s.toReady).packedValid = s.packedValid := rfl
@[simp] theorem State.toReady_vtcImgValid (s : State) : (s.toReady).vtcImgValid = s.vtcImgValid := rfl
@[simp] theorem State.toReady_targetValid (s : State) : (s.toReady).targetValid = s.targetValid := rfl
@[simp] theorem State.toReady_searchValid (s : State) : (s.toReady).searchValid = s.searchValid := rfl
@[simp] theorem State.toReady_pllImgValid (s : State) : (s.toReady).pllImgValid = s.pllImgValid := rfl
@[simp] theorem State.toReady_error (s : State) : (s.toReady).error = s.error := rfl
@[simp] theorem State.toReady_pllState (s : State) : (s.toReady).pllState = s.pllState := rfl
@[simp] theorem State.toReady_seq (s : State) : (s.toReady).seq = .ready := rfl
@[simp] theorem State.toReady_faults (s : State) : (s.toReady).faults = s.faults := rfl
@[simp] theorem State.toReady_history (s : State) : (s.toReady).history = s.history := rfl
@[simp] theorem State.toReady_mem (s : State) : (s.toReady).mem = s.mem := rfl
@[simp] theorem State.toReady_agenda (s : State) : (s.toReady).agenda = s.agenda := rfl
@[simp] theorem State.toReady_pllAnswers (s : State) : (s.toReady).pllAnswers = s.pllAnswers := rfl
@[simp] theorem State.toReady_freeCount (s : State) : (s.toReady).freeCount = s.freeCount := rfl
@[simp] theorem State.toReady_hostReads (s : State) : (s.toReady).hostReads = s.hostReads := rfl

/-! ### clearErrorReg -/

@[simp] theorem State.clearErrorReg_params (s : State) : (s.clearErrorReg).params = s.params := rfl
@[simp] theorem State.clearErrorReg_timing (s : State) : (s.clearErrorReg).timing = s.timing := rfl
@[simp] theorem State.clearErrorReg_timingFlags (s : State) : (s.clearErrorReg).timingFlags = s.timingFlags := rfl
@[simp] theorem State.clearErrorReg_pixelClockHz (s : State) : (s.clearErrorReg).pixelClockHz = s.pixelClockHz := rfl
@[simp] theorem State.clearErrorReg_refreshHz (s : State) : (s.clearErrorReg).refreshHz = s.refreshHz := rfl
@[simp] theorem State.clearErrorReg_packed (s : State) : (s.clearErrorReg).packed = s.packed := rfl
@[simp] theorem State.clearErrorReg_vtcImage (s : State) : (s.clearErrorReg).vtcImage = s.vtcImage := rfl
@[simp] theorem State.clearErrorReg_searchTargetHz (s : State) : (s.clearErrorReg).searchTargetHz = s.searchTargetHz := rfl
@[simp] theorem State.clearErrorReg_toleranceHz (s : State) : (s.clearErrorReg).toleranceHz = s.toleranceHz := rfl
@[simp] theorem State.clearErrorReg_resD (s : State) : (s.clearErrorReg).resD = s.resD := rfl
@[simp] theorem State.clearErrorReg_resM (s : State) : (s.clearErrorReg).resM = s.resM := rfl
@[simp] theorem State.clearErrorReg_resO (s : State) : (s.clearErrorReg).resO = s.resO := rfl
@[simp] theorem State.clearErrorReg_resAchievedHz (s : State) : (s.clearErrorReg).resAchievedHz = s.resAchievedHz := rfl
@[simp] theorem State.clearErrorReg_resErrorHz (s : State) : (s.clearErrorReg).resErrorHz = s.resErrorHz := rfl
@[simp] theorem State.clearErrorReg_pllImage (s : State) : (s.clearErrorReg).pllImage = s.pllImage := rfl
@[simp] theorem State.clearErrorReg_packedValid (s : State) : (s.clearErrorReg).packedValid = s.packedValid := rfl
@[simp] theorem State.clearErrorReg_vtcImgValid (s : State) : (s.clearErrorReg).vtcImgValid = s.vtcImgValid := rfl
@[simp] theorem State.clearErrorReg_targetValid (s : State) : (s.clearErrorReg).targetValid = s.targetValid := rfl
@[simp] theorem State.clearErrorReg_searchValid (s : State) : (s.clearErrorReg).searchValid = s.searchValid := rfl
@[simp] theorem State.clearErrorReg_pllImgValid (s : State) : (s.clearErrorReg).pllImgValid = s.pllImgValid := rfl
@[simp] theorem State.clearErrorReg_error (s : State) : (s.clearErrorReg).error = .reset := rfl
@[simp] theorem State.clearErrorReg_pllState (s : State) : (s.clearErrorReg).pllState = s.pllState := rfl
@[simp] theorem State.clearErrorReg_seq (s : State) : (s.clearErrorReg).seq = s.seq := rfl
@[simp] theorem State.clearErrorReg_faults (s : State) : (s.clearErrorReg).faults = s.faults := rfl
@[simp] theorem State.clearErrorReg_history (s : State) : (s.clearErrorReg).history = s.history := rfl
@[simp] theorem State.clearErrorReg_mem (s : State) : (s.clearErrorReg).mem = s.mem := rfl
@[simp] theorem State.clearErrorReg_agenda (s : State) : (s.clearErrorReg).agenda = s.agenda := rfl
@[simp] theorem State.clearErrorReg_pllAnswers (s : State) : (s.clearErrorReg).pllAnswers = s.pllAnswers := rfl
@[simp] theorem State.clearErrorReg_freeCount (s : State) : (s.clearErrorReg).freeCount = s.freeCount := rfl
@[simp] theorem State.clearErrorReg_hostReads (s : State) : (s.clearErrorReg).hostReads = s.hostReads := rfl

/-! ### recordError -/

@[simp] theorem State.recordError_params (e : ErrorCode) (op : Byte) (s : State) : (s.recordError e op).params = s.params := by
  unfold State.recordError
  split <;> rfl
@[simp] theorem State.recordError_timing (e : ErrorCode) (op : Byte) (s : State) : (s.recordError e op).timing = s.timing := by
  unfold State.recordError
  split <;> rfl
@[simp] theorem State.recordError_timingFlags (e : ErrorCode) (op : Byte) (s : State) : (s.recordError e op).timingFlags = s.timingFlags := by
  unfold State.recordError
  split <;> rfl
@[simp] theorem State.recordError_pixelClockHz (e : ErrorCode) (op : Byte) (s : State) : (s.recordError e op).pixelClockHz = s.pixelClockHz := by
  unfold State.recordError
  split <;> rfl
@[simp] theorem State.recordError_refreshHz (e : ErrorCode) (op : Byte) (s : State) : (s.recordError e op).refreshHz = s.refreshHz := by
  unfold State.recordError
  split <;> rfl
@[simp] theorem State.recordError_packed (e : ErrorCode) (op : Byte) (s : State) : (s.recordError e op).packed = s.packed := by
  unfold State.recordError
  split <;> rfl
@[simp] theorem State.recordError_vtcImage (e : ErrorCode) (op : Byte) (s : State) : (s.recordError e op).vtcImage = s.vtcImage := by
  unfold State.recordError
  split <;> rfl
@[simp] theorem State.recordError_searchTargetHz (e : ErrorCode) (op : Byte) (s : State) : (s.recordError e op).searchTargetHz = s.searchTargetHz := by
  unfold State.recordError
  split <;> rfl
@[simp] theorem State.recordError_toleranceHz (e : ErrorCode) (op : Byte) (s : State) : (s.recordError e op).toleranceHz = s.toleranceHz := by
  unfold State.recordError
  split <;> rfl
@[simp] theorem State.recordError_resD (e : ErrorCode) (op : Byte) (s : State) : (s.recordError e op).resD = s.resD := by
  unfold State.recordError
  split <;> rfl
@[simp] theorem State.recordError_resM (e : ErrorCode) (op : Byte) (s : State) : (s.recordError e op).resM = s.resM := by
  unfold State.recordError
  split <;> rfl
@[simp] theorem State.recordError_resO (e : ErrorCode) (op : Byte) (s : State) : (s.recordError e op).resO = s.resO := by
  unfold State.recordError
  split <;> rfl
@[simp] theorem State.recordError_resAchievedHz (e : ErrorCode) (op : Byte) (s : State) : (s.recordError e op).resAchievedHz = s.resAchievedHz := by
  unfold State.recordError
  split <;> rfl
@[simp] theorem State.recordError_resErrorHz (e : ErrorCode) (op : Byte) (s : State) : (s.recordError e op).resErrorHz = s.resErrorHz := by
  unfold State.recordError
  split <;> rfl
@[simp] theorem State.recordError_pllImage (e : ErrorCode) (op : Byte) (s : State) : (s.recordError e op).pllImage = s.pllImage := by
  unfold State.recordError
  split <;> rfl
@[simp] theorem State.recordError_packedValid (e : ErrorCode) (op : Byte) (s : State) : (s.recordError e op).packedValid = s.packedValid := by
  unfold State.recordError
  split <;> rfl
@[simp] theorem State.recordError_vtcImgValid (e : ErrorCode) (op : Byte) (s : State) : (s.recordError e op).vtcImgValid = s.vtcImgValid := by
  unfold State.recordError
  split <;> rfl
@[simp] theorem State.recordError_targetValid (e : ErrorCode) (op : Byte) (s : State) : (s.recordError e op).targetValid = s.targetValid := by
  unfold State.recordError
  split <;> rfl
@[simp] theorem State.recordError_searchValid (e : ErrorCode) (op : Byte) (s : State) : (s.recordError e op).searchValid = s.searchValid := by
  unfold State.recordError
  split <;> rfl
@[simp] theorem State.recordError_pllImgValid (e : ErrorCode) (op : Byte) (s : State) : (s.recordError e op).pllImgValid = s.pllImgValid := by
  unfold State.recordError
  split <;> rfl
@[simp] theorem State.recordError_error (e : ErrorCode) (op : Byte) (s : State) : (s.recordError e op).error = if s.error.code = .noError then ⟨e, op⟩ else s.error := by
  unfold State.recordError
  split <;> rfl
@[simp] theorem State.recordError_pllState (e : ErrorCode) (op : Byte) (s : State) : (s.recordError e op).pllState = s.pllState := by
  unfold State.recordError
  split <;> rfl
@[simp] theorem State.recordError_seq (e : ErrorCode) (op : Byte) (s : State) : (s.recordError e op).seq = s.seq := by
  unfold State.recordError
  split <;> rfl
@[simp] theorem State.recordError_faults (e : ErrorCode) (op : Byte) (s : State) : (s.recordError e op).faults = s.faults := by
  unfold State.recordError
  split <;> rfl
@[simp] theorem State.recordError_history (e : ErrorCode) (op : Byte) (s : State) : (s.recordError e op).history = s.history := by
  unfold State.recordError
  split <;> rfl
@[simp] theorem State.recordError_mem (e : ErrorCode) (op : Byte) (s : State) : (s.recordError e op).mem = s.mem := by
  unfold State.recordError
  split <;> rfl
@[simp] theorem State.recordError_agenda (e : ErrorCode) (op : Byte) (s : State) : (s.recordError e op).agenda = s.agenda := by
  unfold State.recordError
  split <;> rfl
@[simp] theorem State.recordError_pllAnswers (e : ErrorCode) (op : Byte) (s : State) : (s.recordError e op).pllAnswers = s.pllAnswers := by
  unfold State.recordError
  split <;> rfl
@[simp] theorem State.recordError_freeCount (e : ErrorCode) (op : Byte) (s : State) : (s.recordError e op).freeCount = s.freeCount := by
  unfold State.recordError
  split <;> rfl
@[simp] theorem State.recordError_hostReads (e : ErrorCode) (op : Byte) (s : State) : (s.recordError e op).hostReads = s.hostReads := by
  unfold State.recordError
  split <;> rfl

/-! ### raise -/

@[simp] theorem State.raise_params (e : ErrorCode) (op : Byte) (s : State) : (s.raise e op).params = s.params := by
  simp [State.raise]
@[simp] theorem State.raise_timing (e : ErrorCode) (op : Byte) (s : State) : (s.raise e op).timing = s.timing := by
  simp [State.raise]
@[simp] theorem State.raise_timingFlags (e : ErrorCode) (op : Byte) (s : State) : (s.raise e op).timingFlags = s.timingFlags := by
  simp [State.raise]
@[simp] theorem State.raise_pixelClockHz (e : ErrorCode) (op : Byte) (s : State) : (s.raise e op).pixelClockHz = s.pixelClockHz := by
  simp [State.raise]
@[simp] theorem State.raise_refreshHz (e : ErrorCode) (op : Byte) (s : State) : (s.raise e op).refreshHz = s.refreshHz := by
  simp [State.raise]
@[simp] theorem State.raise_packed (e : ErrorCode) (op : Byte) (s : State) : (s.raise e op).packed = s.packed := by
  simp [State.raise]
@[simp] theorem State.raise_vtcImage (e : ErrorCode) (op : Byte) (s : State) : (s.raise e op).vtcImage = s.vtcImage := by
  simp [State.raise]
@[simp] theorem State.raise_searchTargetHz (e : ErrorCode) (op : Byte) (s : State) : (s.raise e op).searchTargetHz = s.searchTargetHz := by
  simp [State.raise]
@[simp] theorem State.raise_toleranceHz (e : ErrorCode) (op : Byte) (s : State) : (s.raise e op).toleranceHz = s.toleranceHz := by
  simp [State.raise]
@[simp] theorem State.raise_resD (e : ErrorCode) (op : Byte) (s : State) : (s.raise e op).resD = s.resD := by
  simp [State.raise]
@[simp] theorem State.raise_resM (e : ErrorCode) (op : Byte) (s : State) : (s.raise e op).resM = s.resM := by
  simp [State.raise]
@[simp] theorem State.raise_resO (e : ErrorCode) (op : Byte) (s : State) : (s.raise e op).resO = s.resO := by
  simp [State.raise]
@[simp] theorem State.raise_resAchievedHz (e : ErrorCode) (op : Byte) (s : State) : (s.raise e op).resAchievedHz = s.resAchievedHz := by
  simp [State.raise]
@[simp] theorem State.raise_resErrorHz (e : ErrorCode) (op : Byte) (s : State) : (s.raise e op).resErrorHz = s.resErrorHz := by
  simp [State.raise]
@[simp] theorem State.raise_pllImage (e : ErrorCode) (op : Byte) (s : State) : (s.raise e op).pllImage = s.pllImage := by
  simp [State.raise]
@[simp] theorem State.raise_packedValid (e : ErrorCode) (op : Byte) (s : State) : (s.raise e op).packedValid = s.packedValid := by
  simp [State.raise]
@[simp] theorem State.raise_vtcImgValid (e : ErrorCode) (op : Byte) (s : State) : (s.raise e op).vtcImgValid = s.vtcImgValid := by
  simp [State.raise]
@[simp] theorem State.raise_targetValid (e : ErrorCode) (op : Byte) (s : State) : (s.raise e op).targetValid = s.targetValid := by
  simp [State.raise]
@[simp] theorem State.raise_searchValid (e : ErrorCode) (op : Byte) (s : State) : (s.raise e op).searchValid = s.searchValid := by
  simp [State.raise]
@[simp] theorem State.raise_pllImgValid (e : ErrorCode) (op : Byte) (s : State) : (s.raise e op).pllImgValid = s.pllImgValid := by
  simp [State.raise]
@[simp] theorem State.raise_error (e : ErrorCode) (op : Byte) (s : State) : (s.raise e op).error = if s.error.code = .noError then ⟨e, op⟩ else s.error := by
  simp [State.raise]
@[simp] theorem State.raise_pllState (e : ErrorCode) (op : Byte) (s : State) : (s.raise e op).pllState = s.pllState := by
  simp [State.raise]
@[simp] theorem State.raise_seq (e : ErrorCode) (op : Byte) (s : State) : (s.raise e op).seq = .ready := rfl
@[simp] theorem State.raise_faults (e : ErrorCode) (op : Byte) (s : State) : (s.raise e op).faults = s.faults := by
  simp [State.raise]
@[simp] theorem State.raise_history (e : ErrorCode) (op : Byte) (s : State) : (s.raise e op).history = s.history := by
  simp [State.raise]
@[simp] theorem State.raise_mem (e : ErrorCode) (op : Byte) (s : State) : (s.raise e op).mem = s.mem := by
  simp [State.raise]
@[simp] theorem State.raise_agenda (e : ErrorCode) (op : Byte) (s : State) : (s.raise e op).agenda = s.agenda := by
  simp [State.raise]
@[simp] theorem State.raise_pllAnswers (e : ErrorCode) (op : Byte) (s : State) : (s.raise e op).pllAnswers = s.pllAnswers := by
  simp [State.raise]
@[simp] theorem State.raise_freeCount (e : ErrorCode) (op : Byte) (s : State) : (s.raise e op).freeCount = s.freeCount := by
  simp [State.raise]
@[simp] theorem State.raise_hostReads (e : ErrorCode) (op : Byte) (s : State) : (s.raise e op).hostReads = s.hostReads := by
  simp [State.raise]

/-! ### fault -/

@[simp] theorem State.fault_params (f : ModelFault) (s : State) : (s.fault f).params = s.params := rfl
@[simp] theorem State.fault_timing (f : ModelFault) (s : State) : (s.fault f).timing = s.timing := rfl
@[simp] theorem State.fault_timingFlags (f : ModelFault) (s : State) : (s.fault f).timingFlags = s.timingFlags := rfl
@[simp] theorem State.fault_pixelClockHz (f : ModelFault) (s : State) : (s.fault f).pixelClockHz = s.pixelClockHz := rfl
@[simp] theorem State.fault_refreshHz (f : ModelFault) (s : State) : (s.fault f).refreshHz = s.refreshHz := rfl
@[simp] theorem State.fault_packed (f : ModelFault) (s : State) : (s.fault f).packed = s.packed := rfl
@[simp] theorem State.fault_vtcImage (f : ModelFault) (s : State) : (s.fault f).vtcImage = s.vtcImage := rfl
@[simp] theorem State.fault_searchTargetHz (f : ModelFault) (s : State) : (s.fault f).searchTargetHz = s.searchTargetHz := rfl
@[simp] theorem State.fault_toleranceHz (f : ModelFault) (s : State) : (s.fault f).toleranceHz = s.toleranceHz := rfl
@[simp] theorem State.fault_resD (f : ModelFault) (s : State) : (s.fault f).resD = s.resD := rfl
@[simp] theorem State.fault_resM (f : ModelFault) (s : State) : (s.fault f).resM = s.resM := rfl
@[simp] theorem State.fault_resO (f : ModelFault) (s : State) : (s.fault f).resO = s.resO := rfl
@[simp] theorem State.fault_resAchievedHz (f : ModelFault) (s : State) : (s.fault f).resAchievedHz = s.resAchievedHz := rfl
@[simp] theorem State.fault_resErrorHz (f : ModelFault) (s : State) : (s.fault f).resErrorHz = s.resErrorHz := rfl
@[simp] theorem State.fault_pllImage (f : ModelFault) (s : State) : (s.fault f).pllImage = s.pllImage := rfl
@[simp] theorem State.fault_packedValid (f : ModelFault) (s : State) : (s.fault f).packedValid = s.packedValid := rfl
@[simp] theorem State.fault_vtcImgValid (f : ModelFault) (s : State) : (s.fault f).vtcImgValid = s.vtcImgValid := rfl
@[simp] theorem State.fault_targetValid (f : ModelFault) (s : State) : (s.fault f).targetValid = s.targetValid := rfl
@[simp] theorem State.fault_searchValid (f : ModelFault) (s : State) : (s.fault f).searchValid = s.searchValid := rfl
@[simp] theorem State.fault_pllImgValid (f : ModelFault) (s : State) : (s.fault f).pllImgValid = s.pllImgValid := rfl
@[simp] theorem State.fault_error (f : ModelFault) (s : State) : (s.fault f).error = s.error := rfl
@[simp] theorem State.fault_pllState (f : ModelFault) (s : State) : (s.fault f).pllState = s.pllState := rfl
@[simp] theorem State.fault_seq (f : ModelFault) (s : State) : (s.fault f).seq = s.seq := rfl
@[simp] theorem State.fault_faults (f : ModelFault) (s : State) : (s.fault f).faults = s.faults.add f := rfl
@[simp] theorem State.fault_history (f : ModelFault) (s : State) : (s.fault f).history = s.history := rfl
@[simp] theorem State.fault_mem (f : ModelFault) (s : State) : (s.fault f).mem = s.mem := rfl
@[simp] theorem State.fault_agenda (f : ModelFault) (s : State) : (s.fault f).agenda = s.agenda := rfl
@[simp] theorem State.fault_pllAnswers (f : ModelFault) (s : State) : (s.fault f).pllAnswers = s.pllAnswers := rfl
@[simp] theorem State.fault_freeCount (f : ModelFault) (s : State) : (s.fault f).freeCount = s.freeCount := rfl
@[simp] theorem State.fault_hostReads (f : ModelFault) (s : State) : (s.fault f).hostReads = s.hostReads := rfl

/-! ### faultIf -/

@[simp] theorem State.faultIf_params (c : Bool) (f : ModelFault) (s : State) : (s.faultIf c f).params = s.params := by
  cases c <;> rfl
@[simp] theorem State.faultIf_timing (c : Bool) (f : ModelFault) (s : State) : (s.faultIf c f).timing = s.timing := by
  cases c <;> rfl
@[simp] theorem State.faultIf_timingFlags (c : Bool) (f : ModelFault) (s : State) : (s.faultIf c f).timingFlags = s.timingFlags := by
  cases c <;> rfl
@[simp] theorem State.faultIf_pixelClockHz (c : Bool) (f : ModelFault) (s : State) : (s.faultIf c f).pixelClockHz = s.pixelClockHz := by
  cases c <;> rfl
@[simp] theorem State.faultIf_refreshHz (c : Bool) (f : ModelFault) (s : State) : (s.faultIf c f).refreshHz = s.refreshHz := by
  cases c <;> rfl
@[simp] theorem State.faultIf_packed (c : Bool) (f : ModelFault) (s : State) : (s.faultIf c f).packed = s.packed := by
  cases c <;> rfl
@[simp] theorem State.faultIf_vtcImage (c : Bool) (f : ModelFault) (s : State) : (s.faultIf c f).vtcImage = s.vtcImage := by
  cases c <;> rfl
@[simp] theorem State.faultIf_searchTargetHz (c : Bool) (f : ModelFault) (s : State) : (s.faultIf c f).searchTargetHz = s.searchTargetHz := by
  cases c <;> rfl
@[simp] theorem State.faultIf_toleranceHz (c : Bool) (f : ModelFault) (s : State) : (s.faultIf c f).toleranceHz = s.toleranceHz := by
  cases c <;> rfl
@[simp] theorem State.faultIf_resD (c : Bool) (f : ModelFault) (s : State) : (s.faultIf c f).resD = s.resD := by
  cases c <;> rfl
@[simp] theorem State.faultIf_resM (c : Bool) (f : ModelFault) (s : State) : (s.faultIf c f).resM = s.resM := by
  cases c <;> rfl
@[simp] theorem State.faultIf_resO (c : Bool) (f : ModelFault) (s : State) : (s.faultIf c f).resO = s.resO := by
  cases c <;> rfl
@[simp] theorem State.faultIf_resAchievedHz (c : Bool) (f : ModelFault) (s : State) : (s.faultIf c f).resAchievedHz = s.resAchievedHz := by
  cases c <;> rfl
@[simp] theorem State.faultIf_resErrorHz (c : Bool) (f : ModelFault) (s : State) : (s.faultIf c f).resErrorHz = s.resErrorHz := by
  cases c <;> rfl
@[simp] theorem State.faultIf_pllImage (c : Bool) (f : ModelFault) (s : State) : (s.faultIf c f).pllImage = s.pllImage := by
  cases c <;> rfl
@[simp] theorem State.faultIf_packedValid (c : Bool) (f : ModelFault) (s : State) : (s.faultIf c f).packedValid = s.packedValid := by
  cases c <;> rfl
@[simp] theorem State.faultIf_vtcImgValid (c : Bool) (f : ModelFault) (s : State) : (s.faultIf c f).vtcImgValid = s.vtcImgValid := by
  cases c <;> rfl
@[simp] theorem State.faultIf_targetValid (c : Bool) (f : ModelFault) (s : State) : (s.faultIf c f).targetValid = s.targetValid := by
  cases c <;> rfl
@[simp] theorem State.faultIf_searchValid (c : Bool) (f : ModelFault) (s : State) : (s.faultIf c f).searchValid = s.searchValid := by
  cases c <;> rfl
@[simp] theorem State.faultIf_pllImgValid (c : Bool) (f : ModelFault) (s : State) : (s.faultIf c f).pllImgValid = s.pllImgValid := by
  cases c <;> rfl
@[simp] theorem State.faultIf_error (c : Bool) (f : ModelFault) (s : State) : (s.faultIf c f).error = s.error := by
  cases c <;> rfl
@[simp] theorem State.faultIf_pllState (c : Bool) (f : ModelFault) (s : State) : (s.faultIf c f).pllState = s.pllState := by
  cases c <;> rfl
@[simp] theorem State.faultIf_seq (c : Bool) (f : ModelFault) (s : State) : (s.faultIf c f).seq = s.seq := by
  cases c <;> rfl
@[simp] theorem State.faultIf_faults (c : Bool) (f : ModelFault) (s : State) : (s.faultIf c f).faults = if c then s.faults.add f else s.faults := by
  cases c <;> rfl
@[simp] theorem State.faultIf_history (c : Bool) (f : ModelFault) (s : State) : (s.faultIf c f).history = s.history := by
  cases c <;> rfl
@[simp] theorem State.faultIf_mem (c : Bool) (f : ModelFault) (s : State) : (s.faultIf c f).mem = s.mem := by
  cases c <;> rfl
@[simp] theorem State.faultIf_agenda (c : Bool) (f : ModelFault) (s : State) : (s.faultIf c f).agenda = s.agenda := by
  cases c <;> rfl
@[simp] theorem State.faultIf_pllAnswers (c : Bool) (f : ModelFault) (s : State) : (s.faultIf c f).pllAnswers = s.pllAnswers := by
  cases c <;> rfl
@[simp] theorem State.faultIf_freeCount (c : Bool) (f : ModelFault) (s : State) : (s.faultIf c f).freeCount = s.freeCount := by
  cases c <;> rfl
@[simp] theorem State.faultIf_hostReads (c : Bool) (f : ModelFault) (s : State) : (s.faultIf c f).hostReads = s.hostReads := by
  cases c <;> rfl

/-! ### drew -/

@[simp] theorem State.drew_params (n : Nat) (s : State) : (s.drew n).params = s.params := rfl
@[simp] theorem State.drew_timing (n : Nat) (s : State) : (s.drew n).timing = s.timing := rfl
@[simp] theorem State.drew_timingFlags (n : Nat) (s : State) : (s.drew n).timingFlags = s.timingFlags := rfl
@[simp] theorem State.drew_pixelClockHz (n : Nat) (s : State) : (s.drew n).pixelClockHz = s.pixelClockHz := rfl
@[simp] theorem State.drew_refreshHz (n : Nat) (s : State) : (s.drew n).refreshHz = s.refreshHz := rfl
@[simp] theorem State.drew_packed (n : Nat) (s : State) : (s.drew n).packed = s.packed := rfl
@[simp] theorem State.drew_vtcImage (n : Nat) (s : State) : (s.drew n).vtcImage = s.vtcImage := rfl
@[simp] theorem State.drew_searchTargetHz (n : Nat) (s : State) : (s.drew n).searchTargetHz = s.searchTargetHz := rfl
@[simp] theorem State.drew_toleranceHz (n : Nat) (s : State) : (s.drew n).toleranceHz = s.toleranceHz := rfl
@[simp] theorem State.drew_resD (n : Nat) (s : State) : (s.drew n).resD = s.resD := rfl
@[simp] theorem State.drew_resM (n : Nat) (s : State) : (s.drew n).resM = s.resM := rfl
@[simp] theorem State.drew_resO (n : Nat) (s : State) : (s.drew n).resO = s.resO := rfl
@[simp] theorem State.drew_resAchievedHz (n : Nat) (s : State) : (s.drew n).resAchievedHz = s.resAchievedHz := rfl
@[simp] theorem State.drew_resErrorHz (n : Nat) (s : State) : (s.drew n).resErrorHz = s.resErrorHz := rfl
@[simp] theorem State.drew_pllImage (n : Nat) (s : State) : (s.drew n).pllImage = s.pllImage := rfl
@[simp] theorem State.drew_packedValid (n : Nat) (s : State) : (s.drew n).packedValid = s.packedValid := rfl
@[simp] theorem State.drew_vtcImgValid (n : Nat) (s : State) : (s.drew n).vtcImgValid = s.vtcImgValid := rfl
@[simp] theorem State.drew_targetValid (n : Nat) (s : State) : (s.drew n).targetValid = s.targetValid := rfl
@[simp] theorem State.drew_searchValid (n : Nat) (s : State) : (s.drew n).searchValid = s.searchValid := rfl
@[simp] theorem State.drew_pllImgValid (n : Nat) (s : State) : (s.drew n).pllImgValid = s.pllImgValid := rfl
@[simp] theorem State.drew_error (n : Nat) (s : State) : (s.drew n).error = s.error := rfl
@[simp] theorem State.drew_pllState (n : Nat) (s : State) : (s.drew n).pllState = s.pllState := rfl
@[simp] theorem State.drew_seq (n : Nat) (s : State) : (s.drew n).seq = s.seq := rfl
@[simp] theorem State.drew_faults (n : Nat) (s : State) : (s.drew n).faults = s.faults := rfl
@[simp] theorem State.drew_history (n : Nat) (s : State) : (s.drew n).history = s.history := rfl
@[simp] theorem State.drew_mem (n : Nat) (s : State) : (s.drew n).mem = s.mem := rfl
@[simp] theorem State.drew_agenda (n : Nat) (s : State) : (s.drew n).agenda = s.agenda := rfl
@[simp] theorem State.drew_pllAnswers (n : Nat) (s : State) : (s.drew n).pllAnswers = s.pllAnswers := rfl
@[simp] theorem State.drew_freeCount (n : Nat) (s : State) : (s.drew n).freeCount = s.freeCount + n := rfl
@[simp] theorem State.drew_hostReads (n : Nat) (s : State) : (s.drew n).hostReads = s.hostReads := rfl

/-! ### vtcWrite -/

@[simp] theorem State.vtcWrite_params (off v : Word) (s : State) : (s.vtcWrite off v).params = s.params := rfl
@[simp] theorem State.vtcWrite_timing (off v : Word) (s : State) : (s.vtcWrite off v).timing = s.timing := rfl
@[simp] theorem State.vtcWrite_timingFlags (off v : Word) (s : State) : (s.vtcWrite off v).timingFlags = s.timingFlags := rfl
@[simp] theorem State.vtcWrite_pixelClockHz (off v : Word) (s : State) : (s.vtcWrite off v).pixelClockHz = s.pixelClockHz := rfl
@[simp] theorem State.vtcWrite_refreshHz (off v : Word) (s : State) : (s.vtcWrite off v).refreshHz = s.refreshHz := rfl
@[simp] theorem State.vtcWrite_packed (off v : Word) (s : State) : (s.vtcWrite off v).packed = s.packed := rfl
@[simp] theorem State.vtcWrite_vtcImage (off v : Word) (s : State) : (s.vtcWrite off v).vtcImage = s.vtcImage := rfl
@[simp] theorem State.vtcWrite_searchTargetHz (off v : Word) (s : State) : (s.vtcWrite off v).searchTargetHz = s.searchTargetHz := rfl
@[simp] theorem State.vtcWrite_toleranceHz (off v : Word) (s : State) : (s.vtcWrite off v).toleranceHz = s.toleranceHz := rfl
@[simp] theorem State.vtcWrite_resD (off v : Word) (s : State) : (s.vtcWrite off v).resD = s.resD := rfl
@[simp] theorem State.vtcWrite_resM (off v : Word) (s : State) : (s.vtcWrite off v).resM = s.resM := rfl
@[simp] theorem State.vtcWrite_resO (off v : Word) (s : State) : (s.vtcWrite off v).resO = s.resO := rfl
@[simp] theorem State.vtcWrite_resAchievedHz (off v : Word) (s : State) : (s.vtcWrite off v).resAchievedHz = s.resAchievedHz := rfl
@[simp] theorem State.vtcWrite_resErrorHz (off v : Word) (s : State) : (s.vtcWrite off v).resErrorHz = s.resErrorHz := rfl
@[simp] theorem State.vtcWrite_pllImage (off v : Word) (s : State) : (s.vtcWrite off v).pllImage = s.pllImage := rfl
@[simp] theorem State.vtcWrite_packedValid (off v : Word) (s : State) : (s.vtcWrite off v).packedValid = s.packedValid := rfl
@[simp] theorem State.vtcWrite_vtcImgValid (off v : Word) (s : State) : (s.vtcWrite off v).vtcImgValid = s.vtcImgValid := rfl
@[simp] theorem State.vtcWrite_targetValid (off v : Word) (s : State) : (s.vtcWrite off v).targetValid = s.targetValid := rfl
@[simp] theorem State.vtcWrite_searchValid (off v : Word) (s : State) : (s.vtcWrite off v).searchValid = s.searchValid := rfl
@[simp] theorem State.vtcWrite_pllImgValid (off v : Word) (s : State) : (s.vtcWrite off v).pllImgValid = s.pllImgValid := rfl
@[simp] theorem State.vtcWrite_error (off v : Word) (s : State) : (s.vtcWrite off v).error = s.error := rfl
@[simp] theorem State.vtcWrite_pllState (off v : Word) (s : State) : (s.vtcWrite off v).pllState = s.pllState := rfl
@[simp] theorem State.vtcWrite_seq (off v : Word) (s : State) : (s.vtcWrite off v).seq = s.seq := rfl
@[simp] theorem State.vtcWrite_faults (off v : Word) (s : State) : (s.vtcWrite off v).faults = s.faults := rfl
@[simp] theorem State.vtcWrite_history (off v : Word) (s : State) : (s.vtcWrite off v).history = s.history ++ [.vtcWrite off v] := rfl
@[simp] theorem State.vtcWrite_mem (off v : Word) (s : State) : (s.vtcWrite off v).mem = s.mem.writeWord (s.params.vtcBase + off) v := rfl
@[simp] theorem State.vtcWrite_agenda (off v : Word) (s : State) : (s.vtcWrite off v).agenda = s.agenda := rfl
@[simp] theorem State.vtcWrite_pllAnswers (off v : Word) (s : State) : (s.vtcWrite off v).pllAnswers = s.pllAnswers := rfl
@[simp] theorem State.vtcWrite_freeCount (off v : Word) (s : State) : (s.vtcWrite off v).freeCount = s.freeCount := rfl
@[simp] theorem State.vtcWrite_hostReads (off v : Word) (s : State) : (s.vtcWrite off v).hostReads = s.hostReads := rfl

/-! ### pllWrite -/

@[simp] theorem State.pllWrite_params (off v : Word) (s : State) : (s.pllWrite off v).params = s.params := rfl
@[simp] theorem State.pllWrite_timing (off v : Word) (s : State) : (s.pllWrite off v).timing = s.timing := rfl
@[simp] theorem State.pllWrite_timingFlags (off v : Word) (s : State) : (s.pllWrite off v).timingFlags = s.timingFlags := rfl
@[simp] theorem State.pllWrite_pixelClockHz (off v : Word) (s : State) : (s.pllWrite off v).pixelClockHz = s.pixelClockHz := rfl
@[simp] theorem State.pllWrite_refreshHz (off v : Word) (s : State) : (s.pllWrite off v).refreshHz = s.refreshHz := rfl
@[simp] theorem State.pllWrite_packed (off v : Word) (s : State) : (s.pllWrite off v).packed = s.packed := rfl
@[simp] theorem State.pllWrite_vtcImage (off v : Word) (s : State) : (s.pllWrite off v).vtcImage = s.vtcImage := rfl
@[simp] theorem State.pllWrite_searchTargetHz (off v : Word) (s : State) : (s.pllWrite off v).searchTargetHz = s.searchTargetHz := rfl
@[simp] theorem State.pllWrite_toleranceHz (off v : Word) (s : State) : (s.pllWrite off v).toleranceHz = s.toleranceHz := rfl
@[simp] theorem State.pllWrite_resD (off v : Word) (s : State) : (s.pllWrite off v).resD = s.resD := rfl
@[simp] theorem State.pllWrite_resM (off v : Word) (s : State) : (s.pllWrite off v).resM = s.resM := rfl
@[simp] theorem State.pllWrite_resO (off v : Word) (s : State) : (s.pllWrite off v).resO = s.resO := rfl
@[simp] theorem State.pllWrite_resAchievedHz (off v : Word) (s : State) : (s.pllWrite off v).resAchievedHz = s.resAchievedHz := rfl
@[simp] theorem State.pllWrite_resErrorHz (off v : Word) (s : State) : (s.pllWrite off v).resErrorHz = s.resErrorHz := rfl
@[simp] theorem State.pllWrite_pllImage (off v : Word) (s : State) : (s.pllWrite off v).pllImage = s.pllImage := rfl
@[simp] theorem State.pllWrite_packedValid (off v : Word) (s : State) : (s.pllWrite off v).packedValid = s.packedValid := rfl
@[simp] theorem State.pllWrite_vtcImgValid (off v : Word) (s : State) : (s.pllWrite off v).vtcImgValid = s.vtcImgValid := rfl
@[simp] theorem State.pllWrite_targetValid (off v : Word) (s : State) : (s.pllWrite off v).targetValid = s.targetValid := rfl
@[simp] theorem State.pllWrite_searchValid (off v : Word) (s : State) : (s.pllWrite off v).searchValid = s.searchValid := rfl
@[simp] theorem State.pllWrite_pllImgValid (off v : Word) (s : State) : (s.pllWrite off v).pllImgValid = s.pllImgValid := rfl
@[simp] theorem State.pllWrite_error (off v : Word) (s : State) : (s.pllWrite off v).error = s.error := rfl
@[simp] theorem State.pllWrite_pllState (off v : Word) (s : State) : (s.pllWrite off v).pllState = s.pllState := rfl
@[simp] theorem State.pllWrite_seq (off v : Word) (s : State) : (s.pllWrite off v).seq = s.seq := rfl
@[simp] theorem State.pllWrite_faults (off v : Word) (s : State) : (s.pllWrite off v).faults = s.faults := rfl
@[simp] theorem State.pllWrite_history (off v : Word) (s : State) : (s.pllWrite off v).history = s.history ++ [.pllWrite off v] := rfl
@[simp] theorem State.pllWrite_mem (off v : Word) (s : State) : (s.pllWrite off v).mem = s.mem.writeWord (s.params.pllBase + off) v := rfl
@[simp] theorem State.pllWrite_agenda (off v : Word) (s : State) : (s.pllWrite off v).agenda = s.agenda := rfl
@[simp] theorem State.pllWrite_pllAnswers (off v : Word) (s : State) : (s.pllWrite off v).pllAnswers = s.pllAnswers := rfl
@[simp] theorem State.pllWrite_freeCount (off v : Word) (s : State) : (s.pllWrite off v).freeCount = s.freeCount := rfl
@[simp] theorem State.pllWrite_hostReads (off v : Word) (s : State) : (s.pllWrite off v).hostReads = s.hostReads := rfl

/-! ### vtcWrites -/

@[simp] theorem State.vtcWrites_params (ws : List (Word × Word)) (s : State) : (s.vtcWrites ws).params = s.params := by
  induction ws generalizing s with
  | nil => rfl
  | cons w ws ih => exact ih (s.vtcWrite w.1 w.2)
@[simp] theorem State.vtcWrites_timing (ws : List (Word × Word)) (s : State) : (s.vtcWrites ws).timing = s.timing := by
  induction ws generalizing s with
  | nil => rfl
  | cons w ws ih => exact ih (s.vtcWrite w.1 w.2)
@[simp] theorem State.vtcWrites_timingFlags (ws : List (Word × Word)) (s : State) : (s.vtcWrites ws).timingFlags = s.timingFlags := by
  induction ws generalizing s with
  | nil => rfl
  | cons w ws ih => exact ih (s.vtcWrite w.1 w.2)
@[simp] theorem State.vtcWrites_pixelClockHz (ws : List (Word × Word)) (s : State) : (s.vtcWrites ws).pixelClockHz = s.pixelClockHz := by
  induction ws generalizing s with
  | nil => rfl
  | cons w ws ih => exact ih (s.vtcWrite w.1 w.2)
@[simp] theorem State.vtcWrites_refreshHz (ws : List (Word × Word)) (s : State) : (s.vtcWrites ws).refreshHz = s.refreshHz := by
  induction ws generalizing s with
  | nil => rfl
  | cons w ws ih => exact ih (s.vtcWrite w.1 w.2)
@[simp] theorem State.vtcWrites_packed (ws : List (Word × Word)) (s : State) : (s.vtcWrites ws).packed = s.packed := by
  induction ws generalizing s with
  | nil => rfl
  | cons w ws ih => exact ih (s.vtcWrite w.1 w.2)
@[simp] theorem State.vtcWrites_vtcImage (ws : List (Word × Word)) (s : State) : (s.vtcWrites ws).vtcImage = s.vtcImage := by
  induction ws generalizing s with
  | nil => rfl
  | cons w ws ih => exact ih (s.vtcWrite w.1 w.2)
@[simp] theorem State.vtcWrites_searchTargetHz (ws : List (Word × Word)) (s : State) : (s.vtcWrites ws).searchTargetHz = s.searchTargetHz := by
  induction ws generalizing s with
  | nil => rfl
  | cons w ws ih => exact ih (s.vtcWrite w.1 w.2)
@[simp] theorem State.vtcWrites_toleranceHz (ws : List (Word × Word)) (s : State) : (s.vtcWrites ws).toleranceHz = s.toleranceHz := by
  induction ws generalizing s with
  | nil => rfl
  | cons w ws ih => exact ih (s.vtcWrite w.1 w.2)
@[simp] theorem State.vtcWrites_resD (ws : List (Word × Word)) (s : State) : (s.vtcWrites ws).resD = s.resD := by
  induction ws generalizing s with
  | nil => rfl
  | cons w ws ih => exact ih (s.vtcWrite w.1 w.2)
@[simp] theorem State.vtcWrites_resM (ws : List (Word × Word)) (s : State) : (s.vtcWrites ws).resM = s.resM := by
  induction ws generalizing s with
  | nil => rfl
  | cons w ws ih => exact ih (s.vtcWrite w.1 w.2)
@[simp] theorem State.vtcWrites_resO (ws : List (Word × Word)) (s : State) : (s.vtcWrites ws).resO = s.resO := by
  induction ws generalizing s with
  | nil => rfl
  | cons w ws ih => exact ih (s.vtcWrite w.1 w.2)
@[simp] theorem State.vtcWrites_resAchievedHz (ws : List (Word × Word)) (s : State) : (s.vtcWrites ws).resAchievedHz = s.resAchievedHz := by
  induction ws generalizing s with
  | nil => rfl
  | cons w ws ih => exact ih (s.vtcWrite w.1 w.2)
@[simp] theorem State.vtcWrites_resErrorHz (ws : List (Word × Word)) (s : State) : (s.vtcWrites ws).resErrorHz = s.resErrorHz := by
  induction ws generalizing s with
  | nil => rfl
  | cons w ws ih => exact ih (s.vtcWrite w.1 w.2)
@[simp] theorem State.vtcWrites_pllImage (ws : List (Word × Word)) (s : State) : (s.vtcWrites ws).pllImage = s.pllImage := by
  induction ws generalizing s with
  | nil => rfl
  | cons w ws ih => exact ih (s.vtcWrite w.1 w.2)
@[simp] theorem State.vtcWrites_packedValid (ws : List (Word × Word)) (s : State) : (s.vtcWrites ws).packedValid = s.packedValid := by
  induction ws generalizing s with
  | nil => rfl
  | cons w ws ih => exact ih (s.vtcWrite w.1 w.2)
@[simp] theorem State.vtcWrites_vtcImgValid (ws : List (Word × Word)) (s : State) : (s.vtcWrites ws).vtcImgValid = s.vtcImgValid := by
  induction ws generalizing s with
  | nil => rfl
  | cons w ws ih => exact ih (s.vtcWrite w.1 w.2)
@[simp] theorem State.vtcWrites_targetValid (ws : List (Word × Word)) (s : State) : (s.vtcWrites ws).targetValid = s.targetValid := by
  induction ws generalizing s with
  | nil => rfl
  | cons w ws ih => exact ih (s.vtcWrite w.1 w.2)
@[simp] theorem State.vtcWrites_searchValid (ws : List (Word × Word)) (s : State) : (s.vtcWrites ws).searchValid = s.searchValid := by
  induction ws generalizing s with
  | nil => rfl
  | cons w ws ih => exact ih (s.vtcWrite w.1 w.2)
@[simp] theorem State.vtcWrites_pllImgValid (ws : List (Word × Word)) (s : State) : (s.vtcWrites ws).pllImgValid = s.pllImgValid := by
  induction ws generalizing s with
  | nil => rfl
  | cons w ws ih => exact ih (s.vtcWrite w.1 w.2)
@[simp] theorem State.vtcWrites_error (ws : List (Word × Word)) (s : State) : (s.vtcWrites ws).error = s.error := by
  induction ws generalizing s with
  | nil => rfl
  | cons w ws ih => exact ih (s.vtcWrite w.1 w.2)
@[simp] theorem State.vtcWrites_pllState (ws : List (Word × Word)) (s : State) : (s.vtcWrites ws).pllState = s.pllState := by
  induction ws generalizing s with
  | nil => rfl
  | cons w ws ih => exact ih (s.vtcWrite w.1 w.2)
@[simp] theorem State.vtcWrites_seq (ws : List (Word × Word)) (s : State) : (s.vtcWrites ws).seq = s.seq := by
  induction ws generalizing s with
  | nil => rfl
  | cons w ws ih => exact ih (s.vtcWrite w.1 w.2)
@[simp] theorem State.vtcWrites_faults (ws : List (Word × Word)) (s : State) : (s.vtcWrites ws).faults = s.faults := by
  induction ws generalizing s with
  | nil => rfl
  | cons w ws ih => exact ih (s.vtcWrite w.1 w.2)
@[simp] theorem State.vtcWrites_agenda (ws : List (Word × Word)) (s : State) : (s.vtcWrites ws).agenda = s.agenda := by
  induction ws generalizing s with
  | nil => rfl
  | cons w ws ih => exact ih (s.vtcWrite w.1 w.2)
@[simp] theorem State.vtcWrites_pllAnswers (ws : List (Word × Word)) (s : State) : (s.vtcWrites ws).pllAnswers = s.pllAnswers := by
  induction ws generalizing s with
  | nil => rfl
  | cons w ws ih => exact ih (s.vtcWrite w.1 w.2)
@[simp] theorem State.vtcWrites_freeCount (ws : List (Word × Word)) (s : State) : (s.vtcWrites ws).freeCount = s.freeCount := by
  induction ws generalizing s with
  | nil => rfl
  | cons w ws ih => exact ih (s.vtcWrite w.1 w.2)
@[simp] theorem State.vtcWrites_hostReads (ws : List (Word × Word)) (s : State) : (s.vtcWrites ws).hostReads = s.hostReads := by
  induction ws generalizing s with
  | nil => rfl
  | cons w ws ih => exact ih (s.vtcWrite w.1 w.2)

@[simp] theorem State.vtcWrites_history (ws : List (Word × Word)) (s : State) :
    (s.vtcWrites ws).history = s.history ++ ws.map (fun w => DeviceEvent.vtcWrite w.1 w.2) := by
  induction ws generalizing s with
  | nil => simp [State.vtcWrites]
  | cons w ws ih =>
    have h := ih (s.vtcWrite w.1 w.2)
    simpa [State.vtcWrites] using h

@[simp] theorem State.vtcWrites_mem (ws : List (Word × Word)) (s : State) :
    (s.vtcWrites ws).mem = ws.foldl (fun m w => m.writeWord (s.params.vtcBase + w.1) w.2) s.mem := by
  induction ws generalizing s with
  | nil => rfl
  | cons w ws ih =>
    have h := ih (s.vtcWrite w.1 w.2)
    simpa [State.vtcWrites] using h

/-! ### pllWrites -/

@[simp] theorem State.pllWrites_params (ws : List (Word × Word)) (s : State) : (s.pllWrites ws).params = s.params := by
  induction ws generalizing s with
  | nil => rfl
  | cons w ws ih => exact ih (s.pllWrite w.1 w.2)
@[simp] theorem State.pllWrites_timing (ws : List (Word × Word)) (s : State) : (s.pllWrites ws).timing = s.timing := by
  induction ws generalizing s with
  | nil => rfl
  | cons w ws ih => exact ih (s.pllWrite w.1 w.2)
@[simp] theorem State.pllWrites_timingFlags (ws : List (Word × Word)) (s : State) : (s.pllWrites ws).timingFlags = s.timingFlags := by
  induction ws generalizing s with
  | nil => rfl
  | cons w ws ih => exact ih (s.pllWrite w.1 w.2)
@[simp] theorem State.pllWrites_pixelClockHz (ws : List (Word × Word)) (s : State) : (s.pllWrites ws).pixelClockHz = s.pixelClockHz := by
  induction ws generalizing s with
  | nil => rfl
  | cons w ws ih => exact ih (s.pllWrite w.1 w.2)
@[simp] theorem State.pllWrites_refreshHz (ws : List (Word × Word)) (s : State) : (s.pllWrites ws).refreshHz = s.refreshHz := by
  induction ws generalizing s with
  | nil => rfl
  | cons w ws ih => exact ih (s.pllWrite w.1 w.2)
@[simp] theorem State.pllWrites_packed (ws : List (Word × Word)) (s : State) : (s.pllWrites ws).packed = s.packed := by
  induction ws generalizing s with
  | nil => rfl
  | cons w ws ih => exact ih (s.pllWrite w.1 w.2)
@[simp] theorem State.pllWrites_vtcImage (ws : List (Word × Word)) (s : State) : (s.pllWrites ws).vtcImage = s.vtcImage := by
  induction ws generalizing s with
  | nil => rfl
  | cons w ws ih => exact ih (s.pllWrite w.1 w.2)
@[simp] theorem State.pllWrites_searchTargetHz (ws : List (Word × Word)) (s : State) : (s.pllWrites ws).searchTargetHz = s.searchTargetHz := by
  induction ws generalizing s with
  | nil => rfl
  | cons w ws ih => exact ih (s.pllWrite w.1 w.2)
@[simp] theorem State.pllWrites_toleranceHz (ws : List (Word × Word)) (s : State) : (s.pllWrites ws).toleranceHz = s.toleranceHz := by
  induction ws generalizing s with
  | nil => rfl
  | cons w ws ih => exact ih (s.pllWrite w.1 w.2)
@[simp] theorem State.pllWrites_resD (ws : List (Word × Word)) (s : State) : (s.pllWrites ws).resD = s.resD := by
  induction ws generalizing s with
  | nil => rfl
  | cons w ws ih => exact ih (s.pllWrite w.1 w.2)
@[simp] theorem State.pllWrites_resM (ws : List (Word × Word)) (s : State) : (s.pllWrites ws).resM = s.resM := by
  induction ws generalizing s with
  | nil => rfl
  | cons w ws ih => exact ih (s.pllWrite w.1 w.2)
@[simp] theorem State.pllWrites_resO (ws : List (Word × Word)) (s : State) : (s.pllWrites ws).resO = s.resO := by
  induction ws generalizing s with
  | nil => rfl
  | cons w ws ih => exact ih (s.pllWrite w.1 w.2)
@[simp] theorem State.pllWrites_resAchievedHz (ws : List (Word × Word)) (s : State) : (s.pllWrites ws).resAchievedHz = s.resAchievedHz := by
  induction ws generalizing s with
  | nil => rfl
  | cons w ws ih => exact ih (s.pllWrite w.1 w.2)
@[simp] theorem State.pllWrites_resErrorHz (ws : List (Word × Word)) (s : State) : (s.pllWrites ws).resErrorHz = s.resErrorHz := by
  induction ws generalizing s with
  | nil => rfl
  | cons w ws ih => exact ih (s.pllWrite w.1 w.2)
@[simp] theorem State.pllWrites_pllImage (ws : List (Word × Word)) (s : State) : (s.pllWrites ws).pllImage = s.pllImage := by
  induction ws generalizing s with
  | nil => rfl
  | cons w ws ih => exact ih (s.pllWrite w.1 w.2)
@[simp] theorem State.pllWrites_packedValid (ws : List (Word × Word)) (s : State) : (s.pllWrites ws).packedValid = s.packedValid := by
  induction ws generalizing s with
  | nil => rfl
  | cons w ws ih => exact ih (s.pllWrite w.1 w.2)
@[simp] theorem State.pllWrites_vtcImgValid (ws : List (Word × Word)) (s : State) : (s.pllWrites ws).vtcImgValid = s.vtcImgValid := by
  induction ws generalizing s with
  | nil => rfl
  | cons w ws ih => exact ih (s.pllWrite w.1 w.2)
@[simp] theorem State.pllWrites_targetValid (ws : List (Word × Word)) (s : State) : (s.pllWrites ws).targetValid = s.targetValid := by
  induction ws generalizing s with
  | nil => rfl
  | cons w ws ih => exact ih (s.pllWrite w.1 w.2)
@[simp] theorem State.pllWrites_searchValid (ws : List (Word × Word)) (s : State) : (s.pllWrites ws).searchValid = s.searchValid := by
  induction ws generalizing s with
  | nil => rfl
  | cons w ws ih => exact ih (s.pllWrite w.1 w.2)
@[simp] theorem State.pllWrites_pllImgValid (ws : List (Word × Word)) (s : State) : (s.pllWrites ws).pllImgValid = s.pllImgValid := by
  induction ws generalizing s with
  | nil => rfl
  | cons w ws ih => exact ih (s.pllWrite w.1 w.2)
@[simp] theorem State.pllWrites_error (ws : List (Word × Word)) (s : State) : (s.pllWrites ws).error = s.error := by
  induction ws generalizing s with
  | nil => rfl
  | cons w ws ih => exact ih (s.pllWrite w.1 w.2)
@[simp] theorem State.pllWrites_pllState (ws : List (Word × Word)) (s : State) : (s.pllWrites ws).pllState = s.pllState := by
  induction ws generalizing s with
  | nil => rfl
  | cons w ws ih => exact ih (s.pllWrite w.1 w.2)
@[simp] theorem State.pllWrites_seq (ws : List (Word × Word)) (s : State) : (s.pllWrites ws).seq = s.seq := by
  induction ws generalizing s with
  | nil => rfl
  | cons w ws ih => exact ih (s.pllWrite w.1 w.2)
@[simp] theorem State.pllWrites_faults (ws : List (Word × Word)) (s : State) : (s.pllWrites ws).faults = s.faults := by
  induction ws generalizing s with
  | nil => rfl
  | cons w ws ih => exact ih (s.pllWrite w.1 w.2)
@[simp] theorem State.pllWrites_agenda (ws : List (Word × Word)) (s : State) : (s.pllWrites ws).agenda = s.agenda := by
  induction ws generalizing s with
  | nil => rfl
  | cons w ws ih => exact ih (s.pllWrite w.1 w.2)
@[simp] theorem State.pllWrites_pllAnswers (ws : List (Word × Word)) (s : State) : (s.pllWrites ws).pllAnswers = s.pllAnswers := by
  induction ws generalizing s with
  | nil => rfl
  | cons w ws ih => exact ih (s.pllWrite w.1 w.2)
@[simp] theorem State.pllWrites_freeCount (ws : List (Word × Word)) (s : State) : (s.pllWrites ws).freeCount = s.freeCount := by
  induction ws generalizing s with
  | nil => rfl
  | cons w ws ih => exact ih (s.pllWrite w.1 w.2)
@[simp] theorem State.pllWrites_hostReads (ws : List (Word × Word)) (s : State) : (s.pllWrites ws).hostReads = s.hostReads := by
  induction ws generalizing s with
  | nil => rfl
  | cons w ws ih => exact ih (s.pllWrite w.1 w.2)

@[simp] theorem State.pllWrites_history (ws : List (Word × Word)) (s : State) :
    (s.pllWrites ws).history = s.history ++ ws.map (fun w => DeviceEvent.pllWrite w.1 w.2) := by
  induction ws generalizing s with
  | nil => simp [State.pllWrites]
  | cons w ws ih =>
    have h := ih (s.pllWrite w.1 w.2)
    simpa [State.pllWrites] using h

@[simp] theorem State.pllWrites_mem (ws : List (Word × Word)) (s : State) :
    (s.pllWrites ws).mem = ws.foldl (fun m w => m.writeWord (s.params.pllBase + w.1) w.2) s.mem := by
  induction ws generalizing s with
  | nil => rfl
  | cons w ws ih =>
    have h := ih (s.pllWrite w.1 w.2)
    simpa [State.pllWrites] using h

/-! ### pllRead -/

@[simp] theorem State.pllRead_params (off : Word) (s : State) : (s.pllRead off).params = s.params := by
  unfold State.pllRead
  split <;> rfl
@[simp] theorem State.pllRead_timing (off : Word) (s : State) : (s.pllRead off).timing = s.timing := by
  unfold State.pllRead
  split <;> rfl
@[simp] theorem State.pllRead_timingFlags (off : Word) (s : State) : (s.pllRead off).timingFlags = s.timingFlags := by
  unfold State.pllRead
  split <;> rfl
@[simp] theorem State.pllRead_pixelClockHz (off : Word) (s : State) : (s.pllRead off).pixelClockHz = s.pixelClockHz := by
  unfold State.pllRead
  split <;> rfl
@[simp] theorem State.pllRead_refreshHz (off : Word) (s : State) : (s.pllRead off).refreshHz = s.refreshHz := by
  unfold State.pllRead
  split <;> rfl
@[simp] theorem State.pllRead_packed (off : Word) (s : State) : (s.pllRead off).packed = s.packed := by
  unfold State.pllRead
  split <;> rfl
@[simp] theorem State.pllRead_vtcImage (off : Word) (s : State) : (s.pllRead off).vtcImage = s.vtcImage := by
  unfold State.pllRead
  split <;> rfl
@[simp] theorem State.pllRead_searchTargetHz (off : Word) (s : State) : (s.pllRead off).searchTargetHz = s.searchTargetHz := by
  unfold State.pllRead
  split <;> rfl
@[simp] theorem State.pllRead_toleranceHz (off : Word) (s : State) : (s.pllRead off).toleranceHz = s.toleranceHz := by
  unfold State.pllRead
  split <;> rfl
@[simp] theorem State.pllRead_resD (off : Word) (s : State) : (s.pllRead off).resD = s.resD := by
  unfold State.pllRead
  split <;> rfl
@[simp] theorem State.pllRead_resM (off : Word) (s : State) : (s.pllRead off).resM = s.resM := by
  unfold State.pllRead
  split <;> rfl
@[simp] theorem State.pllRead_resO (off : Word) (s : State) : (s.pllRead off).resO = s.resO := by
  unfold State.pllRead
  split <;> rfl
@[simp] theorem State.pllRead_resAchievedHz (off : Word) (s : State) : (s.pllRead off).resAchievedHz = s.resAchievedHz := by
  unfold State.pllRead
  split <;> rfl
@[simp] theorem State.pllRead_resErrorHz (off : Word) (s : State) : (s.pllRead off).resErrorHz = s.resErrorHz := by
  unfold State.pllRead
  split <;> rfl
@[simp] theorem State.pllRead_pllImage (off : Word) (s : State) : (s.pllRead off).pllImage = s.pllImage := by
  unfold State.pllRead
  split <;> rfl
@[simp] theorem State.pllRead_packedValid (off : Word) (s : State) : (s.pllRead off).packedValid = s.packedValid := by
  unfold State.pllRead
  split <;> rfl
@[simp] theorem State.pllRead_vtcImgValid (off : Word) (s : State) : (s.pllRead off).vtcImgValid = s.vtcImgValid := by
  unfold State.pllRead
  split <;> rfl
@[simp] theorem State.pllRead_targetValid (off : Word) (s : State) : (s.pllRead off).targetValid = s.targetValid := by
  unfold State.pllRead
  split <;> rfl
@[simp] theorem State.pllRead_searchValid (off : Word) (s : State) : (s.pllRead off).searchValid = s.searchValid := by
  unfold State.pllRead
  split <;> rfl
@[simp] theorem State.pllRead_pllImgValid (off : Word) (s : State) : (s.pllRead off).pllImgValid = s.pllImgValid := by
  unfold State.pllRead
  split <;> rfl
@[simp] theorem State.pllRead_error (off : Word) (s : State) : (s.pllRead off).error = s.error := by
  unfold State.pllRead
  split <;> rfl
@[simp] theorem State.pllRead_pllState (off : Word) (s : State) : (s.pllRead off).pllState = s.pllState := by
  unfold State.pllRead
  split <;> rfl
@[simp] theorem State.pllRead_seq (off : Word) (s : State) : (s.pllRead off).seq = s.seq := by
  unfold State.pllRead
  split <;> rfl
@[simp] theorem State.pllRead_faults (off : Word) (s : State) : (s.pllRead off).faults = s.faults := by
  unfold State.pllRead
  split <;> rfl
@[simp] theorem State.pllRead_history (off : Word) (s : State) : (s.pllRead off).history = s.history ++ [.pllRead off s.pllAnswer] := by
  unfold State.pllRead
  split <;> rfl
@[simp] theorem State.pllRead_mem (off : Word) (s : State) : (s.pllRead off).mem = s.mem := by
  unfold State.pllRead
  split <;> rfl
@[simp] theorem State.pllRead_agenda (off : Word) (s : State) : (s.pllRead off).agenda = s.agenda := by
  unfold State.pllRead
  split <;> rfl
@[simp] theorem State.pllRead_pllAnswers (off : Word) (s : State) : (s.pllRead off).pllAnswers = s.pllAnswers.tail := by
  unfold State.pllRead
  split <;> simp_all
@[simp] theorem State.pllRead_freeCount (off : Word) (s : State) : (s.pllRead off).freeCount = if s.pllAnswers = [] then s.freeCount + 1 else s.freeCount := by
  unfold State.pllRead
  split <;> simp_all
@[simp] theorem State.pllRead_hostReads (off : Word) (s : State) : (s.pllRead off).hostReads = s.hostReads := by
  unfold State.pllRead
  split <;> rfl

/-! ### afterTimingWrite -/

@[simp] theorem State.afterTimingWrite_params (s : State) : (s.afterTimingWrite).params = s.params := rfl
@[simp] theorem State.afterTimingWrite_timing (s : State) : (s.afterTimingWrite).timing = s.timing := rfl
@[simp] theorem State.afterTimingWrite_timingFlags (s : State) : (s.afterTimingWrite).timingFlags = s.timingFlags := rfl
@[simp] theorem State.afterTimingWrite_pixelClockHz (s : State) : (s.afterTimingWrite).pixelClockHz = s.pixelClockHz := rfl
@[simp] theorem State.afterTimingWrite_refreshHz (s : State) : (s.afterTimingWrite).refreshHz = s.refreshHz := rfl
@[simp] theorem State.afterTimingWrite_packed (s : State) : (s.afterTimingWrite).packed = s.packed := rfl
@[simp] theorem State.afterTimingWrite_vtcImage (s : State) : (s.afterTimingWrite).vtcImage = s.vtcImage := rfl
@[simp] theorem State.afterTimingWrite_searchTargetHz (s : State) : (s.afterTimingWrite).searchTargetHz = s.searchTargetHz := rfl
@[simp] theorem State.afterTimingWrite_toleranceHz (s : State) : (s.afterTimingWrite).toleranceHz = s.toleranceHz := rfl
@[simp] theorem State.afterTimingWrite_resD (s : State) : (s.afterTimingWrite).resD = s.resD := rfl
@[simp] theorem State.afterTimingWrite_resM (s : State) : (s.afterTimingWrite).resM = s.resM := rfl
@[simp] theorem State.afterTimingWrite_resO (s : State) : (s.afterTimingWrite).resO = s.resO := rfl
@[simp] theorem State.afterTimingWrite_resAchievedHz (s : State) : (s.afterTimingWrite).resAchievedHz = s.resAchievedHz := rfl
@[simp] theorem State.afterTimingWrite_resErrorHz (s : State) : (s.afterTimingWrite).resErrorHz = s.resErrorHz := rfl
@[simp] theorem State.afterTimingWrite_pllImage (s : State) : (s.afterTimingWrite).pllImage = s.pllImage := rfl
@[simp] theorem State.afterTimingWrite_packedValid (s : State) : (s.afterTimingWrite).packedValid = false := rfl
@[simp] theorem State.afterTimingWrite_vtcImgValid (s : State) : (s.afterTimingWrite).vtcImgValid = false := rfl
@[simp] theorem State.afterTimingWrite_targetValid (s : State) : (s.afterTimingWrite).targetValid = s.targetValid := rfl
@[simp] theorem State.afterTimingWrite_searchValid (s : State) : (s.afterTimingWrite).searchValid = s.searchValid := rfl
@[simp] theorem State.afterTimingWrite_pllImgValid (s : State) : (s.afterTimingWrite).pllImgValid = s.pllImgValid := rfl
@[simp] theorem State.afterTimingWrite_error (s : State) : (s.afterTimingWrite).error = s.error := rfl
@[simp] theorem State.afterTimingWrite_pllState (s : State) : (s.afterTimingWrite).pllState = s.pllState := rfl
@[simp] theorem State.afterTimingWrite_seq (s : State) : (s.afterTimingWrite).seq = s.seq := rfl
@[simp] theorem State.afterTimingWrite_faults (s : State) : (s.afterTimingWrite).faults = s.faults := rfl
@[simp] theorem State.afterTimingWrite_history (s : State) : (s.afterTimingWrite).history = s.history := rfl
@[simp] theorem State.afterTimingWrite_mem (s : State) : (s.afterTimingWrite).mem = s.mem := rfl
@[simp] theorem State.afterTimingWrite_agenda (s : State) : (s.afterTimingWrite).agenda = s.agenda := rfl
@[simp] theorem State.afterTimingWrite_pllAnswers (s : State) : (s.afterTimingWrite).pllAnswers = s.pllAnswers := rfl
@[simp] theorem State.afterTimingWrite_freeCount (s : State) : (s.afterTimingWrite).freeCount = s.freeCount := rfl
@[simp] theorem State.afterTimingWrite_hostReads (s : State) : (s.afterTimingWrite).hostReads = s.hostReads := rfl

/-! ### afterPixelClockWrite -/

@[simp] theorem State.afterPixelClockWrite_params (s : State) : (s.afterPixelClockWrite).params = s.params := rfl
@[simp] theorem State.afterPixelClockWrite_timing (s : State) : (s.afterPixelClockWrite).timing = s.timing := rfl
@[simp] theorem State.afterPixelClockWrite_timingFlags (s : State) : (s.afterPixelClockWrite).timingFlags = s.timingFlags := rfl
@[simp] theorem State.afterPixelClockWrite_pixelClockHz (s : State) : (s.afterPixelClockWrite).pixelClockHz = s.pixelClockHz := rfl
@[simp] theorem State.afterPixelClockWrite_refreshHz (s : State) : (s.afterPixelClockWrite).refreshHz = s.refreshHz := rfl
@[simp] theorem State.afterPixelClockWrite_packed (s : State) : (s.afterPixelClockWrite).packed = s.packed := rfl
@[simp] theorem State.afterPixelClockWrite_vtcImage (s : State) : (s.afterPixelClockWrite).vtcImage = s.vtcImage := rfl
@[simp] theorem State.afterPixelClockWrite_searchTargetHz (s : State) : (s.afterPixelClockWrite).searchTargetHz = s.searchTargetHz := rfl
@[simp] theorem State.afterPixelClockWrite_toleranceHz (s : State) : (s.afterPixelClockWrite).toleranceHz = s.toleranceHz := rfl
@[simp] theorem State.afterPixelClockWrite_resD (s : State) : (s.afterPixelClockWrite).resD = s.resD := rfl
@[simp] theorem State.afterPixelClockWrite_resM (s : State) : (s.afterPixelClockWrite).resM = s.resM := rfl
@[simp] theorem State.afterPixelClockWrite_resO (s : State) : (s.afterPixelClockWrite).resO = s.resO := rfl
@[simp] theorem State.afterPixelClockWrite_resAchievedHz (s : State) : (s.afterPixelClockWrite).resAchievedHz = s.resAchievedHz := rfl
@[simp] theorem State.afterPixelClockWrite_resErrorHz (s : State) : (s.afterPixelClockWrite).resErrorHz = s.resErrorHz := rfl
@[simp] theorem State.afterPixelClockWrite_pllImage (s : State) : (s.afterPixelClockWrite).pllImage = s.pllImage := rfl
@[simp] theorem State.afterPixelClockWrite_packedValid (s : State) : (s.afterPixelClockWrite).packedValid = s.packedValid := rfl
@[simp] theorem State.afterPixelClockWrite_vtcImgValid (s : State) : (s.afterPixelClockWrite).vtcImgValid = s.vtcImgValid := rfl
@[simp] theorem State.afterPixelClockWrite_targetValid (s : State) : (s.afterPixelClockWrite).targetValid = false := rfl
@[simp] theorem State.afterPixelClockWrite_searchValid (s : State) : (s.afterPixelClockWrite).searchValid = s.searchValid := rfl
@[simp] theorem State.afterPixelClockWrite_pllImgValid (s : State) : (s.afterPixelClockWrite).pllImgValid = s.pllImgValid := rfl
@[simp] theorem State.afterPixelClockWrite_error (s : State) : (s.afterPixelClockWrite).error = s.error := rfl
@[simp] theorem State.afterPixelClockWrite_pllState (s : State) : (s.afterPixelClockWrite).pllState = s.pllState := rfl
@[simp] theorem State.afterPixelClockWrite_seq (s : State) : (s.afterPixelClockWrite).seq = s.seq := rfl
@[simp] theorem State.afterPixelClockWrite_faults (s : State) : (s.afterPixelClockWrite).faults = s.faults := rfl
@[simp] theorem State.afterPixelClockWrite_history (s : State) : (s.afterPixelClockWrite).history = s.history := rfl
@[simp] theorem State.afterPixelClockWrite_mem (s : State) : (s.afterPixelClockWrite).mem = s.mem := rfl
@[simp] theorem State.afterPixelClockWrite_agenda (s : State) : (s.afterPixelClockWrite).agenda = s.agenda := rfl
@[simp] theorem State.afterPixelClockWrite_pllAnswers (s : State) : (s.afterPixelClockWrite).pllAnswers = s.pllAnswers := rfl
@[simp] theorem State.afterPixelClockWrite_freeCount (s : State) : (s.afterPixelClockWrite).freeCount = s.freeCount := rfl
@[simp] theorem State.afterPixelClockWrite_hostReads (s : State) : (s.afterPixelClockWrite).hostReads = s.hostReads := rfl

/-! ### afterTargetWrite -/

@[simp] theorem State.afterTargetWrite_params (s : State) : (s.afterTargetWrite).params = s.params := rfl
@[simp] theorem State.afterTargetWrite_timing (s : State) : (s.afterTargetWrite).timing = s.timing := rfl
@[simp] theorem State.afterTargetWrite_timingFlags (s : State) : (s.afterTargetWrite).timingFlags = s.timingFlags := rfl
@[simp] theorem State.afterTargetWrite_pixelClockHz (s : State) : (s.afterTargetWrite).pixelClockHz = s.pixelClockHz := rfl
@[simp] theorem State.afterTargetWrite_refreshHz (s : State) : (s.afterTargetWrite).refreshHz = s.refreshHz := rfl
@[simp] theorem State.afterTargetWrite_packed (s : State) : (s.afterTargetWrite).packed = s.packed := rfl
@[simp] theorem State.afterTargetWrite_vtcImage (s : State) : (s.afterTargetWrite).vtcImage = s.vtcImage := rfl
@[simp] theorem State.afterTargetWrite_searchTargetHz (s : State) : (s.afterTargetWrite).searchTargetHz = s.searchTargetHz := rfl
@[simp] theorem State.afterTargetWrite_toleranceHz (s : State) : (s.afterTargetWrite).toleranceHz = s.toleranceHz := rfl
@[simp] theorem State.afterTargetWrite_resD (s : State) : (s.afterTargetWrite).resD = s.resD := rfl
@[simp] theorem State.afterTargetWrite_resM (s : State) : (s.afterTargetWrite).resM = s.resM := rfl
@[simp] theorem State.afterTargetWrite_resO (s : State) : (s.afterTargetWrite).resO = s.resO := rfl
@[simp] theorem State.afterTargetWrite_resAchievedHz (s : State) : (s.afterTargetWrite).resAchievedHz = s.resAchievedHz := rfl
@[simp] theorem State.afterTargetWrite_resErrorHz (s : State) : (s.afterTargetWrite).resErrorHz = s.resErrorHz := rfl
@[simp] theorem State.afterTargetWrite_pllImage (s : State) : (s.afterTargetWrite).pllImage = s.pllImage := rfl
@[simp] theorem State.afterTargetWrite_packedValid (s : State) : (s.afterTargetWrite).packedValid = s.packedValid := rfl
@[simp] theorem State.afterTargetWrite_vtcImgValid (s : State) : (s.afterTargetWrite).vtcImgValid = s.vtcImgValid := rfl
@[simp] theorem State.afterTargetWrite_targetValid (s : State) : (s.afterTargetWrite).targetValid = true := rfl
@[simp] theorem State.afterTargetWrite_searchValid (s : State) : (s.afterTargetWrite).searchValid = false := rfl
@[simp] theorem State.afterTargetWrite_pllImgValid (s : State) : (s.afterTargetWrite).pllImgValid = s.pllImgValid := rfl
@[simp] theorem State.afterTargetWrite_error (s : State) : (s.afterTargetWrite).error = s.error := rfl
@[simp] theorem State.afterTargetWrite_pllState (s : State) : (s.afterTargetWrite).pllState = s.pllState := rfl
@[simp] theorem State.afterTargetWrite_seq (s : State) : (s.afterTargetWrite).seq = s.seq := rfl
@[simp] theorem State.afterTargetWrite_faults (s : State) : (s.afterTargetWrite).faults = s.faults := rfl
@[simp] theorem State.afterTargetWrite_history (s : State) : (s.afterTargetWrite).history = s.history := rfl
@[simp] theorem State.afterTargetWrite_mem (s : State) : (s.afterTargetWrite).mem = s.mem := rfl
@[simp] theorem State.afterTargetWrite_agenda (s : State) : (s.afterTargetWrite).agenda = s.agenda := rfl
@[simp] theorem State.afterTargetWrite_pllAnswers (s : State) : (s.afterTargetWrite).pllAnswers = s.pllAnswers := rfl
@[simp] theorem State.afterTargetWrite_freeCount (s : State) : (s.afterTargetWrite).freeCount = s.freeCount := rfl
@[simp] theorem State.afterTargetWrite_hostReads (s : State) : (s.afterTargetWrite).hostReads = s.hostReads := rfl

/-! ### afterResultWrite -/

@[simp] theorem State.afterResultWrite_params (s : State) : (s.afterResultWrite).params = s.params := rfl
@[simp] theorem State.afterResultWrite_timing (s : State) : (s.afterResultWrite).timing = s.timing := rfl
@[simp] theorem State.afterResultWrite_timingFlags (s : State) : (s.afterResultWrite).timingFlags = s.timingFlags := rfl
@[simp] theorem State.afterResultWrite_pixelClockHz (s : State) : (s.afterResultWrite).pixelClockHz = s.pixelClockHz := rfl
@[simp] theorem State.afterResultWrite_refreshHz (s : State) : (s.afterResultWrite).refreshHz = s.refreshHz := rfl
@[simp] theorem State.afterResultWrite_packed (s : State) : (s.afterResultWrite).packed = s.packed := rfl
@[simp] theorem State.afterResultWrite_vtcImage (s : State) : (s.afterResultWrite).vtcImage = s.vtcImage := rfl
@[simp] theorem State.afterResultWrite_searchTargetHz (s : State) : (s.afterResultWrite).searchTargetHz = s.searchTargetHz := rfl
@[simp] theorem State.afterResultWrite_toleranceHz (s : State) : (s.afterResultWrite).toleranceHz = s.toleranceHz := rfl
@[simp] theorem State.afterResultWrite_resD (s : State) : (s.afterResultWrite).resD = s.resD := rfl
@[simp] theorem State.afterResultWrite_resM (s : State) : (s.afterResultWrite).resM = s.resM := rfl
@[simp] theorem State.afterResultWrite_resO (s : State) : (s.afterResultWrite).resO = s.resO := rfl
@[simp] theorem State.afterResultWrite_resAchievedHz (s : State) : (s.afterResultWrite).resAchievedHz = s.resAchievedHz := rfl
@[simp] theorem State.afterResultWrite_resErrorHz (s : State) : (s.afterResultWrite).resErrorHz = s.resErrorHz := rfl
@[simp] theorem State.afterResultWrite_pllImage (s : State) : (s.afterResultWrite).pllImage = s.pllImage := rfl
@[simp] theorem State.afterResultWrite_packedValid (s : State) : (s.afterResultWrite).packedValid = s.packedValid := rfl
@[simp] theorem State.afterResultWrite_vtcImgValid (s : State) : (s.afterResultWrite).vtcImgValid = s.vtcImgValid := rfl
@[simp] theorem State.afterResultWrite_targetValid (s : State) : (s.afterResultWrite).targetValid = s.targetValid := rfl
@[simp] theorem State.afterResultWrite_searchValid (s : State) : (s.afterResultWrite).searchValid = true := rfl
@[simp] theorem State.afterResultWrite_pllImgValid (s : State) : (s.afterResultWrite).pllImgValid = false := rfl
@[simp] theorem State.afterResultWrite_error (s : State) : (s.afterResultWrite).error = s.error := rfl
@[simp] theorem State.afterResultWrite_pllState (s : State) : (s.afterResultWrite).pllState = s.pllState := rfl
@[simp] theorem State.afterResultWrite_seq (s : State) : (s.afterResultWrite).seq = s.seq := rfl
@[simp] theorem State.afterResultWrite_faults (s : State) : (s.afterResultWrite).faults = s.faults := rfl
@[simp] theorem State.afterResultWrite_history (s : State) : (s.afterResultWrite).history = s.history := rfl
@[simp] theorem State.afterResultWrite_mem (s : State) : (s.afterResultWrite).mem = s.mem := rfl
@[simp] theorem State.afterResultWrite_agenda (s : State) : (s.afterResultWrite).agenda = s.agenda := rfl
@[simp] theorem State.afterResultWrite_pllAnswers (s : State) : (s.afterResultWrite).pllAnswers = s.pllAnswers := rfl
@[simp] theorem State.afterResultWrite_freeCount (s : State) : (s.afterResultWrite).freeCount = s.freeCount := rfl
@[simp] theorem State.afterResultWrite_hostReads (s : State) : (s.afterResultWrite).hostReads = s.hostReads := rfl

/-! ### setTiming -/

@[simp] theorem State.setTiming_params (t : TimingInputs) (s : State) : (s.setTiming t).params = s.params := rfl
@[simp] theorem State.setTiming_timing (t : TimingInputs) (s : State) : (s.setTiming t).timing = t := rfl
@[simp] theorem State.setTiming_timingFlags (t : TimingInputs) (s : State) : (s.setTiming t).timingFlags = s.timingFlags := rfl
@[simp] theorem State.setTiming_pixelClockHz (t : TimingInputs) (s : State) : (s.setTiming t).pixelClockHz = s.pixelClockHz := rfl
@[simp] theorem State.setTiming_refreshHz (t : TimingInputs) (s : State) : (s.setTiming t).refreshHz = s.refreshHz := rfl
@[simp] theorem State.setTiming_packed (t : TimingInputs) (s : State) : (s.setTiming t).packed = s.packed := rfl
@[simp] theorem State.setTiming_vtcImage (t : TimingInputs) (s : State) : (s.setTiming t).vtcImage = s.vtcImage := rfl
@[simp] theorem State.setTiming_searchTargetHz (t : TimingInputs) (s : State) : (s.setTiming t).searchTargetHz = s.searchTargetHz := rfl
@[simp] theorem State.setTiming_toleranceHz (t : TimingInputs) (s : State) : (s.setTiming t).toleranceHz = s.toleranceHz := rfl
@[simp] theorem State.setTiming_resD (t : TimingInputs) (s : State) : (s.setTiming t).resD = s.resD := rfl
@[simp] theorem State.setTiming_resM (t : TimingInputs) (s : State) : (s.setTiming t).resM = s.resM := rfl
@[simp] theorem State.setTiming_resO (t : TimingInputs) (s : State) : (s.setTiming t).resO = s.resO := rfl
@[simp] theorem State.setTiming_resAchievedHz (t : TimingInputs) (s : State) : (s.setTiming t).resAchievedHz = s.resAchievedHz := rfl
@[simp] theorem State.setTiming_resErrorHz (t : TimingInputs) (s : State) : (s.setTiming t).resErrorHz = s.resErrorHz := rfl
@[simp] theorem State.setTiming_pllImage (t : TimingInputs) (s : State) : (s.setTiming t).pllImage = s.pllImage := rfl
@[simp] theorem State.setTiming_packedValid (t : TimingInputs) (s : State) : (s.setTiming t).packedValid = false := rfl
@[simp] theorem State.setTiming_vtcImgValid (t : TimingInputs) (s : State) : (s.setTiming t).vtcImgValid = false := rfl
@[simp] theorem State.setTiming_targetValid (t : TimingInputs) (s : State) : (s.setTiming t).targetValid = s.targetValid := rfl
@[simp] theorem State.setTiming_searchValid (t : TimingInputs) (s : State) : (s.setTiming t).searchValid = s.searchValid := rfl
@[simp] theorem State.setTiming_pllImgValid (t : TimingInputs) (s : State) : (s.setTiming t).pllImgValid = s.pllImgValid := rfl
@[simp] theorem State.setTiming_error (t : TimingInputs) (s : State) : (s.setTiming t).error = s.error := rfl
@[simp] theorem State.setTiming_pllState (t : TimingInputs) (s : State) : (s.setTiming t).pllState = s.pllState := rfl
@[simp] theorem State.setTiming_seq (t : TimingInputs) (s : State) : (s.setTiming t).seq = s.seq := rfl
@[simp] theorem State.setTiming_faults (t : TimingInputs) (s : State) : (s.setTiming t).faults = s.faults := rfl
@[simp] theorem State.setTiming_history (t : TimingInputs) (s : State) : (s.setTiming t).history = s.history := rfl
@[simp] theorem State.setTiming_mem (t : TimingInputs) (s : State) : (s.setTiming t).mem = s.mem := rfl
@[simp] theorem State.setTiming_agenda (t : TimingInputs) (s : State) : (s.setTiming t).agenda = s.agenda := rfl
@[simp] theorem State.setTiming_pllAnswers (t : TimingInputs) (s : State) : (s.setTiming t).pllAnswers = s.pllAnswers := rfl
@[simp] theorem State.setTiming_freeCount (t : TimingInputs) (s : State) : (s.setTiming t).freeCount = s.freeCount := rfl
@[simp] theorem State.setTiming_hostReads (t : TimingInputs) (s : State) : (s.setTiming t).hostReads = s.hostReads := rfl

/-! ### storeResult -/

@[simp] theorem State.storeResult_params (c : Candidate) (s : State) : (s.storeResult c).params = s.params := rfl
@[simp] theorem State.storeResult_timing (c : Candidate) (s : State) : (s.storeResult c).timing = s.timing := rfl
@[simp] theorem State.storeResult_timingFlags (c : Candidate) (s : State) : (s.storeResult c).timingFlags = s.timingFlags := rfl
@[simp] theorem State.storeResult_pixelClockHz (c : Candidate) (s : State) : (s.storeResult c).pixelClockHz = s.pixelClockHz := rfl
@[simp] theorem State.storeResult_refreshHz (c : Candidate) (s : State) : (s.storeResult c).refreshHz = s.refreshHz := rfl
@[simp] theorem State.storeResult_packed (c : Candidate) (s : State) : (s.storeResult c).packed = s.packed := rfl
@[simp] theorem State.storeResult_vtcImage (c : Candidate) (s : State) : (s.storeResult c).vtcImage = s.vtcImage := rfl
@[simp] theorem State.storeResult_searchTargetHz (c : Candidate) (s : State) : (s.storeResult c).searchTargetHz = s.searchTargetHz := rfl
@[simp] theorem State.storeResult_toleranceHz (c : Candidate) (s : State) : (s.storeResult c).toleranceHz = s.toleranceHz := rfl
@[simp] theorem State.storeResult_resD (c : Candidate) (s : State) : (s.storeResult c).resD = BitVec.ofNat 8 c.d := rfl
@[simp] theorem State.storeResult_resM (c : Candidate) (s : State) : (s.storeResult c).resM = BitVec.ofNat 8 c.m := rfl
@[simp] theorem State.storeResult_resO (c : Candidate) (s : State) : (s.storeResult c).resO = BitVec.ofNat 8 c.o := rfl
@[simp] theorem State.storeResult_resAchievedHz (c : Candidate) (s : State) : (s.storeResult c).resAchievedHz = BitVec.ofNat 32 c.f := rfl
@[simp] theorem State.storeResult_resErrorHz (c : Candidate) (s : State) : (s.storeResult c).resErrorHz = BitVec.ofNat 32 c.e := rfl
@[simp] theorem State.storeResult_pllImage (c : Candidate) (s : State) : (s.storeResult c).pllImage = s.pllImage := rfl
@[simp] theorem State.storeResult_packedValid (c : Candidate) (s : State) : (s.storeResult c).packedValid = s.packedValid := rfl
@[simp] theorem State.storeResult_vtcImgValid (c : Candidate) (s : State) : (s.storeResult c).vtcImgValid = s.vtcImgValid := rfl
@[simp] theorem State.storeResult_targetValid (c : Candidate) (s : State) : (s.storeResult c).targetValid = s.targetValid := rfl
@[simp] theorem State.storeResult_searchValid (c : Candidate) (s : State) : (s.storeResult c).searchValid = true := rfl
@[simp] theorem State.storeResult_pllImgValid (c : Candidate) (s : State) : (s.storeResult c).pllImgValid = false := rfl
@[simp] theorem State.storeResult_error (c : Candidate) (s : State) : (s.storeResult c).error = s.error := rfl
@[simp] theorem State.storeResult_pllState (c : Candidate) (s : State) : (s.storeResult c).pllState = s.pllState := rfl
@[simp] theorem State.storeResult_seq (c : Candidate) (s : State) : (s.storeResult c).seq = s.seq := rfl
@[simp] theorem State.storeResult_faults (c : Candidate) (s : State) : (s.storeResult c).faults = s.faults := rfl
@[simp] theorem State.storeResult_history (c : Candidate) (s : State) : (s.storeResult c).history = s.history := rfl
@[simp] theorem State.storeResult_mem (c : Candidate) (s : State) : (s.storeResult c).mem = s.mem := rfl
@[simp] theorem State.storeResult_agenda (c : Candidate) (s : State) : (s.storeResult c).agenda = s.agenda := rfl
@[simp] theorem State.storeResult_pllAnswers (c : Candidate) (s : State) : (s.storeResult c).pllAnswers = s.pllAnswers := rfl
@[simp] theorem State.storeResult_freeCount (c : Candidate) (s : State) : (s.storeResult c).freeCount = s.freeCount := rfl
@[simp] theorem State.storeResult_hostReads (c : Candidate) (s : State) : (s.storeResult c).hostReads = s.hostReads := rfl

/-! ### resetEvent -/

@[simp] theorem State.resetEvent_params (s : State) : (s.resetEvent).params = s.params := rfl
@[simp] theorem State.resetEvent_timing (s : State) : (s.resetEvent).timing = .reset := rfl
@[simp] theorem State.resetEvent_timingFlags (s : State) : (s.resetEvent).timingFlags = 0 := rfl
@[simp] theorem State.resetEvent_pixelClockHz (s : State) : (s.resetEvent).pixelClockHz = 0 := rfl
@[simp] theorem State.resetEvent_refreshHz (s : State) : (s.resetEvent).refreshHz = 0 := rfl
@[simp] theorem State.resetEvent_packed (s : State) : (s.resetEvent).packed = .reset := rfl
@[simp] theorem State.resetEvent_vtcImage (s : State) : (s.resetEvent).vtcImage = .reset := rfl
@[simp] theorem State.resetEvent_searchTargetHz (s : State) : (s.resetEvent).searchTargetHz = 0 := rfl
@[simp] theorem State.resetEvent_toleranceHz (s : State) : (s.resetEvent).toleranceHz = 0xFFFFFFFF := rfl
@[simp] theorem State.resetEvent_resD (s : State) : (s.resetEvent).resD = 0 := rfl
@[simp] theorem State.resetEvent_resM (s : State) : (s.resetEvent).resM = 0 := rfl
@[simp] theorem State.resetEvent_resO (s : State) : (s.resetEvent).resO = 0 := rfl
@[simp] theorem State.resetEvent_resAchievedHz (s : State) : (s.resetEvent).resAchievedHz = 0 := rfl
@[simp] theorem State.resetEvent_resErrorHz (s : State) : (s.resetEvent).resErrorHz = 0 := rfl
@[simp] theorem State.resetEvent_pllImage (s : State) : (s.resetEvent).pllImage = .reset := rfl
@[simp] theorem State.resetEvent_packedValid (s : State) : (s.resetEvent).packedValid = false := rfl
@[simp] theorem State.resetEvent_vtcImgValid (s : State) : (s.resetEvent).vtcImgValid = false := rfl
@[simp] theorem State.resetEvent_targetValid (s : State) : (s.resetEvent).targetValid = false := rfl
@[simp] theorem State.resetEvent_searchValid (s : State) : (s.resetEvent).searchValid = false := rfl
@[simp] theorem State.resetEvent_pllImgValid (s : State) : (s.resetEvent).pllImgValid = false := rfl
@[simp] theorem State.resetEvent_error (s : State) : (s.resetEvent).error = .reset := rfl
@[simp] theorem State.resetEvent_pllState (s : State) : (s.resetEvent).pllState = .idle := rfl
@[simp] theorem State.resetEvent_seq (s : State) : (s.resetEvent).seq = .ready := rfl
@[simp] theorem State.resetEvent_faults (s : State) : (s.resetEvent).faults = s.faults := rfl
@[simp] theorem State.resetEvent_history (s : State) : (s.resetEvent).history = s.history := rfl
@[simp] theorem State.resetEvent_mem (s : State) : (s.resetEvent).mem = s.mem := rfl
@[simp] theorem State.resetEvent_agenda (s : State) : (s.resetEvent).agenda = s.agenda := rfl
@[simp] theorem State.resetEvent_pllAnswers (s : State) : (s.resetEvent).pllAnswers = s.pllAnswers := rfl
@[simp] theorem State.resetEvent_freeCount (s : State) : (s.resetEvent).freeCount = s.freeCount + HostRead.openCount s.hostReads := rfl
@[simp] theorem State.resetEvent_hostReads (s : State) : (s.resetEvent).hostReads = HostRead.settle s.hostReads s.freeCount := rfl

/-! ### settleReads and closeReads: only the host's reads and the count of drawn free values -/

@[simp] theorem State.settleReads_params (s : State) : (s.settleReads).params = s.params := rfl
@[simp] theorem State.settleReads_timing (s : State) : (s.settleReads).timing = s.timing := rfl
@[simp] theorem State.settleReads_timingFlags (s : State) : (s.settleReads).timingFlags = s.timingFlags := rfl
@[simp] theorem State.settleReads_pixelClockHz (s : State) : (s.settleReads).pixelClockHz = s.pixelClockHz := rfl
@[simp] theorem State.settleReads_refreshHz (s : State) : (s.settleReads).refreshHz = s.refreshHz := rfl
@[simp] theorem State.settleReads_packed (s : State) : (s.settleReads).packed = s.packed := rfl
@[simp] theorem State.settleReads_vtcImage (s : State) : (s.settleReads).vtcImage = s.vtcImage := rfl
@[simp] theorem State.settleReads_searchTargetHz (s : State) : (s.settleReads).searchTargetHz = s.searchTargetHz := rfl
@[simp] theorem State.settleReads_toleranceHz (s : State) : (s.settleReads).toleranceHz = s.toleranceHz := rfl
@[simp] theorem State.settleReads_resD (s : State) : (s.settleReads).resD = s.resD := rfl
@[simp] theorem State.settleReads_resM (s : State) : (s.settleReads).resM = s.resM := rfl
@[simp] theorem State.settleReads_resO (s : State) : (s.settleReads).resO = s.resO := rfl
@[simp] theorem State.settleReads_resAchievedHz (s : State) : (s.settleReads).resAchievedHz = s.resAchievedHz := rfl
@[simp] theorem State.settleReads_resErrorHz (s : State) : (s.settleReads).resErrorHz = s.resErrorHz := rfl
@[simp] theorem State.settleReads_pllImage (s : State) : (s.settleReads).pllImage = s.pllImage := rfl
@[simp] theorem State.settleReads_packedValid (s : State) : (s.settleReads).packedValid = s.packedValid := rfl
@[simp] theorem State.settleReads_vtcImgValid (s : State) : (s.settleReads).vtcImgValid = s.vtcImgValid := rfl
@[simp] theorem State.settleReads_targetValid (s : State) : (s.settleReads).targetValid = s.targetValid := rfl
@[simp] theorem State.settleReads_searchValid (s : State) : (s.settleReads).searchValid = s.searchValid := rfl
@[simp] theorem State.settleReads_pllImgValid (s : State) : (s.settleReads).pllImgValid = s.pllImgValid := rfl
@[simp] theorem State.settleReads_error (s : State) : (s.settleReads).error = s.error := rfl
@[simp] theorem State.settleReads_pllState (s : State) : (s.settleReads).pllState = s.pllState := rfl
@[simp] theorem State.settleReads_seq (s : State) : (s.settleReads).seq = s.seq := rfl
@[simp] theorem State.settleReads_faults (s : State) : (s.settleReads).faults = s.faults := rfl
@[simp] theorem State.settleReads_history (s : State) : (s.settleReads).history = s.history := rfl
@[simp] theorem State.settleReads_mem (s : State) : (s.settleReads).mem = s.mem := rfl
@[simp] theorem State.settleReads_agenda (s : State) : (s.settleReads).agenda = s.agenda := rfl
@[simp] theorem State.settleReads_pllAnswers (s : State) : (s.settleReads).pllAnswers = s.pllAnswers := rfl
@[simp] theorem State.settleReads_freeCount (s : State) :
    (s.settleReads).freeCount = s.freeCount + HostRead.openCount s.hostReads := rfl
@[simp] theorem State.settleReads_hostReads (s : State) :
    (s.settleReads).hostReads = HostRead.settle s.hostReads s.freeCount := rfl

/-- What the host's reads have of an engine step, as one update. -/
theorem State.closeReads_eq (s t : State) :
    ∃ hr n, s.closeReads t = { t with hostReads := hr, freeCount := n } := ⟨_, _, rfl⟩

@[simp] theorem State.closeReads_params (s t : State) : (s.closeReads t).params = t.params := rfl
@[simp] theorem State.closeReads_timing (s t : State) : (s.closeReads t).timing = t.timing := rfl
@[simp] theorem State.closeReads_timingFlags (s t : State) : (s.closeReads t).timingFlags = t.timingFlags := rfl
@[simp] theorem State.closeReads_pixelClockHz (s t : State) : (s.closeReads t).pixelClockHz = t.pixelClockHz := rfl
@[simp] theorem State.closeReads_refreshHz (s t : State) : (s.closeReads t).refreshHz = t.refreshHz := rfl
@[simp] theorem State.closeReads_packed (s t : State) : (s.closeReads t).packed = t.packed := rfl
@[simp] theorem State.closeReads_vtcImage (s t : State) : (s.closeReads t).vtcImage = t.vtcImage := rfl
@[simp] theorem State.closeReads_searchTargetHz (s t : State) : (s.closeReads t).searchTargetHz = t.searchTargetHz := rfl
@[simp] theorem State.closeReads_toleranceHz (s t : State) : (s.closeReads t).toleranceHz = t.toleranceHz := rfl
@[simp] theorem State.closeReads_resD (s t : State) : (s.closeReads t).resD = t.resD := rfl
@[simp] theorem State.closeReads_resM (s t : State) : (s.closeReads t).resM = t.resM := rfl
@[simp] theorem State.closeReads_resO (s t : State) : (s.closeReads t).resO = t.resO := rfl
@[simp] theorem State.closeReads_resAchievedHz (s t : State) : (s.closeReads t).resAchievedHz = t.resAchievedHz := rfl
@[simp] theorem State.closeReads_resErrorHz (s t : State) : (s.closeReads t).resErrorHz = t.resErrorHz := rfl
@[simp] theorem State.closeReads_pllImage (s t : State) : (s.closeReads t).pllImage = t.pllImage := rfl
@[simp] theorem State.closeReads_packedValid (s t : State) : (s.closeReads t).packedValid = t.packedValid := rfl
@[simp] theorem State.closeReads_vtcImgValid (s t : State) : (s.closeReads t).vtcImgValid = t.vtcImgValid := rfl
@[simp] theorem State.closeReads_targetValid (s t : State) : (s.closeReads t).targetValid = t.targetValid := rfl
@[simp] theorem State.closeReads_searchValid (s t : State) : (s.closeReads t).searchValid = t.searchValid := rfl
@[simp] theorem State.closeReads_pllImgValid (s t : State) : (s.closeReads t).pllImgValid = t.pllImgValid := rfl
@[simp] theorem State.closeReads_error (s t : State) : (s.closeReads t).error = t.error := rfl
@[simp] theorem State.closeReads_pllState (s t : State) : (s.closeReads t).pllState = t.pllState := rfl
@[simp] theorem State.closeReads_seq (s t : State) : (s.closeReads t).seq = t.seq := rfl
@[simp] theorem State.closeReads_faults (s t : State) : (s.closeReads t).faults = t.faults := rfl
@[simp] theorem State.closeReads_history (s t : State) : (s.closeReads t).history = t.history := rfl
@[simp] theorem State.closeReads_mem (s t : State) : (s.closeReads t).mem = t.mem := rfl
@[simp] theorem State.closeReads_agenda (s t : State) : (s.closeReads t).agenda = t.agenda := rfl
@[simp] theorem State.closeReads_pllAnswers (s t : State) : (s.closeReads t).pllAnswers = t.pllAnswers := rfl

/-- An engine in Ready closes no reads. -/
theorem State.closeReads_ready {s : State} (h : s.seq = .ready) (t : State) : s.closeReads t = t := by
  simp [State.closeReads, State.busy, h]

/-! ### Shared updates as one record update -/

/-- `raise` as one update (R226). -/
theorem State.raise_eq (e : ErrorCode) (op : Byte) (s : State) :
    s.raise e op = { s with seq := .ready, error := if s.error.code = .noError then ⟨e, op⟩ else s.error } := by
  unfold State.raise State.recordError State.toReady
  split <;> rfl

/-- A sequence of VTC writes as one update. -/
theorem State.vtcWrites_eq (ws : List (Word × Word)) (s : State) :
    s.vtcWrites ws = { s with
      history := s.history ++ ws.map (fun w => DeviceEvent.vtcWrite w.1 w.2)
      mem := ws.foldl (fun m w => m.writeWord (s.params.vtcBase + w.1) w.2) s.mem } := by
  induction ws generalizing s with
  | nil => simp [State.vtcWrites]
  | cons w ws ih =>
    have h := ih (s.vtcWrite w.1 w.2)
    simp only [State.vtcWrites, List.foldl_cons] at h ⊢
    rw [h]
    simp [State.vtcWrite]

/-- A sequence of PLL writes as one update. -/
theorem State.pllWrites_eq (ws : List (Word × Word)) (s : State) :
    s.pllWrites ws = { s with
      history := s.history ++ ws.map (fun w => DeviceEvent.pllWrite w.1 w.2)
      mem := ws.foldl (fun m w => m.writeWord (s.params.pllBase + w.1) w.2) s.mem } := by
  induction ws generalizing s with
  | nil => simp [State.pllWrites]
  | cons w ws ih =>
    have h := ih (s.pllWrite w.1 w.2)
    simp only [State.pllWrites, List.foldl_cons] at h ⊢
    rw [h]
    simp [State.pllWrite]

end Sys2Proof.Machine
end

