-- ==== Sys2Proof/Laws/Search.lean ====
section
/-! SUPPORT. The search of PLL_SEARCH: what it enumerates, and that it answers the first least error (R165 to R169). -/

namespace Sys2Proof.Machine

theorem mem_rangeIncl {a b i : Nat} : i ∈ rangeIncl a b ↔ a ≤ i ∧ i ≤ b := by
  simp only [rangeIncl, List.mem_map, List.mem_range]
  constructor
  · rintro ⟨j, hj, rfl⟩
    omega
  · rintro ⟨h1, h2⟩
    exact ⟨i - a, by omega, by omega⟩

theorem mem_enumPairs {d m : Nat} :
    (d, m) ∈ enumPairs ↔ (1 ≤ d ∧ d ≤ 106) ∧ (mLo d ≤ m ∧ m ≤ mHi d) := by
  simp only [enumPairs, List.mem_flatMap, List.mem_map, mem_rangeIncl, Prod.mk.injEq, Config.dMin, Config.dMax]
  constructor
  · rintro ⟨d', hd, m', hm, rfl, rfl⟩
    exact ⟨hd, hm⟩
  · rintro ⟨hd, hm⟩
    exact ⟨d, hd, m, hm, rfl, rfl⟩

theorem better_some (b c : Candidate) : better (some b) c = if c.e < b.e then some c else some b := rfl

/-- `c` is the first of the least errors of `cs`. -/
def FirstLeast (cs : List Candidate) (c : Candidate) : Prop :=
  ∃ pre post, cs = pre ++ c :: post ∧ (∀ x ∈ pre, c.e < x.e) ∧ ∀ x ∈ post, c.e ≤ x.e

theorem foldl_better_some (cs : List Candidate) (b : Candidate) :
    ∃ c, cs.foldl better (some b) = some c ∧ FirstLeast (b :: cs) c := by
  induction cs generalizing b with
  | nil => exact ⟨b, rfl, [], [], rfl, by simp, by simp⟩
  | cons x cs ih =>
    rw [List.foldl_cons, better_some]
    split
    · rename_i hlt
      obtain ⟨c, hc, pre, post, heq, hpre, hpost⟩ := ih x
      refine ⟨c, hc, b :: pre, post, by rw [heq]; rfl, fun y hy => ?_, hpost⟩
      have hcx : c.e ≤ x.e := by
        have hx : x ∈ pre ++ c :: post := heq ▸ List.mem_cons_self
        rcases List.mem_append.1 hx with h | h
        · exact Nat.le_of_lt (hpre x h)
        · rcases List.mem_cons.1 h with rfl | h
          · exact le_rfl
          · exact hpost x h
      rcases List.mem_cons.1 hy with rfl | hy
      · omega
      · exact hpre y hy
    · rename_i hge
      obtain ⟨c, hc, pre, post, heq, hpre, hpost⟩ := ih b
      refine ⟨c, hc, ?_⟩
      rcases pre with _ | ⟨p, pre⟩
      · simp only [List.nil_append, List.cons.injEq] at heq
        obtain ⟨rfl, rfl⟩ := heq
        exact ⟨[], x :: cs, rfl, by simp, fun y hy => by
          rcases List.mem_cons.1 hy with rfl | hy
          · omega
          · exact hpost y hy⟩
      · simp only [List.cons_append, List.cons.injEq] at heq
        obtain ⟨rfl, rfl⟩ := heq
        refine ⟨b :: x :: pre, post, rfl, fun y hy => ?_, hpost⟩
        have hb := hpre b List.mem_cons_self
        rcases List.mem_cons.1 hy with rfl | hy
        · exact hb
        · rcases List.mem_cons.1 hy with rfl | hy
          · omega
          · exact hpre y (List.mem_cons_of_mem _ hy)

/-- The fold over candidates answers the first least error of a list that is not empty (R165). -/
theorem foldl_better_none {cs : List Candidate} (h : cs ≠ []) :
    ∃ c, cs.foldl better none = some c ∧ FirstLeast cs c := by
  cases cs with
  | nil => exact absurd rfl h
  | cons b cs => exact foldl_better_some cs b

theorem enumPairs_ne_nil : enumPairs ≠ [] :=
  List.ne_nil_of_mem (mem_enumPairs.2 (by decide : (1 ≤ 1 ∧ 1 ≤ 106) ∧ (mLo 1 ≤ 6 ∧ 6 ≤ mHi 1)))

/-- A result always exists (R169), and it is the first least error in enumeration order (R165). -/
theorem pllSearch_spec (t : Nat) :
    ∃ c, pllSearch t = some c ∧ FirstLeast (enumPairs.map fun p => candidate t p.1 p.2) c :=
  foldl_better_none (by simpa using enumPairs_ne_nil)

theorem pllSearch_isSome (t : Nat) : (pllSearch t).isSome = true := by
  obtain ⟨c, hc, -⟩ := pllSearch_spec t
  simp [hc]

/-- The enumeration is ascending in D, then in M (R165). -/
theorem enumPairs_sorted : enumPairs.Pairwise fun p q => p.1 < q.1 ∨ (p.1 = q.1 ∧ p.2 < q.2) := by
  have hr : ∀ a b : Nat, (rangeIncl a b).Pairwise (· < ·) := by
    intro a b
    rw [rangeIncl, List.pairwise_map]
    exact List.Pairwise.imp (fun h => by omega) List.pairwise_lt_range
  rw [enumPairs, List.pairwise_flatMap]
  refine ⟨fun d _ => ?_, List.Pairwise.imp (fun {d e} h => ?_) (hr _ _)⟩
  · rw [List.pairwise_map]
    exact List.Pairwise.imp (fun h => .inr ⟨rfl, h⟩) (hr _ _)
  · intro x hx y hy
    simp only [List.mem_map] at hx hy
    obtain ⟨_, _, rfl⟩ := hx
    obtain ⟨_, _, rfl⟩ := hy
    exact .inl h

end Sys2Proof.Machine
end

