-- ==== Sys2Proof/Laws/Commands.lean ====
section
/-! SUPPORT. What each command's meaning answers, once: one lemma per case of its rule. Later proofs cite these. -/

namespace Sys2Proof.Machine

/-- `TimingInputs.valid` is R28 as it is written. -/
theorem timing_valid_iff (t : TimingInputs) : t.valid = true ↔ ValidTiming t := by
  simp only [TimingInputs.valid, axisValid, ValidTiming, Bool.and_eq_true, decide_eq_true_eq]
  constructor
  · rintro ⟨⟨⟨⟨h1, h2⟩, h3⟩, h4⟩, ⟨⟨h5, h6⟩, h7⟩, h8⟩
    exact ⟨h1, h5, ⟨h2, h3, h4⟩, h6, h7, h8⟩
  · rintro ⟨h1, h5, ⟨h2, h3, h4⟩, h6, h7, h8⟩
    exact ⟨⟨⟨⟨h1, h2⟩, h3⟩, h4⟩, ⟨⟨h5, h6⟩, h7⟩, h8⟩

theorem execDerivePacked_valid {s : State} (h : s.timing.valid = true) :
    execDerivePacked s = .next { s with
      packed := packTiming s.params.ppc.toNat s.timing s.timingFlags
      packedValid := true
      seq := .ready } := by
  simp [execDerivePacked, h, State.toReady]

theorem execDerivePacked_invalid {s : State} (h : s.timing.valid = false) :
    execDerivePacked s = .next { s with
      packed := s.freePacked
      packedValid := s.packedValid || s.packedFinishes
      seq := if s.packedFinishes then .ready else s.seq
      faults := s.faults.add .invalidTiming
      freeCount := s.freeCount + 12 } := by
  simp [execDerivePacked, h, State.fault, State.drew]

theorem execDeriveVtc_eq (s : State) :
    execDeriveVtc s = .next { s with
      vtcImage := deriveVtcImage s.params s.timing
      vtcImgValid := true
      faults := if s.timing.valid then s.faults else s.faults.add .invalidTiming
      seq := .ready } := by
  cases h : s.timing.valid <;> simp [execDeriveVtc, h, State.faultIf, State.fault, State.toReady]

theorem execVtcWrite_ready {s : State} (h : s.vtcImgValid = true) :
    execVtcWrite s = .next (s.vtcWrites s.vtcImage.writes).toReady := by
  simp [execVtcWrite, h]

theorem execVtcWrite_notReady {s : State} (h : s.vtcImgValid = false) :
    execVtcWrite s = .next (s.raise .notReady 0x03) := by
  simp [execVtcWrite, h]

theorem execClkPrescale_fits {s : State} (h : 5 * s.pixelClockHz.toNat ≤ 0xFFFFFFFF) :
    execClkPrescale s = .next { s with
      searchTargetHz := BitVec.ofNat 32 (5 * s.pixelClockHz.toNat)
      targetValid := true
      searchValid := false
      seq := .ready } := by
  simp only [execClkPrescale, Config.prescale]
  split
  · omega
  · rfl

theorem execClkPrescale_overflows {s : State} (h : 0xFFFFFFFF < 5 * s.pixelClockHz.toNat) :
    execClkPrescale s = .next (s.raise .domainError 0x04) := by
  simp only [execClkPrescale, Config.prescale]
  split
  · rfl
  · omega

theorem execPllSearch_notReady {s : State} (h : s.targetValid = false) :
    execPllSearch s = .next (s.raise .notReady 0x05) := by
  simp [execPllSearch, h]

theorem execPllSearch_zero {s : State} (h : s.targetValid = true) (hz : s.searchTargetHz = 0) :
    execPllSearch s = .next (s.raise .domainError 0x05) := by
  simp [execPllSearch, h, hz]

/-- The case in which a search is made: the result is the first least error, stored, and compared with the tolerance. -/
theorem execPllSearch_found {s : State} (h : s.targetValid = true) (hz : s.searchTargetHz ≠ 0) :
    ∃ c, FirstLeast (enumPairs.map fun p => candidate s.searchTargetHz.toNat p.1 p.2) c ∧
      execPllSearch s = .next (if s.toleranceHz.toNat < c.e
        then (s.storeResult c).raise .unreachableFrequency 0x05 else (s.storeResult c).toReady) := by
  obtain ⟨c, hc, hleast⟩ := pllSearch_spec s.searchTargetHz.toNat
  refine ⟨c, hleast, ?_⟩
  simp only [execPllSearch, h, hz, hc, Bool.not_true, Bool.false_eq_true, if_false]
  split <;> rfl

theorem execPllPack_notReady {s : State} (h : s.searchValid = false) :
    execPllPack s = .next (s.raise .notReady 0x06) := by
  simp [execPllPack, h]

theorem execPllPack_outOfRange {s : State} (h : s.searchValid = true) (hr : ¬ s.tripleInRange) :
    execPllPack s = .next s.packDomainError := by
  unfold State.tripleInRange at hr
  simp only [execPllPack, h, Bool.not_true, Bool.false_eq_true, if_false]
  split
  · rfl
  · split
    · rfl
    · split
      · rfl
      · exact absurd (by omega) hr

theorem execPllPack_inRange {s : State} (h : s.searchValid = true) (hr : s.tripleInRange) :
    execPllPack s = .next { s with
      pllImage := packImage s.params s.resD.toNat s.resM.toNat s.resO.toNat
      pllImgValid := true
      seq := .ready } := by
  obtain ⟨h1, h2, h3, h4, h5, h6⟩ := hr
  simp only [execPllPack, h, Bool.not_true, Bool.false_eq_true, if_false]
  rw [if_neg (by omega), if_neg (by omega), if_neg (by omega)]
  rfl

theorem execPllWrite_notReady {s : State} (h : s.pllImgValid = false) :
    execPllWrite s = .next (s.raise .notReady 0x07) := by
  simp [execPllWrite, h]

theorem execPllWrite_ready {s : State} (h : s.pllImgValid = true) :
    execPllWrite s = .next { (s.faultIf (s.pllState != .idle) .pllSequence).pllWrites s.pllImage.writes with
      pllState := s.pllState.afterWrite
      seq := .ready } := by
  simp [execPllWrite, h, State.toReady]

/-- Every command answers a next state. -/
theorem exec_next (i : Instr) (s : State) : ∃ t, exec i s = .next t := by
  cases i
  case nop => exact ⟨_, rfl⟩
  case derivePacked =>
    cases h : s.timing.valid
    · exact ⟨_, execDerivePacked_invalid h⟩
    · exact ⟨_, execDerivePacked_valid h⟩
  case deriveVtc => exact ⟨_, execDeriveVtc_eq s⟩
  case vtcWrite =>
    cases h : s.vtcImgValid
    · exact ⟨_, execVtcWrite_notReady h⟩
    · exact ⟨_, execVtcWrite_ready h⟩
  case clkPrescale =>
    by_cases h : 5 * s.pixelClockHz.toNat ≤ 0xFFFFFFFF
    · exact ⟨_, execClkPrescale_fits h⟩
    · exact ⟨_, execClkPrescale_overflows (by omega)⟩
  case pllSearch =>
    cases h : s.targetValid
    · exact ⟨_, execPllSearch_notReady h⟩
    · by_cases hz : s.searchTargetHz = 0
      · exact ⟨_, execPllSearch_zero h hz⟩
      · obtain ⟨c, -, hc⟩ := execPllSearch_found h hz
        exact ⟨_, hc⟩
  case pllPack =>
    cases h : s.searchValid
    · exact ⟨_, execPllPack_notReady h⟩
    · by_cases hr : s.tripleInRange
      · exact ⟨_, execPllPack_inRange h hr⟩
      · exact ⟨_, execPllPack_outOfRange h hr⟩
  case pllWrite =>
    cases h : s.pllImgValid
    · exact ⟨_, execPllWrite_notReady h⟩
    · exact ⟨_, execPllWrite_ready h⟩
  case pllStart => exact ⟨_, rfl⟩
  case pllStop => exact ⟨_, rfl⟩
  case clearError => exact ⟨_, rfl⟩

theorem execPllStart_eq (s : State) :
    execPllStart s = .next { s with
      history := s.history ++ [.pllWrite 0x00 0x00000001]
      mem := s.mem.writeWord (s.params.pllBase + 0x00) 0x00000001
      faults := if s.pllState = .configured then s.faults else s.faults.add .pllSequence
      seq := .pollStart 0 } := by
  by_cases h : s.pllState = .configured <;>
    simp [execPllStart, State.faultIf, State.fault, State.pllWrite, h]

theorem execPllStop_eq (s : State) :
    execPllStop s = .next { s with
      history := s.history ++ [.pllWrite 0x00 0x00000000]
      mem := s.mem.writeWord (s.params.pllBase + 0x00) 0x00000000
      seq := .pollStop 0 } := rfl

/-- `execVtcWrite_ready` as one update. -/
theorem execVtcWrite_eq {s : State} (h : s.vtcImgValid = true) :
    execVtcWrite s = .next { s with
      history := s.history ++ s.vtcImage.writes.map (fun w => DeviceEvent.vtcWrite w.1 w.2)
      mem := s.vtcImage.writes.foldl (fun m w => m.writeWord (s.params.vtcBase + w.1) w.2) s.mem
      seq := .ready } := by
  rw [execVtcWrite_ready h, State.vtcWrites_eq]
  simp only [State.toReady]

/-- `execPllWrite_ready` as one update. -/
theorem execPllWrite_eq {s : State} (h : s.pllImgValid = true) :
    execPllWrite s = .next { s with
      history := s.history ++ s.pllImage.writes.map (fun w => DeviceEvent.pllWrite w.1 w.2)
      mem := s.pllImage.writes.foldl (fun m w => m.writeWord (s.params.pllBase + w.1) w.2) s.mem
      faults := if s.pllState = .idle then s.faults else s.faults.add .pllSequence
      pllState := s.pllState.afterWrite
      seq := .ready } := by
  rw [execPllWrite_ready h, State.pllWrites_eq]
  by_cases hs : s.pllState = .idle <;> simp [State.faultIf, State.fault, hs]

theorem bool_cases (b : Bool) : b = false ∨ b = true := by cases b <;> simp

/-- Everything a command can do. A raised error is none of `noError`, `invalidTiming` and `busyWrite`. -/
theorem exec_cases {i : Instr} {s t : State} (h : exec i s = .next t) :
    (i = .nop ∧ t = { s with seq := .ready }) ∨
    (i = .derivePacked ∧ s.timing.valid = true ∧ t = { s with
      packed := packTiming s.params.ppc.toNat s.timing s.timingFlags, packedValid := true, seq := .ready }) ∨
    (i = .derivePacked ∧ s.timing.valid = false ∧ t = { s with
      packed := s.freePacked
      packedValid := s.packedValid || s.packedFinishes
      seq := if s.packedFinishes then .ready else s.seq
      faults := s.faults.add .invalidTiming
      freeCount := s.freeCount + 12 }) ∨
    (i = .deriveVtc ∧ t = { s with
      vtcImage := deriveVtcImage s.params s.timing
      vtcImgValid := true
      faults := if s.timing.valid then s.faults else s.faults.add .invalidTiming
      seq := .ready }) ∨
    (i = .vtcWrite ∧ s.vtcImgValid = true ∧ t = { s with
      history := s.history ++ s.vtcImage.writes.map (fun w => DeviceEvent.vtcWrite w.1 w.2)
      mem := s.vtcImage.writes.foldl (fun m w => m.writeWord (s.params.vtcBase + w.1) w.2) s.mem
      seq := .ready }) ∨
    (i = .clkPrescale ∧ ∃ v, t = { s with
      searchTargetHz := v, targetValid := true, searchValid := false, seq := .ready }) ∨
    (i = .pllSearch ∧ s.targetValid = true ∧ ∃ c er,
      (er = s.error ∨ s.error.code = .noError ∧ er = ⟨.unreachableFrequency, 0x05⟩) ∧
      t = { s.storeResult c with error := er, seq := .ready }) ∨
    (i = .pllPack ∧ s.tripleInRange ∧ t = { s with
      pllImage := packImage s.params s.resD.toNat s.resM.toNat s.resO.toNat
      pllImgValid := true
      seq := .ready }) ∨
    (i = .pllPack ∧ t = { s with
      pllImgValid := false
      seq := .ready
      error := if s.error.code = .noError then ⟨.domainError, 0x06⟩ else s.error }) ∨
    (i = .pllWrite ∧ s.pllImgValid = true ∧ t = { s with
      history := s.history ++ s.pllImage.writes.map (fun w => DeviceEvent.pllWrite w.1 w.2)
      mem := s.pllImage.writes.foldl (fun m w => m.writeWord (s.params.pllBase + w.1) w.2) s.mem
      faults := if s.pllState = .idle then s.faults else s.faults.add .pllSequence
      pllState := s.pllState.afterWrite
      seq := .ready }) ∨
    (i = .pllStart ∧ t = { s with
      history := s.history ++ [.pllWrite 0x00 0x00000001]
      mem := s.mem.writeWord (s.params.pllBase + 0x00) 0x00000001
      faults := if s.pllState = .configured then s.faults else s.faults.add .pllSequence
      seq := .pollStart 0 }) ∨
    (i = .pllStop ∧ t = { s with
      history := s.history ++ [.pllWrite 0x00 0x00000000]
      mem := s.mem.writeWord (s.params.pllBase + 0x00) 0x00000000
      seq := .pollStop 0 }) ∨
    (i = .clearError ∧ t = { s with error := .reset, seq := .ready }) ∨
    (∃ e op, (i = .vtcWrite ∧ s.vtcImgValid = false ∨ i = .clkPrescale ∨ i = .pllSearch ∨
        i = .pllPack ∧ s.searchValid = false ∨ i = .pllWrite ∧ s.pllImgValid = false) ∧
      (e = .notReady ∨ e = .domainError) ∧
      t = { s with seq := .ready, error := if s.error.code = .noError then ⟨e, op⟩ else s.error }) := by
  cases i
  case nop =>
    cases h
    exact .inl ⟨rfl, rfl⟩
  case derivePacked =>
    change execDerivePacked s = _ at h
    rcases bool_cases s.timing.valid with hv | hv
    · rw [execDerivePacked_invalid hv] at h
      cases h
      exact .inr (.inr (.inl ⟨rfl, hv, rfl⟩))
    · rw [execDerivePacked_valid hv] at h
      cases h
      exact .inr (.inl ⟨rfl, hv, rfl⟩)
  case deriveVtc =>
    change execDeriveVtc s = _ at h
    rw [execDeriveVtc_eq] at h
    cases h
    exact .inr (.inr (.inr (.inl ⟨rfl, rfl⟩)))
  case vtcWrite =>
    change execVtcWrite s = _ at h
    rcases bool_cases s.vtcImgValid with hv | hv
    · rw [execVtcWrite_notReady hv, State.raise_eq] at h
      cases h
      iterate 13 right
      exact ⟨_, _, .inl ⟨rfl, hv⟩, .inl rfl, rfl⟩
    · rw [execVtcWrite_eq hv] at h
      cases h
      iterate 4 right
      exact .inl ⟨rfl, hv, rfl⟩
  case clkPrescale =>
    change execClkPrescale s = _ at h
    by_cases hb : 5 * s.pixelClockHz.toNat ≤ 0xFFFFFFFF
    · rw [execClkPrescale_fits hb] at h
      cases h
      iterate 5 right
      exact .inl ⟨rfl, _, rfl⟩
    · rw [execClkPrescale_overflows (by omega), State.raise_eq] at h
      cases h
      iterate 13 right
      exact ⟨_, _, .inr (.inl rfl), .inr rfl, rfl⟩
  case pllSearch =>
    change execPllSearch s = _ at h
    rcases bool_cases s.targetValid with hv | hv
    · rw [execPllSearch_notReady hv, State.raise_eq] at h
      cases h
      iterate 13 right
      exact ⟨_, _, .inr (.inr (.inl rfl)), .inl rfl, rfl⟩
    · by_cases hz : s.searchTargetHz = 0
      · rw [execPllSearch_zero hv hz, State.raise_eq] at h
        cases h
        iterate 13 right
        exact ⟨_, _, .inr (.inr (.inl rfl)), .inr rfl, rfl⟩
      · obtain ⟨c, -, hc⟩ := execPllSearch_found hv hz
        rw [hc] at h
        cases h
        iterate 6 right
        left
        refine ⟨rfl, hv, c, ?_⟩
        split
        · rw [State.raise_eq]
          by_cases hn : s.error.code = .noError
          · exact ⟨_, .inr ⟨hn, rfl⟩, by simp [State.storeResult, State.afterResultWrite, hn]⟩
          · exact ⟨_, .inl rfl, by simp [State.storeResult, State.afterResultWrite, hn]⟩
        · exact ⟨_, .inl rfl, rfl⟩
  case pllPack =>
    change execPllPack s = _ at h
    rcases bool_cases s.searchValid with hv | hv
    · rw [execPllPack_notReady hv, State.raise_eq] at h
      cases h
      iterate 13 right
      exact ⟨_, _, .inr (.inr (.inr (.inl ⟨rfl, hv⟩))), .inl rfl, rfl⟩
    · by_cases hr : s.tripleInRange
      · rw [execPllPack_inRange hv hr] at h
        cases h
        iterate 7 right
        exact .inl ⟨rfl, hr, rfl⟩
      · rw [execPllPack_outOfRange hv hr, State.packDomainError, State.raise_eq] at h
        cases h
        iterate 8 right
        exact .inl ⟨rfl, rfl⟩
  case pllWrite =>
    change execPllWrite s = _ at h
    rcases bool_cases s.pllImgValid with hv | hv
    · rw [execPllWrite_notReady hv, State.raise_eq] at h
      cases h
      iterate 13 right
      exact ⟨_, _, .inr (.inr (.inr (.inr ⟨rfl, hv⟩))), .inl rfl, rfl⟩
    · rw [execPllWrite_eq hv] at h
      cases h
      iterate 9 right
      exact .inl ⟨rfl, hv, rfl⟩
  case pllStart =>
    change execPllStart s = _ at h
    rw [execPllStart_eq] at h
    cases h
    iterate 10 right
    exact .inl ⟨rfl, rfl⟩
  case pllStop =>
    cases h
    iterate 11 right
    exact .inl ⟨rfl, rfl⟩
  case clearError =>
    cases h
    iterate 12 right
    exact .inl ⟨rfl, rfl⟩

/-! ## The poll steps -/

/-- No command touches the host's reads or the schedule. -/
theorem exec_hostReads {i : Instr} {s t : State} (h : exec i s = .next t) :
    t.hostReads = s.hostReads ∧ t.agenda = s.agenda := by
  rcases exec_cases h with ⟨rfl, rfl⟩ | ⟨rfl, -, rfl⟩ | ⟨rfl, -, rfl⟩ | ⟨rfl, rfl⟩ | ⟨rfl, -, rfl⟩ | ⟨rfl, _, rfl⟩ |
    ⟨rfl, -, _, _, -, rfl⟩ | ⟨rfl, -, rfl⟩ | ⟨rfl, rfl⟩ | ⟨rfl, -, rfl⟩ | ⟨rfl, rfl⟩ | ⟨rfl, rfl⟩ | ⟨rfl, rfl⟩ |
    ⟨_, _, -, -, rfl⟩ <;> simp [State.storeResult, State.afterResultWrite]

/-- What a poll step of PLL_START answers (R196). -/
theorem pollStartStep_eq (k : Nat) (s : State) :
    pollStartStep k s =
      if s.pllAnswer.getLsbD 0 then { s.pllRead 0x04 with pllState := .running, seq := .ready }
      else if s.params.pollLimit ≤ k + 1 then
        ({ (s.pllRead 0x04).pllWrite 0x00 0x00000000 with pllState := .idle }).raise .hardwareTimeout 0x08
      else { s.pllRead 0x04 with seq := .pollStart (k + 1) } := rfl

/-- What a poll step of PLL_STOP answers (R201). -/
theorem pollStopStep_eq (k : Nat) (s : State) :
    pollStopStep k s =
      if !s.pllAnswer.getLsbD 0 then { s.pllRead 0x04 with pllState := .idle, seq := .ready }
      else if s.params.pollLimit ≤ k + 1 then
        ({ s.pllRead 0x04 with pllState := .idle }).raise .hardwareTimeout 0x09
      else { s.pllRead 0x04 with seq := .pollStop (k + 1) } := rfl

/-- The STATUS read of a poll step, as one update. -/
theorem pllRead_eq (off : Word) (s : State) :
    ∃ ans n, s.pllRead off = { s with
      history := s.history ++ [.pllRead off s.pllAnswer], pllAnswers := ans, freeCount := n } := by
  unfold State.pllRead
  simp only
  split
  · exact ⟨_, s.freeCount, rfl⟩
  · exact ⟨s.pllAnswers, _, rfl⟩

/-- Everything a poll step of PLL_START can do. -/
theorem pollStartStep_cases (k : Nat) (s : State) : ∃ ans n,
    pollStartStep k s = { s with
      history := s.history ++ [.pllRead 0x04 s.pllAnswer], pllAnswers := ans, freeCount := n
      pllState := .running, seq := .ready } ∨
    (k + 1 < s.params.pollLimit ∧ pollStartStep k s = { s with
      history := s.history ++ [.pllRead 0x04 s.pllAnswer], pllAnswers := ans, freeCount := n
      seq := .pollStart (k + 1) }) ∨
    pollStartStep k s = { s with
      history := s.history ++ [.pllRead 0x04 s.pllAnswer, .pllWrite 0x00 0x00000000]
      pllAnswers := ans, freeCount := n
      mem := s.mem.writeWord (s.params.pllBase + 0x00) 0x00000000
      pllState := .idle, seq := .ready
      error := if s.error.code = .noError then ⟨.hardwareTimeout, 0x08⟩ else s.error } := by
  obtain ⟨ans, n, h⟩ := pllRead_eq 0x04 s
  refine ⟨ans, n, ?_⟩
  rw [pollStartStep_eq, h]
  split
  · exact .inl rfl
  · split
    · refine .inr (.inr ?_)
      rw [State.raise_eq]
      simp [State.pllWrite]
    · exact .inr (.inl ⟨by omega, rfl⟩)

/-- Everything a poll step of PLL_STOP can do. -/
theorem pollStopStep_cases (k : Nat) (s : State) : ∃ ans n,
    pollStopStep k s = { s with
      history := s.history ++ [.pllRead 0x04 s.pllAnswer], pllAnswers := ans, freeCount := n
      pllState := .idle, seq := .ready } ∨
    (k + 1 < s.params.pollLimit ∧ pollStopStep k s = { s with
      history := s.history ++ [.pllRead 0x04 s.pllAnswer], pllAnswers := ans, freeCount := n
      seq := .pollStop (k + 1) }) ∨
    pollStopStep k s = { s with
      history := s.history ++ [.pllRead 0x04 s.pllAnswer], pllAnswers := ans, freeCount := n
      pllState := .idle, seq := .ready
      error := if s.error.code = .noError then ⟨.hardwareTimeout, 0x09⟩ else s.error } := by
  obtain ⟨ans, n, h⟩ := pllRead_eq 0x04 s
  refine ⟨ans, n, ?_⟩
  rw [pollStopStep_eq, h]
  split
  · exact .inl rfl
  · split
    · refine .inr (.inr ?_)
      rw [State.raise_eq]
    · exact .inr (.inl ⟨by omega, rfl⟩)

end Sys2Proof.Machine
end

