-- ==== Sys2Proof/Laws/Flags.lean ====
section
/-! SUPPORT. The bits of STATUS, of ERROR and of the polarity flags. -/

namespace Sys2Proof.Machine

/-- Bits [31:16] of a pair are its high half. -/
theorem halves_eq (hi lo : BitVec 16) : halves hi lo = (hi.setWidth 32 <<< 16) ||| lo.setWidth 32 := by
  apply BitVec.eq_of_getLsbD_eq
  intro i hi'
  simp only [halves, BitVec.getLsbD_append, BitVec.getLsbD_or, BitVec.getLsbD_shiftLeft, BitVec.getLsbD_setWidth]
  by_cases h : i < 16
  · simp [h, hi']
  · have e : i - 16 < 32 := by omega
    have hlo : lo.getLsbD i = false := BitVec.getLsbD_of_ge _ _ (by omega)
    simp [h, hi', e, hlo]

theorem halves_lo (hi lo : BitVec 16) : (halves hi lo).extractLsb' 0 16 = lo := by
  apply BitVec.eq_of_getLsbD_eq
  intro i hi'
  simp only [halves, BitVec.getLsbD_extractLsb', BitVec.getLsbD_append, Nat.zero_add]
  simp [hi']

theorem halves_hi (hi lo : BitVec 16) : (halves hi lo).extractLsb' 16 16 = hi := by
  apply BitVec.eq_of_getLsbD_eq
  intro i hi'
  simp only [halves, BitVec.getLsbD_extractLsb', BitVec.getLsbD_append]
  have e1 : ¬ 16 + i < 16 := by omega
  have e2 : 16 + i - 16 = i := by omega
  simp [hi', e1, e2]

/-- The polarity bits of R126. -/
theorem polarityBits_bits : ∀ fl : BitVec 3, (polarityBits fl).getLsbD 0 = !fl.getLsbD 0 ∧
    (polarityBits fl).getLsbD 1 = !fl.getLsbD 1 ∧ (polarityBits fl).getLsbD 2 = fl.getLsbD 2 := by
  decide

theorem err_eq (s : State) : s.err = true ↔ s.error.code ≠ .noError := by
  unfold State.err
  cases s.error.code <;> simp [ErrorCode.num]

theorem busy_iff (s : State) : s.busy = true ↔ s.seq ≠ .ready := by
  unfold State.busy
  cases s.seq <;> simp

/-- The fields of STATUS (R23). -/
theorem statusWord_fields (s : State) :
    s.statusWord.getLsbD 0 = s.busy ∧ s.statusWord.extractLsb' 1 2 = s.pllState.code ∧
    s.statusWord.getLsbD 3 = false ∧ s.statusWord.getLsbD 4 = s.err ∧
    s.statusWord.getLsbD 5 = s.packedValid ∧ s.statusWord.getLsbD 6 = s.vtcImgValid ∧
    s.statusWord.getLsbD 7 = s.targetValid ∧ s.statusWord.getLsbD 8 = s.searchValid ∧
    s.statusWord.getLsbD 9 = s.pllImgValid ∧ s.statusWord.extractLsb' 10 22 = 0 := by
  unfold State.statusWord
  generalize s.busy = a
  generalize s.err = b
  generalize s.packedValid = c
  generalize s.vtcImgValid = d
  generalize s.targetValid = e
  generalize s.searchValid = f
  generalize s.pllImgValid = g
  cases s.pllState <;> cases a <;> cases b <;> cases c <;> cases d <;> cases e <;> cases f <;> cases g <;> decide

/-- ERROR as a number (R25). -/
theorem errorWord_toNat (s : State) :
    s.errorWord.toNat = 256 * s.error.opcode.toNat + s.error.code.num.toNat := by
  unfold State.errorWord
  have h1 := s.error.opcode.isLt
  have h2 := s.error.code.num.isLt
  simp only [BitVec.toNat_append]
  rw [← Nat.shiftLeft_add_eq_or_of_lt h2, Nat.shiftLeft_eq]
  simp [Nat.shiftLeft_eq]
  omega

/-- The rows of the register map: each register is at its offset, and each name is that register's. -/
theorem engineWindowRows_offset : ∀ x ∈ engineWindowRows, x.2.1.offset = x.1 ∧ EngineReg.ofName x.2.2 = some x.2.1 := by
  decide

/-- Every register has its row. -/
theorem mem_engineWindowRows (r : EngineReg) : (r.offset, r, r.name) ∈ engineWindowRows := by
  cases r <;> decide

end Sys2Proof.Machine
end

