-- ==== Sys2Proof/Laws/Memory.lean ====
section
/-! SUPPORT. The laws of the device memory: a read after a write, other bytes left alone, the canonical form kept. -/

namespace Sys2Proof.Machine

/-! ## One byte -/

theorem Memory.readByte_writeByte (m : Memory) (a : Nat) (v : Byte) (b : Nat) :
    Memory.readByte (Memory.writeByte m a v) b = if b = a then some v else Memory.readByte m b := by
  induction m with
  | nil => simp [Memory.writeByte, Memory.readByte]
  | cons c m ih =>
    obtain ⟨k, w⟩ := c
    by_cases h1 : a < k
    · simp [Memory.writeByte, Memory.readByte, h1]
    · by_cases h2 : a = k
      · subst h2
        by_cases hb : b = a <;> simp [Memory.writeByte, Memory.readByte, hb]
      · by_cases hb : b = a
        · subst hb
          simp [Memory.writeByte, Memory.readByte, h1, h2, ih]
        · simp [Memory.writeByte, Memory.readByte, h1, h2, ih, hb]

theorem Memory.writeByte_mem {m : Memory} {a : Nat} {v : Byte} {c : Host.Cell}
    (h : c ∈ Memory.writeByte m a v) : c.1 = a ∨ c ∈ m := by
  induction m with
  | nil =>
    simp [Memory.writeByte] at h
    simp [h]
  | cons d m ih =>
    obtain ⟨k, w⟩ := d
    unfold Memory.writeByte at h
    split at h
    · rcases List.mem_cons.1 h with rfl | h
      · exact .inl rfl
      · exact .inr h
    · split at h
      · rcases List.mem_cons.1 h with rfl | h
        · exact .inl rfl
        · exact .inr (List.mem_cons_of_mem _ h)
      · rcases List.mem_cons.1 h with rfl | h
        · exact .inr List.mem_cons_self
        · exact (ih h).imp id (List.mem_cons_of_mem _)

theorem Memory.wf_nil : Memory.wf [] := by simp [Memory.wf]

theorem Memory.wf_writeByte {m : Memory} (hm : Memory.wf m) {a : Nat} (ha : a < 2 ^ 32) (v : Byte) :
    Memory.wf (Memory.writeByte m a v) := by
  obtain ⟨hp, hb⟩ := hm
  refine ⟨?_, fun c hc => ?_⟩
  · induction m with
    | nil => simp [Memory.writeByte]
    | cons d m ih =>
      obtain ⟨k, w⟩ := d
      have hp' := List.pairwise_cons.1 hp
      unfold Memory.writeByte
      split
      · rename_i hlt
        refine List.pairwise_cons.2 ⟨fun c hc => ?_, hp⟩
        rcases List.mem_cons.1 hc with rfl | hc
        · exact hlt
        · exact Nat.lt_trans hlt (hp'.1 c hc)
      · split
        · rename_i heq
          subst heq
          exact List.pairwise_cons.2 ⟨hp'.1, hp'.2⟩
        · refine List.pairwise_cons.2
            ⟨fun c hc => ?_, ih hp'.2 fun c hc => hb c (List.mem_cons_of_mem _ hc)⟩
          rcases Memory.writeByte_mem hc with h | h
          · simp only [h]
            omega
          · exact hp'.1 c h
  · rcases Memory.writeByte_mem hc with h | h
    · omega
    · exact hb c h

/-! ## One word -/

theorem Memory.wf_writeWord {m : Memory} (hm : Memory.wf m) (a v : Word) : Memory.wf (m.writeWord a v) := by
  unfold Memory.writeWord
  exact Memory.wf_writeByte (Memory.wf_writeByte (Memory.wf_writeByte (Memory.wf_writeByte hm
    (BitVec.isLt _) _) (BitVec.isLt _) _) (BitVec.isLt _) _) (BitVec.isLt _) _

/-- The four byte addresses of the word at `a` are different. -/
theorem byteAddrs_distinct (a : Word) :
    a.toNat ≠ (a + 1).toNat ∧ a.toNat ≠ (a + 2).toNat ∧ a.toNat ≠ (a + 3).toNat ∧
    (a + 1).toNat ≠ (a + 2).toNat ∧ (a + 1).toNat ≠ (a + 3).toNat ∧ (a + 2).toNat ≠ (a + 3).toNat := by
  refine ⟨?_, ?_, ?_, ?_, ?_, ?_⟩ <;> bv_omega

theorem Memory.readByte_writeWord (m : Memory) (a v : Word) (b : Nat) :
    Memory.readByte (m.writeWord a v) b =
      if b = (a + 3).toNat then some (v.extractLsb' 24 8)
      else if b = (a + 2).toNat then some (v.extractLsb' 16 8)
      else if b = (a + 1).toNat then some (v.extractLsb' 8 8)
      else if b = a.toNat then some (v.extractLsb' 0 8)
      else Memory.readByte m b := by
  simp [Memory.writeWord, Memory.readByte_writeByte]

/-- A byte outside the word at `a` is left alone. -/
theorem Memory.readByte_writeWord_of_ne (m : Memory) (a v : Word) (b : Nat)
    (h : ∀ k : Nat, k < 4 → b ≠ (a + BitVec.ofNat 32 k).toNat) :
    Memory.readByte (m.writeWord a v) b = Memory.readByte m b := by
  have h0 := h 0 (by omega)
  have h1 : b ≠ (a + 1).toNat := h 1 (by omega)
  have h2 : b ≠ (a + 2).toNat := h 2 (by omega)
  have h3 : b ≠ (a + 3).toNat := h 3 (by omega)
  simp only [BitVec.add_zero] at h0
  rw [Memory.readByte_writeWord, if_neg h3, if_neg h2, if_neg h1, if_neg h0]

theorem wordOfBytes_bytes (v : Word) :
    wordOfBytes (v.extractLsb' 0 8) (v.extractLsb' 8 8) (v.extractLsb' 16 8) (v.extractLsb' 24 8) = v := by
  apply BitVec.eq_of_getLsbD_eq
  intro i hi
  unfold wordOfBytes
  simp only [BitVec.getLsbD_append, BitVec.getLsbD_extractLsb']
  by_cases h1 : i < 8
  · simp [h1]
  · by_cases h2 : i < 16
    · have e : i - 8 < 8 := by omega
      have e2 : 8 + (i - 8) = i := by omega
      simp [h1, e, e2]
    · by_cases h3 : i < 24
      · have e : ¬ i - 8 < 8 := by omega
        have e2 : i - 8 - 8 < 8 := by omega
        have e3 : 16 + (i - 8 - 8) = i := by omega
        simp [h1, e, e2, e3]
      · have e : ¬ i - 8 < 8 := by omega
        have e2 : ¬ i - 8 - 8 < 8 := by omega
        have e3 : i - 8 - 8 - 8 < 8 := by omega
        have e4 : 24 + (i - 8 - 8 - 8) = i := by omega
        simp [h1, e, e2, e3, e4]

theorem Memory.readWord_writeWord (m : Memory) (a v : Word) : (m.writeWord a v).readWord a = some v := by
  obtain ⟨h1, h2, h3, h4, h5, h6⟩ := byteAddrs_distinct a
  simp only [Memory.readWord, Memory.readByte_writeWord, h1, h2, h3, h4, h5, h6, if_true, if_false]
  simp [wordOfBytes_bytes]

/-- A word at another place, at least 4 bytes away in both directions, is left alone. -/
theorem Memory.readWord_writeWord_of_far (m : Memory) (a b v : Word)
    (h : 4 ≤ (b - a).toNat ∧ 4 ≤ (a - b).toNat) : (m.writeWord a v).readWord b = m.readWord b := by
  have ha := a.isLt
  have hb := b.isLt
  simp only [BitVec.toNat_sub] at h
  have key : ∀ j : Nat, j < 4 → ∀ k : Nat, k < 4 →
      (b + BitVec.ofNat 32 j).toNat ≠ (a + BitVec.ofNat 32 k).toNat := by
    intro j hj k hk
    simp only [BitVec.toNat_add, BitVec.toNat_ofNat]
    omega
  have e : ∀ j : Nat, j < 4 → Memory.readByte (m.writeWord a v) (b + BitVec.ofNat 32 j).toNat =
      Memory.readByte m (b + BitVec.ofNat 32 j).toNat :=
    fun j hj => Memory.readByte_writeWord_of_ne m a v _ (key j hj)
  have e0 := e 0 (by omega)
  have e1 : Memory.readByte (m.writeWord a v) (b + 1).toNat = Memory.readByte m (b + 1).toNat := e 1 (by omega)
  have e2 : Memory.readByte (m.writeWord a v) (b + 2).toNat = Memory.readByte m (b + 2).toNat := e 2 (by omega)
  have e3 : Memory.readByte (m.writeWord a v) (b + 3).toNat = Memory.readByte m (b + 3).toNat := e 3 (by omega)
  simp only [BitVec.add_zero] at e0
  unfold Memory.readWord
  rw [e0, e1, e2, e3]

/-! ## A sequence of words -/

theorem Memory.wf_writeWords {m : Memory} (hm : Memory.wf m) (base : Word) (ws : List (Word × Word)) :
    Memory.wf (ws.foldl (fun m w => Memory.writeWord m (base + w.1) w.2) m) := by
  induction ws generalizing m with
  | nil => exact hm
  | cons w ws ih => exact ih (Memory.wf_writeWord hm _ _)

/-- Bytes outside every word written are left alone. -/
theorem Memory.readByte_writeWords_of_ne (m : Memory) (base : Word) (ws : List (Word × Word)) (b : Nat)
    (h : ∀ w ∈ ws, ∀ k : Nat, k < 4 → b ≠ (base + w.1 + BitVec.ofNat 32 k).toNat) :
    Memory.readByte (ws.foldl (fun m w => Memory.writeWord m (base + w.1) w.2) m) b = Memory.readByte m b := by
  induction ws generalizing m with
  | nil => rfl
  | cons w ws ih =>
    rw [List.foldl_cons, ih _ fun x hx => h x (List.mem_cons_of_mem _ hx)]
    exact Memory.readByte_writeWord_of_ne _ _ _ _ (h w List.mem_cons_self)

/-- Two offsets whose words do not meet. -/
abbrev apart (x y : Word) : Prop := 4 ≤ (y - x).toNat ∧ 4 ≤ (x - y).toNat

theorem Memory.readWord_writeWords_of_far (m : Memory) (base off : Word) (ws : List (Word × Word))
    (h : ∀ w ∈ ws, apart w.1 off) :
    (ws.foldl (fun m w => Memory.writeWord m (base + w.1) w.2) m).readWord (base + off) =
      m.readWord (base + off) := by
  induction ws generalizing m with
  | nil => rfl
  | cons w ws ih =>
    rw [List.foldl_cons, ih _ fun x hx => h x (List.mem_cons_of_mem _ hx)]
    apply Memory.readWord_writeWord_of_far
    have hw := h w List.mem_cons_self
    unfold apart at hw
    rwa [show base + off - (base + w.1) = off - w.1 by abel, show base + w.1 - (base + off) = w.1 - off by abel]

/-- After a sequence of writes to words that do not meet, each word reads as written. -/
theorem Memory.readWord_writeWords (m : Memory) (base : Word) (ws : List (Word × Word))
    (hp : ws.Pairwise fun x y => apart x.1 y.1) (w : Word × Word) (hw : w ∈ ws) :
    (ws.foldl (fun m w => Memory.writeWord m (base + w.1) w.2) m).readWord (base + w.1) = some w.2 := by
  induction ws generalizing m with
  | nil => simp at hw
  | cons x ws ih =>
    obtain ⟨hx, hrest⟩ := List.pairwise_cons.1 hp
    rcases List.mem_cons.1 hw with rfl | hw
    · rw [List.foldl_cons, Memory.readWord_writeWords_of_far _ _ _ _ fun y hy => (hx y hy).symm]
      exact Memory.readWord_writeWord _ _ _
    · exact ih _ hrest hw

theorem VtcImage.writes_apart (i : VtcImage) : i.writes.Pairwise fun x y => apart x.1 y.1 := by
  simp [VtcImage.writes, apart]

theorem PllImage.writes_apart (i : PllImage) : i.writes.Pairwise fun x y => apart x.1 y.1 := by
  simp [PllImage.writes, apart]

end Sys2Proof.Machine
end

