-- ==== Sys2Proof/Laws/Packing.lean ====
section
/-! SUPPORT. The deficit-correction loop of DERIVE_PACKED (41_timing_converter.md R122). -/

namespace Sys2Proof.Machine

theorem packedBlank_succ (n fp sy bp : Nat) : packedBlank n (fp + 1) sy bp = packedBlank n fp sy bp + n := by
  unfold packedBlank
  ring

theorem packedBlank_add (n fp sy bp k : Nat) :
    packedBlank n (fp + k) sy bp = packedBlank n fp sy bp + k * n := by
  unfold packedBlank
  ring

/-- The loop exits after some `k` increments: the packed blanking has reached `orig`, and had not after any fewer. -/
theorem reconcile_spec {n : Nat} (hn : 1 ≤ n) (sy bp orig fuel fp iter : Nat)
    (hf : orig ≤ packedBlank n fp sy bp + fuel) :
    ∃ k, reconcile n sy bp orig fuel fp iter = (fp + k, iter + k) ∧
      orig ≤ packedBlank n (fp + k) sy bp ∧ ∀ j, j < k → packedBlank n (fp + j) sy bp < orig := by
  induction fuel generalizing fp iter with
  | zero => exact ⟨0, rfl, by simpa using hf, by simp⟩
  | succ fuel ih =>
    unfold reconcile
    split
    · rename_i hlt
      obtain ⟨k, hk, hge, hmin⟩ := ih (fp + 1) (iter + 1) (by rw [packedBlank_succ]; omega)
      refine ⟨k + 1, by rw [hk]; congr 1 <;> omega, by rwa [show fp + (k + 1) = fp + 1 + k by omega], fun j hj => ?_⟩
      rcases j with _ | j
      · exact hlt
      · rw [show fp + (j + 1) = fp + 1 + j by omega]
        exact hmin j (by omega)
    · rename_i hge
      exact ⟨0, rfl, by simpa using hge, by simp⟩

end Sys2Proof.Machine
end

