-- ==== Sys2Proof/Laws/PerInstr.lean ====
section
/-! SUPPORT. Statements made per command: the family RoundTrip, the command word of each command and its decoding (30_encoding.md R82). -/

namespace Sys2Proof.Laws.RoundTrip

/-- The word of a command has RSVD 0 and decodes to that command, and the command is well formed. -/
def Statement (i : Instr) : Prop :=
  reservedOf (encode i) = 0 ∧ decodeWord (encode i) = .ok i ∧ i.wellFormed = true

theorem nop : Statement .nop := ⟨by decide, rfl, rfl⟩
theorem derivePacked : Statement .derivePacked := ⟨by decide, rfl, rfl⟩
theorem deriveVtc : Statement .deriveVtc := ⟨by decide, rfl, rfl⟩
theorem vtcWrite : Statement .vtcWrite := ⟨by decide, rfl, rfl⟩
theorem clkPrescale : Statement .clkPrescale := ⟨by decide, rfl, rfl⟩
theorem pllSearch : Statement .pllSearch := ⟨by decide, rfl, rfl⟩
theorem pllPack : Statement .pllPack := ⟨by decide, rfl, rfl⟩
theorem pllWrite : Statement .pllWrite := ⟨by decide, rfl, rfl⟩
theorem pllStart : Statement .pllStart := ⟨by decide, rfl, rfl⟩
theorem pllStop : Statement .pllStop := ⟨by decide, rfl, rfl⟩
theorem clearError : Statement .clearError := ⟨by decide, rfl, rfl⟩

end Sys2Proof.Laws.RoundTrip
end

