-- ==== Sys2Proof/Laws/Step.lean ====
section
/-! SUPPORT. Everything a step can do, said once: inversion lemmas for the engine, the host and the step. -/

namespace Sys2Proof.Machine

/-- A command word that decodes is that command's word. -/
theorem decodeWord_eq_ok {w : Word} {i : Instr} (h : decodeWord w = .ok i) : w = encode i := by
  obtain ⟨hr, hm⟩ := decodeWord_ok h
  have hw : w = reservedOf w ++ opcodeOf w := by
    apply BitVec.eq_of_getLsbD_eq
    intro j hj
    unfold reservedOf opcodeOf
    rw [BitVec.getLsbD_append]
    by_cases h8 : j < 8
    · simp [h8]
    · have e1 : j - 8 < 24 := by omega
      have e2 : 8 + (j - 8) = j := by omega
      simp [h8, e1, e2]
  rw [hw, hr]
  simp only [opcodeTable, List.mem_cons, Prod.mk.injEq, List.not_mem_nil, or_false] at hm
  rcases hm with h | h | h | h | h | h | h | h | h | h | h <;>
  · obtain ⟨h1, rfl⟩ := h
    rw [h1]
    rfl

theorem decodeWord_encode (i : Instr) : decodeWord (encode i) = .ok i := by
  cases i <;> rfl

/-- One engine step is one of: nothing (Ready), a command, an illegal word, a poll step of PLL_START or of PLL_STOP. -/
theorem engineStep_cases {s t : State} (h : engineStep s = .next t) :
    (s.seq = .ready ∧ t = s) ∨
    (∃ i, s.seq = .pending (encode i) ∧ exec i s = .next t) ∨
    (∃ w, s.seq = .pending w ∧ (∀ i, w ≠ encode i) ∧ t = s.raise .illegalCommand (opcodeOf w)) ∨
    (∃ k, s.seq = .pollStart k ∧ t = pollStartStep k s) ∨
    (∃ k, s.seq = .pollStop k ∧ t = pollStopStep k s) := by
  unfold engineStep at h
  split at h
  · rename_i hs
    cases h
    exact .inl ⟨hs, rfl⟩
  · rename_i w hs
    unfold runWord at h
    split at h
    · rename_i i hi
      exact .inr (.inl ⟨i, decodeWord_eq_ok hi ▸ hs, h⟩)
    · rename_i r hr
      cases h
      refine .inr (.inr (.inl ⟨w, hs, fun i hi => ?_, rfl⟩))
      rw [hi, decodeWord_encode] at hr
      cases hr
  · rename_i k hs
    cases h
    exact .inr (.inr (.inr (.inl ⟨k, hs, rfl⟩)))
  · rename_i k hs
    cases h
    exact .inr (.inr (.inr (.inr ⟨k, hs, rfl⟩)))

theorem engineStep_next (s : State) : ∃ t, engineStep s = .next t := by
  unfold engineStep
  split
  · exact ⟨_, rfl⟩
  · unfold runWord
    split
    · exact exec_next _ _
    · exact ⟨_, rfl⟩
  · exact ⟨_, rfl⟩
  · exact ⟨_, rfl⟩

theorem busy_eq_false {s : State} : s.busy = false ↔ s.seq = .ready := by
  unfold State.busy
  cases s.seq <;> simp

/-- A host read changes only what the host has read. -/
theorem hostRead_eq (off : Nat) (s : State) :
    ∃ r, hostRead off s = { s with hostReads := s.hostReads ++ [r] } := ⟨_, rfl⟩

theorem hostRead_ready {off : Nat} {s : State} (h : s.seq = .ready) :
    hostRead off s = { s with hostReads := s.hostReads ++ [.got (readOffset off s)] } := by
  simp [hostRead, busy_eq_false.2 h]

theorem hostRead_busy {off : Nat} {s : State} (h : s.seq ≠ .ready) :
    hostRead off s = { s with hostReads := s.hostReads ++ [.raced off (readOffset off s) (readOffset off s)] } := by
  simp [hostRead, (busy_iff s).2 h]

/-- A turn of the engine is its step, with the host's open reads closed over it. -/
theorem engineTurn_of_next {s t : State} (h : engineStep s = .next t) : engineTurn s = .next (s.closeReads t) := by
  simp only [engineTurn, h]

/-- A turn of the engine that answers a next state, by the step it makes. -/
theorem engineTurn_cases {s u : State} (h : engineTurn s = .next u) :
    ∃ t, engineStep s = .next t ∧ u = s.closeReads t := by
  unfold engineTurn at h
  split at h
  · rename_i t ht
    cases h
    exact ⟨t, ht, rfl⟩
  · cases h
  · cases h

/-! ### The host's reads over a turn of the engine (R74) -/

@[simp] theorem HostRead.settle_length (rs : List HostRead) (n : Nat) : (HostRead.settle rs n).length = rs.length := by
  induction rs generalizing n with
  | nil => rfl
  | cons r rs ih => cases r <;> simp [HostRead.settle, ih]

/-- A settled read is the word it was, or one of the two words of the race. -/
theorem HostRead.settle_get {rs : List HostRead} {n i : Nat} {r : HostRead} (h : rs[i]? = some r) :
    (∀ v, r = .got v → (HostRead.settle rs n)[i]? = some (.got v)) ∧
    (∀ off b a, r = .raced off b a →
      (HostRead.settle rs n)[i]? = some (.got b) ∨ (HostRead.settle rs n)[i]? = some (.got a)) := by
  induction rs generalizing n i with
  | nil => simp at h
  | cons x xs ih =>
    cases i with
    | zero =>
      simp only [List.getElem?_cons_zero, Option.some.injEq] at h
      subst h
      cases x with
      | got v => simp [HostRead.settle]
      | raced off b a => cases hc : Config.freeChoice n <;> simp [HostRead.settle, hc]
    | succ i =>
      simp only [List.getElem?_cons_succ] at h
      cases x with
      | got v => simpa [HostRead.settle] using ih h
      | raced off b a => simpa [HostRead.settle] using ih h

/-- No race is open among settled reads. -/
theorem HostRead.settle_got (rs : List HostRead) (n : Nat) : ∀ r ∈ HostRead.settle rs n, ∃ v, r = .got v := by
  induction rs generalizing n with
  | nil => simp [HostRead.settle]
  | cons x xs ih =>
    cases x <;> simp only [HostRead.settle, List.forall_mem_cons] <;> exact ⟨⟨_, rfl⟩, ih _⟩

/-- The host's reads after an engine step that goes on with the command. -/
theorem closeReads_busy {s t : State} (hs : s.seq ≠ .ready) (ht : t.seq ≠ .ready) :
    s.closeReads t = { t with hostReads := t.hostReads.map (HostRead.note s t) } := by
  simp [State.closeReads, (busy_iff s).2 hs, (busy_iff t).2 ht]

/-- The host's reads after an engine step that ends the command. -/
theorem closeReads_ends {s t : State} (hs : s.seq ≠ .ready) (ht : t.seq = .ready) :
    s.closeReads t = State.settleReads { t with hostReads := t.hostReads.map (HostRead.note s t) } := by
  simp [State.closeReads, State.settleReads, (busy_iff s).2 hs, busy_eq_false.2 ht]

/-- Reads that are in no race stay as they are: over a step, when settled, and over the end of a command. -/
theorem HostRead.note_got {rs : List HostRead} (h : ∀ r ∈ rs, ∃ v, r = .got v) (s t : State) :
    rs.map (HostRead.note s t) = rs := by
  induction rs with
  | nil => rfl
  | cons r rs ih =>
    obtain ⟨v, rfl⟩ := h r (by simp)
    simp [HostRead.note, ih (fun x hx => h x (by simp [hx]))]

theorem HostRead.settle_of_got {rs : List HostRead} (h : ∀ r ∈ rs, ∃ v, r = .got v) (n : Nat) :
    HostRead.settle rs n = rs ∧ HostRead.openCount rs = 0 := by
  induction rs with
  | nil => exact ⟨rfl, rfl⟩
  | cons r rs ih =>
    obtain ⟨v, rfl⟩ := h r (by simp)
    simp [HostRead.settle, HostRead.openCount, ih (fun x hx => h x (by simp [hx]))]

theorem closeReads_got {s t : State} (h : ∀ r ∈ t.hostReads, ∃ v, r = .got v) : s.closeReads t = t := by
  simp [State.closeReads, HostRead.note_got h, (HostRead.settle_of_got h _).1, (HostRead.settle_of_got h 0).2]

/-- What a register reads does not depend on the schedule, the host's reads or the count of drawn free values. -/
theorem readOffset_congr (off : Nat) (s : State) (ag : List Turn) (hr : List HostRead) (n : Nat) :
    readOffset off { s with agenda := ag, hostReads := hr, freeCount := n } = readOffset off s := by
  unfold readOffset
  cases EngineReg.ofOffset off with
  | none => rfl
  | some r => cases r <;> rfl

/-- A host write to a register is one of: a command issued, one input changed with its valid-bit effect, nothing. -/
theorem write_cases (r : EngineReg) (v : Word) (s : State) :
    (r = .cmd ∧ r.write v s = { s with seq := .pending v }) ∨
    (∃ tm fl, r.offset < 0x034 ∧ r.write v s =
      { s with timing := tm, timingFlags := fl, packedValid := false, vtcImgValid := false }) ∨
    (r = .pixelClockHz ∧ r.write v s = { s with pixelClockHz := v, targetValid := false }) ∨
    (r = .searchTargetHz ∧ r.write v s = { s with searchTargetHz := v, targetValid := true, searchValid := false }) ∨
    (∃ rf tol, r.write v s = { s with refreshHz := rf, toleranceHz := tol }) ∨
    (∃ d m o, (r = .resD ∨ r = .resM ∨ r = .resO) ∧ r.write v s =
      { s with resD := d, resM := m, resO := o, searchValid := true, pllImgValid := false }) := by
  cases r
  case cmd => exact .inl ⟨rfl, rfl⟩
  case hActive => exact .inr (.inl ⟨_, s.timingFlags, by decide, rfl⟩)
  case hSyncStart => exact .inr (.inl ⟨_, s.timingFlags, by decide, rfl⟩)
  case hSyncEnd => exact .inr (.inl ⟨_, s.timingFlags, by decide, rfl⟩)
  case hTotal => exact .inr (.inl ⟨_, s.timingFlags, by decide, rfl⟩)
  case vActive => exact .inr (.inl ⟨_, s.timingFlags, by decide, rfl⟩)
  case vSyncStart => exact .inr (.inl ⟨_, s.timingFlags, by decide, rfl⟩)
  case vSyncEnd => exact .inr (.inl ⟨_, s.timingFlags, by decide, rfl⟩)
  case vTotal => exact .inr (.inl ⟨_, s.timingFlags, by decide, rfl⟩)
  case timingFlags => exact .inr (.inl ⟨s.timing, _, by decide, rfl⟩)
  case pixelClockHz => exact .inr (.inr (.inl ⟨rfl, rfl⟩))
  case searchTargetHz => exact .inr (.inr (.inr (.inl ⟨rfl, rfl⟩)))
  case refreshHz => exact .inr (.inr (.inr (.inr (.inl ⟨v, s.toleranceHz, rfl⟩))))
  case toleranceHz => exact .inr (.inr (.inr (.inr (.inl ⟨s.refreshHz, v, rfl⟩))))
  case resD => exact .inr (.inr (.inr (.inr (.inr ⟨_, s.resM, s.resO, .inl rfl, rfl⟩))))
  case resM => exact .inr (.inr (.inr (.inr (.inr ⟨s.resD, _, s.resO, .inr (.inl rfl), rfl⟩))))
  case resO => exact .inr (.inr (.inr (.inr (.inr ⟨s.resD, s.resM, _, .inr (.inr rfl), rfl⟩))))
  all_goals exact .inr (.inr (.inr (.inr (.inl ⟨s.refreshHz, s.toleranceHz, rfl⟩))))

theorem ofOffset_offset (r : EngineReg) : EngineReg.ofOffset r.offset = some r := by
  cases r <;> rfl

theorem offset_of_ofOffset {off : Nat} {r : EngineReg} (h : EngineReg.ofOffset off = some r) : r.offset = off := by
  have := List.find?_some h
  simpa using this

/-- A host access that answers a next state is an aligned word access in the window: a write dropped because the engine is
busy, a write to a register or to a reserved offset, or a read. -/
theorem hostAccess_cases {a : HostAccess} {s t : State} (h : hostAccess a s = .next t) :
    a.size = .word ∧ (a.addr - s.params.engineBase).toNat < 256 ∧ (a.addr - s.params.engineBase).toNat % 4 = 0 ∧
    ((∃ v, a.kind = .write v ∧ s.seq ≠ .ready ∧ t = s.recordError .busyWrite 0xFF) ∨
     (∃ v, ∃ r : EngineReg, a.kind = .write v ∧ s.seq = .ready ∧ (a.addr - s.params.engineBase).toNat = r.offset ∧ t = r.write v s) ∨
     (∃ v, a.kind = .write v ∧ s.seq = .ready ∧
        EngineReg.ofOffset (a.addr - s.params.engineBase).toNat = none ∧ t = s) ∨
     (a.kind = .read ∧ t = hostRead (a.addr - s.params.engineBase).toNat s)) := by
  unfold hostAccess at h
  simp only [Config.engineWindowBytes] at h
  by_cases hsz : a.size ≠ .word
  · rw [if_pos hsz] at h
    cases h
  · rw [if_neg hsz] at h
    by_cases hoff : 256 ≤ (a.addr - s.params.engineBase).toNat
    · rw [if_pos hoff] at h
      cases h
    · rw [if_neg hoff] at h
      by_cases hal : (a.addr - s.params.engineBase).toNat % 4 ≠ 0
      · rw [if_pos hal] at h
        cases h
      · rw [if_neg hal] at h
        refine ⟨not_not.1 hsz, by omega, by omega, ?_⟩
        split at h
        · rename_i v hk
          cases h
          unfold hostWrite
          split
          · rename_i hb
            exact .inl ⟨v, hk, fun hr => (by rw [busy_eq_false.2 hr] at hb; cases hb), rfl⟩
          · rename_i hb
            have hr := busy_eq_false.1 (Bool.not_eq_true _ ▸ hb)
            unfold writeOffset
            split
            · rename_i r hreg
              exact .inr (.inl ⟨v, r, hk, hr, (offset_of_ofOffset hreg).symm, rfl⟩)
            · rename_i hreg
              exact .inr (.inr (.inl ⟨v, hk, hr, hreg, rfl⟩))
        · rename_i hk
          cases h
          exact .inr (.inr (.inr ⟨hk, rfl⟩))

/-- An aligned word access at an offset of the window is answered. -/
theorem hostAccess_at {s : State} {off : Nat} (hoff : off < 256) (hal : off % 4 = 0) (k : AccessKind) :
    hostAccess ⟨s.params.engineBase + BitVec.ofNat 32 off, .word, k⟩ s =
      match k with
      | .write v => .next (hostWrite off v s)
      | .read => .next (hostRead off s) := by
  have he : (s.params.engineBase + BitVec.ofNat 32 off - s.params.engineBase).toNat = off := by
    rw [show s.params.engineBase + BitVec.ofNat 32 off - s.params.engineBase = BitVec.ofNat 32 off by abel]
    rw [BitVec.toNat_ofNat]
    omega
  cases k <;>
  · unfold hostAccess
    simp only [he, Config.engineWindowBytes]
    rw [if_neg (by simp), if_neg (by omega), if_neg (by omega)]

/-- A round of the WAIT loop changes only the host's reads and the agenda. -/
theorem hostWait_eq (s : State) :
    ∃ r ag, hostWait s = { s with hostReads := s.hostReads ++ [r], agenda := ag } := by
  unfold hostWait
  simp only [hostRead]
  split
  · exact ⟨_, _, rfl⟩
  · exact ⟨_, s.agenda, rfl⟩

/-- Everything a step can do: the engine moves, the host makes an access or waits, or the block is reset. -/
theorem step_cases {s t : State} (h : step s = .next t) :
    s.params.valid = true ∧
    ((∃ ag u, (s.agenda = [] ∧ ag = [] ∨ s.agenda = .engine :: ag) ∧ engineStep { s with agenda := ag } = .next u ∧
        t = State.closeReads { s with agenda := ag } u) ∨
     (∃ a rest, s.agenda = .host a :: rest ∧ hostAccess a { s with agenda := rest } = .next t) ∨
     (∃ rest, s.agenda = .wait :: rest ∧ t = hostWait { s with agenda := rest }) ∨
     (∃ rest, s.agenda = .reset :: rest ∧ t = State.resetEvent { s with agenda := rest })) := by
  unfold step at h
  split at h
  · rename_i hv
    refine ⟨hv, ?_⟩
    split at h
    · rename_i ha
      obtain ⟨u, hu, rfl⟩ := engineTurn_cases h
      refine .inl ⟨[], u, .inl ⟨ha, rfl⟩, ?_⟩
      rw [← ha]
      exact ⟨hu, rfl⟩
    · rename_i rest ha
      obtain ⟨u, hu, rfl⟩ := engineTurn_cases h
      exact .inl ⟨rest, u, .inr ha, hu, rfl⟩
    · rename_i a rest ha
      exact .inr (.inl ⟨a, rest, ha, h⟩)
    · rename_i rest ha
      cases h
      exact .inr (.inr (.inl ⟨rest, ha, rfl⟩))
    · rename_i rest ha
      cases h
      exact .inr (.inr (.inr ⟨rest, ha, rfl⟩))
  · cases h

/-- The step of an engine whose turn it is. -/
theorem step_engineMoves {s : State} (hv : s.params.valid = true) (h : s.engineMoves) :
    step s = engineTurn { s with agenda := s.agenda.tail } := by
  rcases h with h | ⟨r, h⟩ <;> simp only [step, hv, h, if_true, List.tail]
  rw [← h]

/-- The step of an engine that moves alone. -/
theorem step_engine {s : State} (hv : s.params.valid = true) (ha : s.agenda = []) : step s = engineTurn s := by
  simp [step, hv, ha]

/-- A run of one more step. -/
theorem run_succ (M : Host.Core) (n : Nat) (s t : M.State) (h : M.step s = .next t) : M.run (n + 1) s = M.run n t := by
  simp only [Host.Core.run, h]

/-- `run_succ` for this machine. -/
theorem core_run_succ {s t : State} (n : Nat) (h : step s = .next t) :
    Host.Core.run core (n + 1) s = Host.Core.run core n t :=
  run_succ core n s t h

end Sys2Proof.Machine
end

