-- ==== Sys2Proof/Tests/Slice0.lean ====
section
/-! SUPPORT. Tests of one step each, with results from the spec's own vectors (95_test_vectors.md V<n>) and tables, and for
every statement of Certificates/Slice0/Obligations.lean with hypotheses a concrete state that meets them. -/

namespace Sys2Proof.Machine.Tests

/-! ## A small engine -/

/-- PPC 2, POLL_LIMIT 3, both lookup tables and the VTC constants filled with recognisable words, the spec's defaults. -/
def testParams : Params where
  ppc := 2
  lockLookup := Vector.replicate 64 0xA512345678
  filterLookupLow := Vector.replicate 64 0x2C3
  vtcC68 := 0x11111111
  vtcC6C := 0x22222222
  pollLimit := 3
  engineBase := 0x43C00000
  vtcBase := 0x43C10000
  pllBase := 0x43C20000
  edgeMap := defaultEdgeMap
  divWordSource := .inputDivider
  divider := defaultDividerLayout

/-- The same engine with another PPC. -/
def withPpc (n : Word) : Params := { testParams with ppc := n }

/-- A small engine right after reset. -/
def s0 : State := State.resetWith testParams

/-- The 1080p timing of V1. -/
def t1080 : TimingInputs := ⟨1920, 2008, 2052, 2200, 1080, 1084, 1089, 1125⟩

/-- A timing with the horizontal inputs of V4 and V5. -/
def tOdd (ha hss hse ht : BitVec 16) : TimingInputs := ⟨ha, hss, hse, ht, 4, 5, 6, 7⟩

/-- A small engine with a timing and flags written. -/
def timed (p : Params) (t : TimingInputs) (fl : BitVec 3) : State :=
  { State.resetWith p with timing := t, timingFlags := fl }

/-- A small engine with a search target written. -/
def targeted (T : Word) : State := { s0 with searchTargetHz := T, targetValid := true }

/-- A small engine with a triple written. -/
def tripled (d m o : BitVec 8) : State := { s0 with resD := d, resM := m, resO := o, searchValid := true }

/-- The next state, if there is one. -/
def next? (o : Host.Outcome State Fault Refusal) : Option State :=
  match o with
  | .next s => some s
  | .fault _ => none
  | .refused _ => none

/-- What a command leaves, seen through `f`. -/
def sees {α : Type} (i : Instr) (s : State) (f : State → α) : Option α := (next? (exec i s)).map f

/-! ## Decoding: the words of R82 written out, one per command -/

theorem test_decode_nop : decodeWord 0b00000000000000000000000000000000 = .ok .nop := rfl
theorem test_decode_derivePacked : decodeWord 0b00000000000000000000000000000001 = .ok .derivePacked := rfl
theorem test_decode_deriveVtc : decodeWord 0b00000000000000000000000000000010 = .ok .deriveVtc := rfl
theorem test_decode_vtcWrite : decodeWord 0b00000000000000000000000000000011 = .ok .vtcWrite := rfl
theorem test_decode_clkPrescale : decodeWord 0b00000000000000000000000000000100 = .ok .clkPrescale := rfl
theorem test_decode_pllSearch : decodeWord 0b00000000000000000000000000000101 = .ok .pllSearch := rfl
theorem test_decode_pllPack : decodeWord 0b00000000000000000000000000000110 = .ok .pllPack := rfl
theorem test_decode_pllWrite : decodeWord 0b00000000000000000000000000000111 = .ok .pllWrite := rfl
theorem test_decode_pllStart : decodeWord 0b00000000000000000000000000001000 = .ok .pllStart := rfl
theorem test_decode_pllStop : decodeWord 0b00000000000000000000000000001001 = .ok .pllStop := rfl
theorem test_decode_clearError : decodeWord 0b00000000000000000000000000001111 = .ok .clearError := rfl

/-- The illegal words of V44. -/
theorem test_decode_illegal :
    decodeWord 0x0000000A = .error (.unassignedOpcode 0x0A) ∧ decodeWord 0x0000000E = .error (.unassignedOpcode 0x0E) ∧
    decodeWord 0x00000010 = .error (.unassignedOpcode 0x10) ∧ decodeWord 0x000000FF = .error (.unassignedOpcode 0xFF) ∧
    decodeWord 0x00000101 = .error (.reservedBitsSet 0x101) ∧
    decodeWord 0x80000005 = .error (.reservedBitsSet 0x80000005) := ⟨rfl, rfl, rfl, rfl, rfl, rfl⟩

theorem test_decode_bytes :
    decodeBytes [0x0F, 0, 0, 0, 7] = .ok (.clearError, [7]) ∧ decodeBytes [0x0F, 0, 0] = .error .truncated :=
  ⟨rfl, rfl⟩

theorem test_decodeTableWord : decodeTableWord 32 5 = some .pllSearch ∧ decodeTableWord 32 0x105 = none := by decide

/-! ## Well-formedness: one ill-formed term per check of the parameters (R10, R235). A command has no operand (R80), so no
command is ill formed. -/

theorem test_wf_params : testParams.valid = true ∧ State.reset.params.valid = true := by decide
theorem test_wf_ppc : (withPpc 0).valid = false := by decide
theorem test_wf_pollLimit : ({ testParams with pollLimit := 0 } : Params).valid = false := by decide
theorem test_wf_aligned : ({ testParams with engineBase := 0x43C00002 } : Params).valid = false ∧
    ({ testParams with vtcBase := 0x43C10001 } : Params).valid = false ∧
    ({ testParams with pllBase := 0x43C20003 } : Params).valid = false := by decide
theorem test_wf_overlap : ({ testParams with vtcBase := 0x43C000FC } : Params).valid = false ∧
    ({ testParams with pllBase := 0x43BFFFE4 } : Params).valid = false ∧
    ({ testParams with pllBase := 0x43C10090 } : Params).valid = false := by decide
/-- Windows that touch without meeting are valid. -/
theorem test_wf_adjacent : ({ testParams with vtcBase := 0x43C00100, pllBase := 0x43C00194 } : Params).valid = true := by
  decide
theorem test_wf_instr : Instr.wellFormed .pllPack = true := rfl

/-! ## The commands -/

/-- V46: CLEAR_ERROR. -/
theorem test_clearError : sees .clearError { s0 with error := ⟨.notReady, 5⟩, pllState := .running } (fun t =>
    (t.errorWord, t.statusWord)) = some (0, 4) := by decide
/-- V43: NOP leaves a recorded error. -/
theorem test_nop : sees .nop { s0 with seq := .pending 0, error := ⟨.notReady, 5⟩ } (fun t =>
    (t.errorWord, t.statusWord)) = some (0x505, 0x10) := by decide

/-- V1: 1080p at N = 2. -/
theorem test_derivePacked_1080 : sees .derivePacked (timed testParams t1080 3) (fun t => t.packed) =
    some ⟨960, 44, 22, 74, 1080, 4, 5, 36, 0, 0, 280, 280⟩ := by decide +kernel
/-- V5, the row (10, 13, 16, 19) at N = 4: three iterations. -/
theorem test_derivePacked_odd : sees .derivePacked (timed (withPpc 4) (tOdd 10 13 16 19) 4) (fun t => t.packed) =
    some ⟨2, 3, 0, 0, 4, 1, 1, 1, 7, 3, 9, 12⟩ := by decide +kernel

/-- V10: the image of 1080p. -/
theorem test_deriveVtc_1080 : sees .deriveVtc (timed testParams t1080 3) (fun t => t.vtcImage) =
    some ⟨0x03F7EF06, 0x04380780, 0x11111111, 0x22222222, 0x00000898, 0x04650465, 0x080407D8, 0x07800780, 0x0441043C,
      0x07D807D8, 0x07800780, 0x0441043C, 0x07D807D8⟩ := by decide +kernel
/-- V13: the alternative edge map. -/
theorem test_deriveVtc_syncPairs :
    sees .deriveVtc (timed { testParams with edgeMap := syncPairEdgeMap } t1080 3) (fun t =>
      (t.vtcImage.w78, t.vtcImage.w7C, t.vtcImage.w80, t.vtcImage.w90)) =
    some (0x080407D8, 0x080407D8, 0x0441043C, 0x080407D8) := by decide +kernel

/-- A state with 1080p's image. -/
def imaged : State := { s0 with vtcImage := deriveVtcImage testParams t1080, vtcImgValid := true }

/-- V14: the first write, the last write, their number. -/
theorem test_vtcWrite : sees .vtcWrite imaged (fun t => (t.history.head?, t.history.getLast?, t.history.length)) =
    some (some (.vtcWrite 0x60 0x04380780), some (.vtcWrite 0x00 0x03F7EF06), 13) := by decide +kernel
/-- V15: no image. -/
theorem test_vtcWrite_notReady : sees .vtcWrite s0 (fun t => (t.errorWord, t.history)) = some (0x305, []) := by decide

/-- V16. -/
theorem test_clkPrescale : sees .clkPrescale { s0 with pixelClockHz := 858993459 } (fun t =>
    (t.searchTargetHz, t.statusWord)) = some (0xFFFFFFFF, 0x080) := by decide
theorem test_clkPrescale_overflow : sees .clkPrescale { s0 with pixelClockHz := 858993460 } (fun t =>
    (t.searchTargetHz, t.errorWord)) = some (0, 0x403) := by decide

/-- What a search left. -/
def result (t : State) : BitVec 8 × BitVec 8 × BitVec 8 × Word × Word :=
  (t.resD, t.resM, t.resO, t.resAchievedHz, t.resErrorHz)

/-- V20, with V26's tolerance. -/
theorem test_pllSearch : sees .pllSearch { targeted 742500000 with toleranceHz := 100000 } (fun t =>
    (result t, t.errorWord)) = some ((7, 52, 1, 742857142, 357142), 0x502) := by decide +kernel
/-- V21, the row of 27 MHz. -/
theorem test_pllSearch_exact : sees .pllSearch (targeted 135000000) (fun t => (result t, t.errorWord)) =
    some ((4, 27, 5, 135000000, 0), 0) := by decide +kernel

/-- V30: the packed image. -/
theorem test_pllPack : sees .pllPack (tripled 7 52 1) (fun t => t.pllImage) =
    some ⟨0x00400041, 0x0000069A, 0, 0x000020C4, 0x12345678, 0x02C300A5⟩ := by decide +kernel
/-- V34: M is checked first, and the valid bit is cleared. -/
theorem test_pllPack_domain : sees .pllPack { tripled 7 65 1 with pllImgValid := true } (fun t =>
    (t.errorWord, t.pllImgValid)) = some (0x603, false) := by decide

/-- A state with V30's image. -/
def packed : State := { tripled 7 52 1 with pllImage := packImage testParams 7 52 1, pllImgValid := true }

/-- V36: the first four writes, and Configured. -/
theorem test_pllWrite : sees .pllWrite packed (fun t => (t.history.take 4, t.pllState, t.faults.pllSequence)) =
    some ([.pllWrite 0x08 0x00400041, .pllWrite 0x0C 0x0000069A, .pllWrite 0x10 0, .pllWrite 0x14 0x000020C4],
      .configured, false) := by decide +kernel
/-- V37: from Running. -/
theorem test_pllWrite_running : sees .pllWrite { packed with pllState := .running } (fun t =>
    (t.history.length, t.pllState, t.faults.pllSequence)) = some (6, .running, true) := by decide +kernel

/-- V38: the issuing step. -/
theorem test_pllStart : sees .pllStart { packed with pllState := .configured } (fun t =>
    (t.history, t.seq, t.faults.pllSequence)) = some ([.pllWrite 0 1], .pollStart 0, false) := by decide
/-- V42: from Idle. -/
theorem test_pllStart_idle : sees .pllStart s0 (fun t => t.faults.pllSequence) = some true := by decide
/-- V40: the issuing step. -/
theorem test_pllStop : sees .pllStop { s0 with pllState := .running } (fun t =>
    (t.history, t.seq, t.pllState, t.faults.pllSequence)) = some ([.pllWrite 0 0], .pollStop 0, .running, false) := by
  decide
/-- V39: the last poll of a start that times out (POLL_LIMIT 3). -/
theorem test_pollStart_timeout :
    let t := pollStartStep 2 { s0 with seq := .pollStart 2, pllAnswers := [0xFFFFFFFE], pllState := .configured }
    (t.history, t.pllState, t.errorWord) = ([.pllRead 4 0xFFFFFFFE, .pllWrite 0 0], .idle, 0x804) := by decide
/-- V41: a stop that times out. -/
theorem test_pollStop_timeout :
    let t := pollStopStep 2 { s0 with seq := .pollStop 2, pllAnswers := [1], pllState := .running }
    (t.history, t.pllState, t.errorWord) = ([.pllRead 4 1], .idle, 0x904) := by decide

/-- The rows of R183 and V28. -/
theorem test_divider_words :
    (([1, 2, 3, 7, 52, 63, 64, 65, 127, 128].map fun d =>
      (divWord defaultDividerLayout d, countWord defaultDividerLayout d)) : List (Word × Word)) =
    [(0x1041, 0x400041), (0x0041, 0x000041), (0x2042, 0x800042), (0x20C4, 0x8000C4), (0x069A, 0x00069A),
     (0x27E0, 0x8007E0), (0x0820, 0x000820), (0x2821, 0x800821), (0x2FC0, 0x800FC0), (0, 0)] := by decide +kernel

/-! ## Steps -/

/-- A word placed by `withFetchWord` runs as the first command after reset (V25). -/
theorem test_first_command : (next? (step (State.reset.withFetchWord 32 5))).map (fun t => t.errorWord) = some 0x505 := by
  decide
/-- V44: an illegal word. -/
theorem test_illegal_word : (next? (step (State.reset.withFetchWord 32 0x80000005))).map (fun t =>
    (t.errorWord, t.seq)) = some (0x506, .ready) := by decide
/-- V8: DERIVE_PACKED right after reset records the model fault, and no error. -/
theorem test_invalid_timing : (next? (step (State.reset.withFetchWord 32 1))).map (fun t =>
    (t.faults.invalidTiming, t.errorWord)) = some (true, 0) := by decide

/-- A small engine whose host makes one access at an offset. -/
def hosted (s : State) (off : Word) (k : AccessKind) : State :=
  { s with agenda := [.host ⟨s.params.engineBase + off, .word, k⟩] }

/-- V47: reserved bits are dropped. -/
theorem test_host_write_hActive : (next? (step (hosted s0 0x010 (.write 0x12340780)))).map (fun t =>
    EngineReg.read .hActive t) = some 0x780 := by decide
/-- R87: names are exact and case-sensitive. -/
theorem test_register_names : EngineReg.ofName "RES_D" = some .resD ∧ EngineReg.ofName "VTC_IMG_7C" = some .vtcImg7C ∧
    EngineReg.ofName "res_d" = none := by decide
/-- V47: a read-only register ignores a write. -/
theorem test_host_write_ppc : (next? (step (hosted s0 0x03C (.write 5)))).map (fun t => EngineReg.read .ppc t) = some 2 := by
  decide
/-- V45: a write while busy. -/
theorem test_host_write_busy :
    (next? (step (hosted { s0 with seq := .pollStart 0 } 0x0C4 (.write 5)))).map (fun t =>
      (t.toleranceHz, t.errorWord, t.seq)) = some (0xFFFFFFFF, 0xFF07, .pollStart 0) := by decide
/-- V43: STATUS reads 1 while a NOP is pending. -/
theorem test_host_read_status : (next? (step (hosted { s0 with seq := .pending 0 } 0x004 .read))).map (fun t =>
    t.hostReads) = some [.raced 4 1 1] := by decide
/-- R74: a read of ERROR made during PLL_START is the value before, or that of the timeout. -/
theorem test_busy_read_settles :
    (next? (step { s0 with seq := .pollStart 2, pllAnswers := [0], hostReads := [.raced 8 0 0] })).map (fun t =>
      t.hostReads) = some [.got (if Config.freeChoice 0 then 0x804 else 0)] := rfl
/-- V45, R105: when a BUSY_WRITE after the read was recorded first, the command writes no ERROR, and the read is the value
it saw. -/
theorem test_busy_read_not_written :
    (next? (step { s0 with
        seq := .pollStart 2, pllAnswers := [0], error := ⟨.busyWrite, 0xFF⟩, hostReads := [.raced 8 0 0] })).map (fun t =>
      (t.errorWord, t.hostReads)) = some (0xFF07, [.got (if Config.freeChoice 0 then 0 else 0)]) := rfl
/-- V48: a write to SEARCH_TARGET_HZ from a state with all five valid bits set. -/
theorem test_host_valid_bits :
    (next? (step (hosted { s0 with
        packedValid := true, vtcImgValid := true, targetValid := true, searchValid := true, pllImgValid := true }
      0x0C0 (.write 1)))).map (fun t => t.statusWord) = some 0x2E0 := by decide

/-! ## Witnesses: for each statement with hypotheses, states that meet them -/

theorem witness_WordDecodesExactlyWhenItIsTheCommandWord : ∀ i, ((0x0A : Word), i) ∉ commandWords := by
  intro i
  cases i <;> decide

theorem witness_BytesDecodeAndEncodeAgree : decodeBytes [9, 0, 0, 0] = .ok (.pllStop, []) := rfl

theorem witness_StepRunsThePendingCommand :
    testParams.valid = true ∧ decodeWord 0x0F = .ok .clearError ∧
    ({ s0 with seq := .pending 0x0F } : State).engineMoves ∧
    ({ s0 with seq := .pending 0x0F, agenda := [.engine] } : State).engineMoves ∧
    (∀ r ∈ ({ s0 with seq := .pending 0x0F, hostReads := [.got 5] } : State).hostReads, ∃ v, r = .got v) :=
  ⟨by decide, rfl, .inl rfl, .inr ⟨_, rfl⟩, fun _ h => ⟨5, List.mem_singleton.1 h⟩⟩

/-- A small engine with a pending word. -/
def pending (w : Word) : State := { s0 with seq := .pending w }

/-- The ends of both gaps of the opcode map, and a reserved bit with an assigned opcode. -/
theorem witness_IllegalWordRaisesIllegalCommand :
    (pending 0x0A).params.valid = true ∧ (pending 0x0A).engineMoves ∧ (pending 0x0A).seq = .pending 0x0A ∧
    IllegalWord 0x0A ∧ IllegalWord 0x0E ∧ ¬ IllegalWord 0x0F ∧ IllegalWord 0x10 ∧ IllegalWord 0xFF ∧
    IllegalWord 0x101 := by
  refine ⟨by decide, .inl rfl, rfl, ?_, ?_, ?_, ?_, ?_, ?_⟩ <;> unfold IllegalWord <;> decide

theorem witness_ReadyEngineDoesNothing :
    s0.params.valid = true ∧ s0.engineMoves ∧ ({ s0 with agenda := [.engine, .wait] } : State).engineMoves ∧
    s0.seq = .ready := ⟨by decide, .inl rfl, .inr ⟨_, rfl⟩, rfl⟩

/-- A valid timing, and one at the boundary where every part is empty. -/
theorem witness_DerivePackedComputesThePackedTiming :
    (timed testParams t1080 3).params.ppc ≠ 0 ∧ ValidTiming (timed testParams t1080 3).timing ∧
    ValidTiming ⟨1, 1, 1, 1, 1, 1, 1, 1⟩ := by
  refine ⟨by decide, ?_, ?_⟩ <;> rw [← timing_valid_iff] <;> decide

/-- The reset timing, and boundaries in active width and order. -/
theorem witness_DerivePackedOfInvalidTimingChangesOnlyItsOutputs :
    ¬ ValidTiming s0.timing ∧ ¬ ValidTiming ⟨0, 1, 1, 1, 1, 1, 1, 1⟩ ∧ ¬ ValidTiming ⟨100, 90, 95, 99, 1, 1, 1, 1⟩ := by
  refine ⟨?_, ?_, ?_⟩ <;> rw [← timing_valid_iff] <;> decide

theorem witness_PackedBlankingIsTheLeastMultiple :
    (timed testParams (tOdd 10 11 12 13) 0).params.ppc ≠ 0 ∧ ValidTiming (timed testParams (tOdd 10 11 12 13) 0).timing := by
  refine ⟨by decide, ?_⟩
  rw [← timing_valid_iff]
  decide

/-- N = 1, 2 (two iterations), 3 and 4 (three iterations: V5). -/
theorem witness_PackingLoopIterationBounds :
    ((withPpc 1).ppc ≠ 0 ∧ (withPpc 2).ppc ≠ 0 ∧ (withPpc 3).ppc ≠ 0 ∧ (withPpc 4).ppc ≠ 0) ∧ ValidTiming (tOdd 10 11 12 13) ∧
    ValidTiming (tOdd 10 13 16 19) ∧
    sees .derivePacked (timed (withPpc 2) (tOdd 10 11 12 13) 0) (fun t => t.packed.iter) = some 2 := by
  refine ⟨by decide, ?_, ?_, by decide +kernel⟩ <;> rw [← timing_valid_iff] <;> decide

theorem witness_DeriveVtcComputesTheRegisterImage :
    s0.params.edgeMap = defaultEdgeMap ∧ ValidTiming t1080 ∧ ¬ ValidTiming s0.timing := by
  refine ⟨by decide, ?_, ?_⟩ <;> rw [← timing_valid_iff] <;> decide

theorem witness_VtcImageDependsOnlyOnTheTiming :
    let s := timed testParams t1080 0
    let s' := { timed (withPpc 4) t1080 7 with pixelClockHz := 1, refreshHz := 60 }
    s.timing = s'.timing ∧ s.params.edgeMap = s'.params.edgeMap ∧ s.params.vtcC68 = s'.params.vtcC68 ∧
      s.params.vtcC6C = s'.params.vtcC6C ∧ s ≠ s' := by
  refine ⟨rfl, rfl, rfl, rfl, by decide⟩

theorem witness_VtcWriteProgramsTheVtcControlLast :
    imaged.vtcImgValid = true ∧ s0.vtcImgValid = false ∧
    outsideWords s0.params.vtcBase vtcOffsets 0x43C10064 := by
  refine ⟨rfl, rfl, ?_⟩
  intro off hoff k hk
  simp only [vtcOffsets, List.mem_cons, List.not_mem_nil, or_false] at hoff
  have hk' : k = 0 ∨ k = 1 ∨ k = 2 ∨ k = 3 := by omega
  rcases hoff with rfl | rfl | rfl | rfl | rfl | rfl | rfl | rfl | rfl | rfl | rfl | rfl | rfl <;>
    rcases hk' with rfl | rfl | rfl | rfl <;> decide

theorem witness_ClkPrescaleMultipliesByFive :
    5 * ({ s0 with pixelClockHz := 858993459 } : State).pixelClockHz.toNat ≤ 0xFFFFFFFF ∧
    0xFFFFFFFF < 5 * ({ s0 with pixelClockHz := 858993460 } : State).pixelClockHz.toNat := by decide

theorem witness_PllSearchStoresTheFirstLeastError :
    s0.targetValid = false ∧ (targeted 0).targetValid = true ∧ (targeted 0).searchTargetHz.toNat = 0 ∧
    (targeted 1).targetValid = true ∧ 1 ≤ (targeted 1).searchTargetHz.toNat ∧
    1 ≤ (targeted 0xFFFFFFFF).searchTargetHz.toNat := by decide

/-- The largest and the smallest VCO, and both ends of the output range. -/
theorem witness_SearchRoundTripsToErrorZero :
    (targeted 1200000000).searchTargetHz.toNat = 100000000 * 12 / (1 * 1) ∧
    (targeted 4687500).searchTargetHz.toNat = 100000000 * 60 / (10 * 128) ∧ (targeted 4687500).targetValid = true ∧
    max 2 (6 * 10) ≤ 60 ∧ 60 ≤ min 64 (12 * 10) := by decide

theorem witness_SearchOfExtremeTargets :
    (targeted 2400000001).targetValid = true ∧ (targeted 2400000001).toleranceHz = 0xFFFFFFFF ∧
    2400000000 < (targeted 2400000001).searchTargetHz.toNat ∧ 1 ≤ (targeted 1).searchTargetHz.toNat ∧
    (targeted 4669260).searchTargetHz.toNat ≤ 4669260 ∧ 1 ≤ (targeted 2400000000).searchTargetHz.toNat := by decide

/-- Each range at both ends, and just outside. -/
theorem witness_PllPackBuildsTheRegisterImage :
    s0.searchValid = false ∧ (tripled 1 1 1).searchValid = true ∧ (tripled 1 1 1).tripleInRange ∧
    (tripled 106 64 128).tripleInRange ∧ ¬ (tripled 7 65 1).tripleInRange ∧ ¬ (tripled 107 52 1).tripleInRange ∧
    ¬ (tripled 7 52 129).tripleInRange ∧ ¬ (tripled 7 52 0).tripleInRange := by
  unfold State.tripleInRange
  decide

theorem witness_PackReadsOnlyTheTripleAndTheTables :
    let s := tripled 7 52 1
    let s' := { tripled 7 52 1 with params := { testParams with ppc := 4, pollLimit := 9 }, pllState := .running }
    s.params.lockLookup = s'.params.lockLookup ∧ s.params.filterLookupLow = s'.params.filterLookupLow ∧
      s.params.divider = s'.params.divider ∧ s.params.divWordSource = s'.params.divWordSource ∧ s.resD = s'.resD ∧ s.resM = s'.resM ∧ s.resO = s'.resO ∧ s.searchValid = true ∧
      s'.searchValid = true ∧ s ≠ s' := by
  refine ⟨rfl, rfl, rfl, rfl, rfl, rfl, rfl, rfl, rfl, fun h => ?_⟩
  exact absurd (congrArg (fun u => u.params.pollLimit) h) (by decide)

theorem witness_PllWriteProgramsThePll :
    packed.pllImgValid = true ∧ packed.pllState = .idle ∧ s0.pllImgValid = false ∧
    ({ packed with pllState := .running } : State).pllImgValid = true := by decide +kernel

/-- A poll after `k` reads, with an answer waiting. -/
def polling (q : Seq) (ws : List Word) : State := { s0 with seq := q, pllAnswers := ws }

/-- Success, one more poll, and the last poll (POLL_LIMIT 3). -/
theorem witness_PollStartStepFollowsTheStatusBit :
    (polling (.pollStart 0) [1]).params.valid = true ∧ (polling (.pollStart 0) [1]).engineMoves ∧
    (polling (.pollStart 0) [1]).pllAnswer.getLsbD 0 = true ∧
    (polling (.pollStart 1) [0xFFFFFFFE]).pllAnswer.getLsbD 0 = false ∧
    1 + 1 < (polling (.pollStart 1) [0]).params.pollLimit ∧ (polling (.pollStart 2) [0]).params.pollLimit ≤ 2 + 1 :=
  ⟨by decide, .inl rfl, by decide, by decide, by decide, by decide⟩

theorem witness_PollStopStepFollowsTheStatusBit :
    (polling (.pollStop 0) [0]).params.valid = true ∧ (polling (.pollStop 0) [0]).engineMoves ∧
    (polling (.pollStop 0) [0]).pllAnswer.getLsbD 0 = false ∧ (polling (.pollStop 1) [1]).pllAnswer.getLsbD 0 = true ∧
    1 + 1 < (polling (.pollStop 1) [1]).params.pollLimit ∧ (polling (.pollStop 2) [1]).params.pollLimit ≤ 2 + 1 :=
  ⟨by decide, .inl rfl, by decide, by decide, by decide, by decide⟩

/-- Two answers 0 then 1 (success), and three answers 0 (timeout). -/
theorem witness_StartPollRunsToRunningOrTimesOut :
    let s := polling (.pollStart 0) [0, 0, 1]
    let s' := polling (.pollStart 0) [0, 0, 0]
    s.params.valid = true ∧ s.agenda = [] ∧ s.seq = .pollStart 0 ∧ (∀ w ∈ [(0 : Word), 0, 0], w.getLsbD 0 = false) ∧
    [(0 : Word), 0].length < s.params.pollLimit ∧ s.pllAnswers = [0, 0] ++ 1 :: [] ∧
    [(0 : Word), 0, 0].length = s'.params.pollLimit ∧ s'.pllAnswers = [0, 0, 0] ++ [] :=
  ⟨by decide, rfl, rfl, by simp, by decide, rfl, rfl, rfl⟩

theorem witness_EveryCommandEndsWithinThePollLimit :
    (pending 8).params.valid = true ∧ (pending 8).agenda = [] ∧ (pending 8).seq = .pending 8 ∧
    ((8 : Word) = 1 → ValidTiming (pending 8).timing) ∧
    ((1 : Word) = 1 → ValidTiming ({ pending 1 with timing := t1080 } : State).timing) := by
  refine ⟨by decide, rfl, rfl, fun h => absurd h (by decide), fun _ => ?_⟩
  rw [← timing_valid_iff]
  decide

/-- A step of a state with a recorded error that is neither CLEAR_ERROR nor a reset: PLL_PACK, which fails too. -/
theorem witness_FirstErrorIsKept :
    ∃ t, step { pending 6 with error := ⟨.notReady, 5⟩ } = .next t ∧
      ({ pending 6 with error := ⟨.notReady, 5⟩ } : State).error.code ≠ .noError ∧ t.error = ⟨.notReady, 5⟩ :=
  ⟨_, rfl, by decide, rfl⟩

theorem witness_ModelFaultsAreNeverCleared :
    ∃ t, step { s0 with faults := ⟨true, true⟩, agenda := [.reset] } = .next t ∧ t.faults = ⟨true, true⟩ :=
  ⟨_, rfl, rfl⟩

/-- A PLL_WRITE from Idle, and a last poll of PLL_STOP from Running. -/
theorem witness_PllStateChangesOnlyWhereStated :
    (∃ t, step { packed with seq := .pending 7 } = .next t ∧ t.pllState ≠ packed.pllState) ∧
    (∃ t, step { polling (.pollStop 0) [0] with pllState := .running } = .next t ∧ t.pllState ≠ .running) :=
  ⟨⟨_, rfl, by decide⟩, ⟨_, rfl, by decide⟩⟩

/-- Each bit set by a step. -/
theorem witness_ValidBitsAreSetOnlyByTheirWriters :
    (∃ t, step { pending 1 with timing := t1080 } = .next t ∧ t.packedValid = true) ∧
    (∃ t, step (pending 2) = .next t ∧ t.vtcImgValid = true) ∧
    (∃ t, step (hosted s0 0x0C0 (.write 5)) = .next t ∧ t.targetValid = true) ∧
    (∃ t, step (hosted s0 0x0D0 (.write 5)) = .next t ∧ t.searchValid = true) ∧
    (∃ t, step { tripled 7 52 1 with seq := .pending 6 } = .next t ∧ t.pllImgValid = true) :=
  ⟨⟨_, rfl, rfl⟩, ⟨_, rfl, rfl⟩, ⟨_, rfl, rfl⟩, ⟨_, rfl, rfl⟩, ⟨_, rfl, rfl⟩⟩

theorem witness_HistoryGrowsAndParametersStay :
    ∃ t, step (pending 9) = .next t ∧ t.history = [.pllWrite 0 0] := ⟨_, rfl, rfl⟩

theorem witness_HostWriteToCmdIssuesTheCommand :
    (hosted s0 0 (.write 5)).params.valid = true ∧ (hosted s0 0 (.write 5)).seq = .ready ∧
    (hosted (pending 4) 0 (.write 5)).seq ≠ .ready ∧
    (hosted s0 0 (.write 5)).agenda = .host ⟨(hosted s0 0 (.write 5)).params.engineBase, .word, .write 5⟩ :: [] := by
  decide

/-- For RES_O, the RW register with the highest offset, and H_ACTIVE, the lowest. -/
theorem witness_HostWriteStoresTheKeptBits :
    (hosted s0 0x0D0 (.write 0x1FF)).params.valid = true ∧ (hosted s0 0x0D0 (.write 0x1FF)).seq = .ready ∧
    EngineReg.keptBits .resO = some 0xFF ∧ EngineReg.keptBits .hActive = some 0xFFFF ∧
    (hosted s0 0x0D0 (.write 0x1FF)).agenda =
      .host ⟨(hosted s0 0x0D0 (.write 0x1FF)).params.engineBase + BitVec.ofNat 32 (EngineReg.offset .resO), .word,
        .write 0x1FF⟩ :: [] := by decide

/-- One register of each case of the valid-bit effects, at the ends of the timing inputs. -/
theorem witness_HostWriteStoresTheKeptBits_cases :
    (∀ r ∈ [EngineReg.hActive, .timingFlags, .pixelClockHz, .refreshHz, .searchTargetHz, .toleranceHz, .resD, .resO],
      ∃ mask, r.keptBits = some mask) ∧
    EngineReg.offset .timingFlags < 0x034 ∧ ¬ EngineReg.offset .pixelClockHz < 0x034 := by
  refine ⟨?_, by decide, by decide⟩
  intro r hr
  simp only [List.mem_cons, List.not_mem_nil, or_false] at hr
  rcases hr with rfl | rfl | rfl | rfl | rfl | rfl | rfl | rfl <;> exact ⟨_, rfl⟩

/-- A read-only register, and the first and last reserved offsets. -/
theorem witness_HostWriteToReadOnlyIsIgnored :
    (∀ off ∈ [0x004, 0x03C, 0x00C, 0x0FC], off < 256 ∧ off % 4 = 0 ∧ off ≠ 0 ∧
      ((EngineReg.ofOffset off).bind EngineReg.keptBits) = none) ∧
    (hosted s0 0x0FC (.write 5)).params.valid = true ∧ (hosted s0 0x0FC (.write 5)).seq = .ready := by decide

theorem witness_HostWriteWhileBusyIsDropped :
    let s := hosted { s0 with seq := .pollStart 0 } 0x0FC (.write 5)
    s.params.valid = true ∧ s.seq ≠ .ready ∧ 0x0FC < 256 ∧ 0x0FC % 4 = 0 ∧
    s.agenda = .host ⟨s.params.engineBase + BitVec.ofNat 32 0x0FC, .word, .write 5⟩ :: [] := by decide

theorem witness_HostReadReturnsTheCurrentValue :
    let s := hosted s0 0x0FC .read
    s.params.valid = true ∧ s.seq = .ready ∧ 0x0FC < 256 ∧ 0x0FC % 4 = 0 ∧ EngineReg.ofOffset 0x0FC = none ∧
    s.agenda = .host ⟨s.params.engineBase + BitVec.ofNat 32 0x0FC, .word, .read⟩ :: [] := by decide

theorem witness_BusyReadReturnsBeforeOrAfter :
    let s := hosted (pending 4) 0x004 .read
    s.params.valid = true ∧ s.seq ≠ .ready ∧ 0x004 < 256 ∧ 0x004 % 4 = 0 ∧
    s.agenda = .host ⟨s.params.engineBase + BitVec.ofNat 32 0x004, .word, .read⟩ :: [] := by decide

/-- A step that goes on with the command and one that ends it, each with a settled and an open read. -/
theorem witness_BusyReadReturnsBeforeOrAfter_steps :
    let s (k : Nat) (w : Word) := { polling (.pollStart k) [w] with hostReads := [.got 7, .raced 4 1 1] }
    (∀ k w, (s k w).engineMoves ∧ (s k w).seq ≠ .ready) ∧
    (next? (step (s 0 0))).map (fun t => (t.seq, t.hostReads)) = some (.pollStart 1, [.got 7, .raced 4 1 1]) ∧
    (next? (step (s 1 1))).map (fun t => (t.seq, t.hostReads)) =
      some (.ready, [.got 7, .got (if Config.freeChoice 0 then 5 else 1)]) :=
  ⟨fun _ _ => ⟨.inl rfl, Seq.noConfusion⟩, rfl, rfl⟩

/-- WAIT with the engine busy, and Ready. -/
theorem witness_WaitReadsStatusUntilBusyReadsZero :
    let s := { pending 4 with agenda := [.wait] }
    let s' := { s0 with agenda := [.wait] }
    s.params.valid = true ∧ s.agenda = .wait :: [] ∧ (EngineReg.read .status s).getLsbD 0 = true ∧
    s'.params.valid = true ∧ s'.agenda = .wait :: [] ∧ (EngineReg.read .status s').getLsbD 0 = false := by decide

/-- Each reason for a refusal at its boundary, and an access that is answered. -/
theorem witness_BadHostAccessIsRefused :
    testParams.valid = true ∧
    next? (step { s0 with agenda := [.host ⟨0x43C00000, .byte, .read⟩] }) = none ∧
    next? (step { s0 with agenda := [.host ⟨0x43C00100, .word, .read⟩] }) = none ∧
    next? (step { s0 with agenda := [.host ⟨0x43BFFFFC, .word, .read⟩] }) = none ∧
    next? (step { s0 with agenda := [.host ⟨0x43C00005, .word, .read⟩] }) = none ∧
    next? (step { s0 with agenda := [.host ⟨0x43C000FC, .word, .read⟩] }) ≠ none := by decide

theorem witness_InvalidParametersAreRefused : (State.resetWith (withPpc 0)).params.valid = false := by decide

theorem witness_ResetEventAbandonsTheCommand :
    ({ polling (.pollStart 1) [0] with agenda := [.reset] } : State).params.valid = true ∧
    ({ polling (.pollStart 1) [0] with agenda := [.reset] } : State).agenda = .reset :: [] := by decide

theorem inv_resetWith (p : Params) : DeviceInv (State.resetWith p) ∧ FreshInv (State.resetWith p) :=
  ⟨⟨Memory.wf_nil, rfl, fun _ h => absurd h (List.not_mem_nil)⟩,
   ⟨fun h => absurd h (by simp [State.resetWith]), fun h => absurd h (by simp [State.resetWith]),
    fun h => absurd h (by simp [State.resetWith])⟩⟩

theorem witness_StepKeepsTheDeviceMemoryOfTheHistory :
    ∃ t, DeviceInv (hosted s0 0 (.write 9)) ∧ step (hosted s0 0 (.write 9)) = .next t ∧ t.seq = .pending 9 :=
  ⟨_, ⟨Memory.wf_nil, rfl, fun _ h => absurd h (List.not_mem_nil)⟩, rfl, rfl⟩

theorem witness_StepKeepsValidImagesFresh :
    ∃ t, FreshInv (pending 2) ∧ step (pending 2) = .next t ∧ t.vtcImgValid = true :=
  ⟨_, ⟨fun h => absurd h (by decide), fun h => absurd h (by decide), fun h => absurd h (by decide)⟩, rfl, rfl⟩

theorem witness_StepKeepsErrorLegalAndPollsBounded :
    ∃ t, (ErrorInv (pending 8) ∧ PollInv (pending 8) ∧ ReadsInv (pending 8)) ∧ step (pending 8) = .next t ∧
      t.seq = .pollStart 0 :=
  ⟨_, ⟨⟨by decide, fun _ => rfl, fun h => absurd h (by decide)⟩, trivial, fun h => absurd h (by decide)⟩, rfl, rfl⟩

end Sys2Proof.Machine.Tests
end

section
/-! Which parameters are those of a valid engine, and that no other engine gets a step. -/

namespace Sys2Proof

/-- A shared address bounds the distance from the start of the one window to the start of the other. -/
theorem Params.sub_toNat_le_of_add_eq {a b : Word} {i j : Nat}
    (heq : a + BitVec.ofNat 32 i = b + BitVec.ofNat 32 j) (hji : j ≤ i) : (b - a).toNat ≤ i - j := by
  have hgap : b - a = BitVec.ofNat 32 (i - j) := by bv_omega
  rw [hgap, BitVec.toNat_ofNat]
  exact Nat.mod_le _ _

/-- The start of a window, as the address at its distance from the start of the other. -/
theorem Params.add_sub_toNat (a b : Word) :
    a + BitVec.ofNat 32 (b - a).toNat = b + BitVec.ofNat 32 0 := by
  rw [BitVec.ofNat_toNat, BitVec.setWidth_eq]
  bv_omega

/-- The window test of R69 is exact: where two windows share an address, the start of one lies in the other,
whichever offset is the larger. -/
theorem Params.disjoint_iff {a b : Word} {la lb : Nat} (hla : 0 < la) (hlb : 0 < lb) :
    Params.disjoint a la b lb = true ↔
      ∀ i j : Nat, i < la → j < lb → a + BitVec.ofNat 32 i ≠ b + BitVec.ofNat 32 j := by
  simp only [Params.disjoint, Bool.and_eq_true, decide_eq_true_eq]
  constructor
  · rintro ⟨hab, hba⟩ i j hi hj heq
    rcases Nat.le_total j i with hji | hij
    · have hle := Params.sub_toNat_le_of_add_eq heq hji
      omega
    · have hle := Params.sub_toNat_le_of_add_eq heq.symm hij
      omega
  · intro hne
    constructor
    · exact Nat.le_of_not_lt fun hlt => hne _ 0 hlt hlb (Params.add_sub_toNat a b)
    · exact Nat.le_of_not_lt fun hlt => hne 0 _ hla hlt (Params.add_sub_toNat b a).symm

theorem Params.basesAligned_iff (p : Params) :
    p.basesAligned = true ↔
      p.engineBase.toNat % 4 = 0 ∧ p.vtcBase.toNat % 4 = 0 ∧ p.pllBase.toNat % 4 = 0 := by
  simp only [Params.basesAligned, Params.aligned, Bool.and_eq_true, beq_iff_eq, and_assoc]

theorem Params.windowsDisjoint_iff (p : Params) :
    p.windowsDisjoint = true ↔
      (∀ i j : Nat, i < Config.engineWindowBytes → j < Config.vtcWindowBytes →
        p.engineBase + BitVec.ofNat 32 i ≠ p.vtcBase + BitVec.ofNat 32 j) ∧
      (∀ i j : Nat, i < Config.engineWindowBytes → j < Config.pllWindowBytes →
        p.engineBase + BitVec.ofNat 32 i ≠ p.pllBase + BitVec.ofNat 32 j) ∧
      (∀ i j : Nat, i < Config.vtcWindowBytes → j < Config.pllWindowBytes →
        p.vtcBase + BitVec.ofNat 32 i ≠ p.pllBase + BitVec.ofNat 32 j) := by
  have hengine : 0 < Config.engineWindowBytes := by decide
  have hvtc : 0 < Config.vtcWindowBytes := by decide
  have hpll : 0 < Config.pllWindowBytes := by decide
  simp only [Params.windowsDisjoint, Bool.and_eq_true, and_assoc, Params.disjoint_iff hengine hvtc,
    Params.disjoint_iff hengine hpll, Params.disjoint_iff hvtc hpll]

/-- R32: PPC is a word, and being nonzero is being at least 1. -/
theorem Params.valid_iff (p : Params) :
    p.valid = true ↔
      1 ≤ p.ppc.toNat ∧ 1 ≤ p.pollLimit ∧ p.basesAligned = true ∧ p.windowsDisjoint = true := by
  have hppc : p.ppc ≠ 0 ↔ 1 ≤ p.ppc.toNat := by bv_omega
  simp only [Params.valid, Bool.and_eq_true, decide_eq_true_eq, and_assoc, hppc]

namespace Machine

theorem step_invalidParams {s : State} (h : s.params.valid = false) :
    step s = .refused .invalidInstance := by
  simp [step, h]

/-- Settles O51: the refusal is `step`'s own first test; validity is `Params.valid_iff` with its alignment
and window parts read as arithmetic. -/
theorem invalidParametersAreRefused : Obligations.InvalidParametersAreRefused := by
  refine ⟨fun s => step_invalidParams, fun p => ?_⟩
  rw [Params.valid_iff, Params.basesAligned_iff, Params.windowsDisjoint_iff]

end Machine

end Sys2Proof
end

section
/-! What one step can do, with the schedule and the host's reads set apart: the effect that the invariants and the
rules of the whole engine look at. -/

namespace Sys2Proof.Machine

/-- No command writes a parameter, an input of the host, or what the other agents hold. -/
theorem exec_keeps_inputs {i : Instr} {s t : State} (h : exec i s = .next t) :
    t.params = s.params ∧ t.timing = s.timing ∧ t.timingFlags = s.timingFlags ∧
    t.pixelClockHz = s.pixelClockHz ∧ t.refreshHz = s.refreshHz ∧ t.toleranceHz = s.toleranceHz ∧
    t.agenda = s.agenda ∧ t.hostReads = s.hostReads ∧ t.pllAnswers = s.pllAnswers := by
  rcases exec_cases h with ⟨-, rfl⟩ | ⟨-, -, rfl⟩ | ⟨-, -, rfl⟩ | ⟨-, rfl⟩ | ⟨-, -, rfl⟩ | ⟨-, v, rfl⟩ |
    ⟨-, -, c, er, -, rfl⟩ | ⟨-, -, rfl⟩ | ⟨-, rfl⟩ | ⟨-, -, rfl⟩ | ⟨-, rfl⟩ | ⟨-, rfl⟩ | ⟨-, rfl⟩ |
    ⟨e, op, -, -, rfl⟩ <;> exact ⟨rfl, rfl, rfl, rfl, rfl, rfl, rfl, rfl, rfl⟩

/-- An engine step runs a command, or leaves every register of the window but ERROR and STATUS as it is. -/
theorem engineStep_command_or_frame {s t : State} (h : engineStep s = .next t) :
    (∃ i, s.seq = .pending (encode i) ∧ exec i s = .next t) ∨
    (∃ hi m ans n ps q er, t = { s with
      history := hi, mem := m, pllAnswers := ans, freeCount := n, pllState := ps, seq := q, error := er }) := by
  rcases engineStep_cases h with ⟨-, rfl⟩ | ⟨i, hs, hx⟩ | ⟨w, -, -, rfl⟩ | ⟨k, -, rfl⟩ | ⟨k, -, rfl⟩
  · exact .inr ⟨_, _, _, _, _, _, _, rfl⟩
  · exact .inl ⟨i, hs, hx⟩
  · rw [State.raise_eq]
    exact .inr ⟨_, _, _, _, _, _, _, rfl⟩
  · obtain ⟨ans, n, h | ⟨-, h⟩ | h⟩ := pollStartStep_cases k s <;> exact .inr ⟨_, _, _, _, _, _, _, h⟩
  · obtain ⟨ans, n, h | ⟨-, h⟩ | h⟩ := pollStopStep_cases k s <;> exact .inr ⟨_, _, _, _, _, _, _, h⟩

/-- A dropped host write, as one update (R227). -/
theorem State.recordError_eq (e : ErrorCode) (op : Byte) (s : State) :
    s.recordError e op = { s with error := if s.error.code = .noError then ⟨e, op⟩ else s.error } := by
  unfold State.recordError
  split <;> rfl

/-- `step_cases` with every host turn resolved: an engine step, up to the host's reads and the draws that settle them; a
turn that reads, waits or is ignored; a write dropped with BUSY_WRITE; a write to a register; a reset. -/
theorem step_effect {s t : State} (h : step s = .next t) :
    (∃ ag u hr n, engineStep { s with agenda := ag } = .next u ∧ t = { u with hostReads := hr, freeCount := n }) ∨
    (∃ ag hr, t = { s with agenda := ag, hostReads := hr }) ∨
    (∃ ag, t = { s with
      agenda := ag, error := if s.error.code = .noError then ⟨.busyWrite, 0xFF⟩ else s.error }) ∨
    (∃ a rest v, ∃ r : EngineReg, s.agenda = .host a :: rest ∧ a.kind = .write v ∧
      (a.addr - s.params.engineBase).toNat = r.offset ∧ t = r.write v { s with agenda := rest }) ∨
    (∃ rest, s.agenda = .reset :: rest ∧ t = State.resetEvent { s with agenda := rest }) := by
  obtain ⟨-, ⟨ag, u, -, hu, rfl⟩ | ⟨a, rest, ha, hacc⟩ | ⟨rest, -, rfl⟩ | ⟨rest, ha, rfl⟩⟩ := step_cases h
  · exact .inl ⟨ag, u, _, _, hu, rfl⟩
  · obtain ⟨-, -, -, hk⟩ := hostAccess_cases hacc
    rcases hk with ⟨v, -, -, rfl⟩ | ⟨v, r, hv, -, hoff, rfl⟩ | ⟨v, -, -, -, rfl⟩ | ⟨-, rfl⟩
    · rw [State.recordError_eq]
      exact .inr (.inr (.inl ⟨rest, rfl⟩))
    · exact .inr (.inr (.inr (.inl ⟨a, rest, v, r, ha, hv, hoff, rfl⟩)))
    · exact .inr (.inl ⟨rest, _, rfl⟩)
    · exact .inr (.inl ⟨rest, _, rfl⟩)
  · obtain ⟨r, ag, hw⟩ := hostWait_eq { s with agenda := rest }
    exact .inr (.inl ⟨ag, _, hw⟩)
  · exact .inr (.inr (.inr (.inr ⟨rest, ha, rfl⟩)))

end Sys2Proof.Machine
end

section
/-! A valid packed timing or image is the one its command would compute from the registers now (R23, R54, R55, R56). -/

namespace Sys2Proof.Machine

/-- The command that sets a valid bit has just computed what it guards; the command that replaces the triple clears
PLL_IMG_VALID. DERIVE_PACKED of invalid inputs may set PACKED_VALID, of which nothing is claimed (R120). -/
theorem FreshInv.of_exec {i : Instr} {s t : State} (hs : FreshInv s) (h : exec i s = .next t) : FreshInv t := by
  obtain ⟨hpk, hvtc, hpll⟩ := hs
  rcases exec_cases h with ⟨-, rfl⟩ | ⟨-, -, rfl⟩ | ⟨-, hinvalid, rfl⟩ | ⟨-, rfl⟩ | ⟨-, -, rfl⟩ | ⟨-, v, rfl⟩ |
    ⟨-, -, c, er, -, rfl⟩ | ⟨-, hrange, rfl⟩ | ⟨-, rfl⟩ | ⟨-, -, rfl⟩ | ⟨-, rfl⟩ | ⟨-, rfl⟩ | ⟨-, rfl⟩ | ⟨e, op, -, -, rfl⟩
  · exact ⟨hpk, hvtc, hpll⟩
  · exact ⟨fun _ _ => rfl, hvtc, hpll⟩
  · exact ⟨fun _ hvalid => absurd hvalid (by simp [hinvalid]), hvtc, hpll⟩
  · exact ⟨hpk, fun _ => rfl, hpll⟩
  iterate 2 exact ⟨hpk, hvtc, hpll⟩
  · exact ⟨hpk, hvtc, nofun⟩
  · exact ⟨hpk, hvtc, fun _ => ⟨hrange, rfl⟩⟩
  · exact ⟨hpk, hvtc, nofun⟩
  all_goals exact ⟨hpk, hvtc, hpll⟩

theorem FreshInv.of_engineStep {s t : State} (hs : FreshInv s) (h : engineStep s = .next t) : FreshInv t := by
  rcases engineStep_command_or_frame h with ⟨i, -, hx⟩ | ⟨hi, m, ans, n, ps, q, er, rfl⟩
  · exact hs.of_exec hx
  · exact ⟨hs.packed, hs.vtcImage, hs.pllImage⟩

/-- A host write to an input of an image clears the bit of that image (R54, R55). -/
theorem FreshInv.of_write {s : State} (hs : FreshInv s) (r : EngineReg) (v : Word) : FreshInv (r.write v s) := by
  obtain ⟨hpk, hvtc, hpll⟩ := hs
  rcases write_cases r v s with ⟨-, h⟩ | ⟨tm, fl, -, h⟩ | ⟨-, h⟩ | ⟨-, h⟩ | ⟨rf, tol, h⟩ | ⟨d, m, o, -, h⟩ <;> rw [h]
  · exact ⟨hpk, hvtc, hpll⟩
  · exact ⟨nofun, nofun, hpll⟩
  iterate 3 exact ⟨hpk, hvtc, hpll⟩
  · exact ⟨hpk, hvtc, nofun⟩

/-- After a reset no valid bit is set (R250). -/
theorem FreshInv.of_reset (s : State) : FreshInv s.resetEvent :=
  ⟨nofun, nofun, nofun⟩

/-- The invariant speaks of no part of the schedule, of the host's reads, or of ERROR. -/
theorem FreshInv.of_frame {s : State} (hs : FreshInv s) (ag : List Turn) (hr : List HostRead) (n : Nat) (er : ErrorReg) :
    FreshInv { s with agenda := ag, hostReads := hr, freeCount := n, error := er } :=
  ⟨hs.packed, hs.vtcImage, hs.pllImage⟩

/-- Settles O58: each effect of a step keeps the images fresh. -/
theorem stepKeepsValidImagesFresh : Obligations.StepKeepsValidImagesFresh := by
  intro s t hs h
  rcases step_effect h with ⟨ag, u, hr, n, hu, rfl⟩ | ⟨ag, hr, rfl⟩ | ⟨ag, rfl⟩ | ⟨a, rest, v, r, -, -, -, rfl⟩ |
    ⟨rest, -, rfl⟩
  · have hfresh : FreshInv u := FreshInv.of_engineStep (hs.of_frame ag _ _ _) hu
    exact hfresh.of_frame _ hr n _
  · exact hs.of_frame ag hr _ _
  · exact hs.of_frame ag _ _ _
  · exact FreshInv.of_write (hs.of_frame rest _ _ _) r v
  · exact FreshInv.of_reset _

end Sys2Proof.Machine
end

section
/-! ERROR: what a step can make of it (R25, R226, R227, R228), the bound on the polls (R196, R201), and the host's reads
in Ready (R74). -/

namespace Sys2Proof.Machine

/-- ERROR of `t` is that of `s`, or the first error since ERROR was empty, one that R228 lets the engine record; BUSY_WRITE
has opcode 0xFF (R227). -/
def ErrorKeptOrRecorded (s t : State) : Prop :=
  t.error = s.error ∨
  (s.error.code = .noError ∧ t.error.code ≠ .noError ∧ t.error.code ≠ .invalidTiming ∧
    (t.error.code = .busyWrite → t.error.opcode = 0xFF))

/-- Recording an error (R226) keeps an error that is there. -/
theorem ErrorKeptOrRecorded.of_record {s t : State} {e : ErrorCode} {op : Byte} (hne : e ≠ .noError)
    (hnt : e ≠ .invalidTiming) (hbw : e = .busyWrite → op = 0xFF)
    (h : t.error = if s.error.code = .noError then ⟨e, op⟩ else s.error) : ErrorKeptOrRecorded s t := by
  by_cases hs : s.error.code = .noError
  · rw [if_pos hs] at h
    rw [ErrorKeptOrRecorded, h]
    exact .inr ⟨hs, hne, hnt, hbw⟩
  · rw [if_neg hs] at h
    exact .inl h

/-- The errors a command, an illegal word or a poll raises. -/
theorem ErrorKeptOrRecorded.of_raise {s t : State} {e : ErrorCode} {op : Byte}
    (he : e ≠ .noError ∧ e ≠ .invalidTiming ∧ e ≠ .busyWrite)
    (h : t.error = if s.error.code = .noError then ⟨e, op⟩ else s.error) : ErrorKeptOrRecorded s t := by
  obtain ⟨hno, hnt, hbw⟩ := he
  exact .of_record hno hnt (fun h7 => absurd h7 hbw) h

theorem exec_error {i : Instr} {s t : State} (h : exec i s = .next t) :
    ErrorKeptOrRecorded s t ∨ (i = .clearError ∧ t.error = .reset) := by
  rcases exec_cases h with ⟨-, rfl⟩ | ⟨-, -, rfl⟩ | ⟨-, -, rfl⟩ | ⟨-, rfl⟩ | ⟨-, -, rfl⟩ | ⟨-, v, rfl⟩ |
    ⟨-, -, c, er, her, rfl⟩ | ⟨-, -, rfl⟩ | ⟨-, rfl⟩ | ⟨-, -, rfl⟩ | ⟨-, rfl⟩ | ⟨-, rfl⟩ | ⟨hi, rfl⟩ | ⟨e, op, -, he, rfl⟩
  iterate 6 exact .inl (.inl rfl)
  · rcases her with rfl | ⟨hs, rfl⟩
    · exact .inl (.inl rfl)
    · exact .inl (.inr ⟨hs, by simp⟩)
  · exact .inl (.inl rfl)
  · exact .inl (.of_raise (by decide) rfl)
  iterate 3 exact .inl (.inl rfl)
  · exact .inr ⟨hi, rfl⟩
  · rcases he with rfl | rfl <;> exact .inl (.of_raise (by decide) rfl)

theorem engineStep_error {s t : State} (h : engineStep s = .next t) :
    ErrorKeptOrRecorded s t ∨ (s.seq = .pending 0x0000000F ∧ t.error = .reset) := by
  rcases engineStep_cases h with ⟨-, rfl⟩ | ⟨i, hs, hx⟩ | ⟨w, -, -, rfl⟩ | ⟨k, -, rfl⟩ | ⟨k, -, rfl⟩
  · exact .inl (.inl rfl)
  · rcases exec_error hx with hk | ⟨rfl, hr⟩
    · exact .inl hk
    · exact .inr ⟨hs, hr⟩
  · rw [State.raise_eq]
    exact .inl (.of_raise (e := .illegalCommand) (by decide) rfl)
  · obtain ⟨ans, n, h | ⟨-, h⟩ | h⟩ := pollStartStep_cases k s <;> rw [h]
    · exact .inl (.inl rfl)
    · exact .inl (.inl rfl)
    · exact .inl (.of_raise (e := .hardwareTimeout) (by decide) rfl)
  · obtain ⟨ans, n, h | ⟨-, h⟩ | h⟩ := pollStopStep_cases k s <;> rw [h]
    · exact .inl (.inl rfl)
    · exact .inl (.inl rfl)
    · exact .inl (.of_raise (e := .hardwareTimeout) (by decide) rfl)

/-- What no host write to a register changes (R102). -/
theorem EngineReg.write_keeps (r : EngineReg) (v : Word) (s : State) :
    (r.write v s).params = s.params ∧ (r.write v s).error = s.error ∧ (r.write v s).pllState = s.pllState ∧
      (r.write v s).hostReads = s.hostReads := by
  rcases write_cases r v s with ⟨-, h⟩ | ⟨tm, fl, -, h⟩ | ⟨-, h⟩ | ⟨-, h⟩ | ⟨rf, tol, h⟩ | ⟨d, m, o, -, h⟩ <;>
  · rw [h]
    exact ⟨rfl, rfl, rfl, rfl⟩

/-- Over any step ERROR is kept or records a first error, or CLEAR_ERROR or a reset empties it (R226, R231). -/
theorem step_error {s t : State} (h : step s = .next t) :
    ErrorKeptOrRecorded s t ∨
    ((s.seq = .pending 0x0000000F ∨ ∃ rest, s.agenda = .reset :: rest) ∧ t.error = .reset) := by
  rcases step_effect h with ⟨ag, u, hr, n, hu, rfl⟩ | ⟨ag, hr, rfl⟩ | ⟨ag, rfl⟩ | ⟨a, rest, v, r, -, -, -, rfl⟩ |
    ⟨rest, ha, rfl⟩
  · rcases engineStep_error hu with hk | ⟨hs, he⟩
    · exact .inl hk
    · exact .inr ⟨.inl hs, he⟩
  · exact .inl (.inl rfl)
  · exact .inl (.of_record (e := .busyWrite) (by decide) (by decide) (fun _ => rfl) rfl)
  · obtain ⟨-, he, -⟩ := r.write_keeps v { s with agenda := rest }
    exact .inl (.inl he)
  · exact .inr ⟨.inr ⟨rest, ha⟩, rfl⟩

/-- Settles O35: an error that is there is not recorded over. -/
theorem firstErrorIsKept : Obligations.FirstErrorIsKept := by
  intro s t h hs
  rcases step_error h with (hk | ⟨hno, -⟩) | ⟨hcleared, -⟩
  · exact .inl hk
  · exact absurd hno hs
  · exact .inr hcleared

/-- An empty ERROR is legal (R250). -/
theorem ErrorInv.of_empty {s : State} (h : s.error = .reset) : ErrorInv s := by
  refine ⟨?_, ?_, ?_⟩ <;> rw [h] <;> decide

theorem ErrorInv.of_step {s t : State} (hs : ErrorInv s) (h : step s = .next t) : ErrorInv t := by
  rcases step_error h with (hk | ⟨-, hne, hnt, hbw⟩) | ⟨-, hr⟩
  · exact ⟨hk ▸ hs.neverInvalidTiming, hk ▸ hs.noErrorNoOpcode, hk ▸ hs.busyWriteOpcode⟩
  · exact ⟨hnt, fun hno => absurd hno hne, hbw⟩
  · exact .of_empty hr

/-- A command ends, begins to poll, or is still to be finished (R195, R200, R233). -/
theorem exec_seq {i : Instr} {s t : State} (h : exec i s = .next t) :
    t.seq = .ready ∨ t.seq = s.seq ∨ t.seq = .pollStart 0 ∨ t.seq = .pollStop 0 := by
  rcases exec_cases h with ⟨-, rfl⟩ | ⟨-, -, rfl⟩ | ⟨-, -, rfl⟩ | ⟨-, rfl⟩ | ⟨-, -, rfl⟩ | ⟨-, v, rfl⟩ |
    ⟨-, -, c, er, -, rfl⟩ | ⟨-, -, rfl⟩ | ⟨-, rfl⟩ | ⟨-, -, rfl⟩ | ⟨-, rfl⟩ | ⟨-, rfl⟩ | ⟨-, rfl⟩ | ⟨e, op, -, -, rfl⟩
  iterate 2 exact .inl rfl
  · dsimp only
    split
    · exact .inl rfl
    · exact .inr (.inl rfl)
  iterate 7 exact .inl rfl
  · exact .inr (.inr (.inl rfl))
  · exact .inr (.inr (.inr rfl))
  iterate 2 exact .inl rfl

theorem pollInv_iff (s : State) :
    PollInv s ↔ ∀ k, s.seq = .pollStart k ∨ s.seq = .pollStop k → k < s.params.pollLimit := by
  unfold PollInv
  cases s.seq <;> simp

theorem PollInv.of_ready {s : State} (h : s.seq = .ready) : PollInv s := by
  simp [pollInv_iff, h]

/-- POLL_LIMIT of a valid engine is at least 1, so a poll that begins is below it (R10). -/
theorem PollInv.of_engineStep {s t : State} (hv : s.params.valid = true) (hs : PollInv s)
    (h : engineStep s = .next t) : PollInv t := by
  obtain ⟨-, hlimit, -⟩ := (Params.valid_iff _).1 hv
  rcases engineStep_cases h with ⟨-, rfl⟩ | ⟨i, hi, hx⟩ | ⟨w, -, -, rfl⟩ | ⟨k, -, rfl⟩ | ⟨k, -, rfl⟩
  · exact hs
  · obtain ⟨hp, -⟩ := exec_keeps_inputs hx
    rw [pollInv_iff, hp]
    rcases exec_seq hx with hq | hq | hq | hq
    · simp [hq]
    · simp [hq, hi]
    · simpa [hq] using Nat.lt_of_succ_le hlimit
    · simpa [hq] using Nat.lt_of_succ_le hlimit
  · exact .of_ready rfl
  · obtain ⟨ans, n, h | ⟨hk, h⟩ | h⟩ := pollStartStep_cases k s <;> rw [h]
    · exact .of_ready rfl
    · exact hk
    · exact .of_ready rfl
  · obtain ⟨ans, n, h | ⟨hk, h⟩ | h⟩ := pollStopStep_cases k s <;> rw [h]
    · exact .of_ready rfl
    · exact hk
    · exact .of_ready rfl

/-- A host write leaves SEQ alone, or makes a word pending. -/
theorem EngineReg.write_seq (r : EngineReg) (v : Word) (s : State) :
    (r.write v s).seq = s.seq ∨ (r.write v s).seq = .pending v := by
  rcases write_cases r v s with ⟨-, h⟩ | ⟨tm, fl, -, h⟩ | ⟨-, h⟩ | ⟨-, h⟩ | ⟨rf, tol, h⟩ | ⟨d, m, o, -, h⟩ <;> rw [h]
  · exact .inr rfl
  all_goals exact .inl rfl

theorem PollInv.of_write {s : State} (hs : PollInv s) (r : EngineReg) (v : Word) : PollInv (r.write v s) := by
  obtain ⟨hp, -⟩ := r.write_keeps v s
  rcases r.write_seq v s with hq | hq
  · rw [pollInv_iff, hq, hp]
    exact (pollInv_iff s).1 hs
  · simp [pollInv_iff, hq]

theorem PollInv.of_step {s t : State} (hs : PollInv s) (h : step s = .next t) : PollInv t := by
  have hv : s.params.valid = true := (step_cases h).1
  rcases step_effect h with ⟨ag, u, hr, n, hu, rfl⟩ | ⟨ag, hr, rfl⟩ | ⟨ag, rfl⟩ | ⟨a, rest, v, r, -, -, -, rfl⟩ |
    ⟨rest, -, rfl⟩
  · have hu' : PollInv u := PollInv.of_engineStep (s := { s with agenda := ag }) hv hs hu
    exact hu'
  · exact hs
  · exact hs
  · exact PollInv.of_write (s := { s with agenda := rest }) hs r v
  · exact .of_ready rfl

/-- Ready at the end of a turn of the engine, either it was Ready and nothing moved, or the command ended and its races
were settled. -/
theorem ReadsInv.of_engineTurn {s t : State} (hs : ReadsInv s) (h : engineStep s = .next t) :
    ReadsInv (s.closeReads t) := by
  intro ht
  by_cases hr : s.seq = .ready
  · rw [engineStep, hr] at h
    cases h
    rw [State.closeReads_ready hr]
    exact hs hr
  · have hends := closeReads_ends (s := s) (t := t) hr ht
    rw [hends]
    exact HostRead.settle_got _ _

theorem ReadsInv.of_hostRead {s : State} (hs : ReadsInv s) (off : Nat) : ReadsInv (hostRead off s) := by
  intro hr
  have hready : s.seq = .ready := hr
  rw [hostRead_ready hready]
  intro r hmem
  rcases List.mem_append.1 hmem with hold | hnew
  · exact hs hr r hold
  · exact ⟨_, List.mem_singleton.1 hnew⟩

theorem ReadsInv.of_hostAccess {a : HostAccess} {s t : State} (hs : ReadsInv s) (h : hostAccess a s = .next t) :
    ReadsInv t := by
  obtain ⟨-, -, -, hk⟩ := hostAccess_cases h
  rcases hk with ⟨v, -, hbusy, rfl⟩ | ⟨v, r, -, hready, -, rfl⟩ | ⟨v, -, -, -, rfl⟩ | ⟨-, rfl⟩
  · exact fun hr => absurd hr (by simpa using hbusy)
  · obtain ⟨-, -, -, hreads⟩ := r.write_keeps v s
    intro _
    rw [hreads]
    exact hs hready
  · exact hs
  · exact hs.of_hostRead _

/-- A round of the WAIT loop is a read of STATUS, with the turns of the next round set (R86). -/
theorem ReadsInv.of_hostWait {s : State} (hs : ReadsInv s) : ReadsInv (hostWait s) := by
  unfold hostWait
  dsimp only
  split
  · exact hs.of_hostRead _
  · exact hs.of_hostRead _

theorem ReadsInv.of_step {s t : State} (hs : ReadsInv s) (h : step s = .next t) : ReadsInv t := by
  obtain ⟨-, ⟨ag, u, -, hu, rfl⟩ | ⟨a, rest, -, hacc⟩ | ⟨rest, -, rfl⟩ | ⟨rest, -, rfl⟩⟩ := step_cases h
  · exact ReadsInv.of_engineTurn (s := { s with agenda := ag }) hs hu
  · exact ReadsInv.of_hostAccess (s := { s with agenda := rest }) hs hacc
  · exact ReadsInv.of_hostWait (s := { s with agenda := rest }) hs
  · exact fun _ => HostRead.settle_got _ _

/-- Settles O59: each of the three is an invariant of its own, but for the bound on polls, which also needs a step to be
one of a valid engine. -/
theorem stepKeepsErrorLegalAndPollsBounded : Obligations.StepKeepsErrorLegalAndPollsBounded := by
  rintro s t ⟨herr, hpoll, hreads⟩ h
  exact ⟨herr.of_step h, hpoll.of_step h, hreads.of_step h⟩

end Sys2Proof.Machine
end

section
/-! PLL_STATE and the valid bits: which steps change them (R24, R56, R203). -/

namespace Sys2Proof.Machine

theorem exec_pllState {i : Instr} {s t : State} (h : exec i s = .next t) :
    t.pllState = s.pllState ∨
    (i = .pllWrite ∧ s.pllImgValid = true ∧ t.pllState = s.pllState.afterWrite) := by
  rcases exec_cases h with ⟨-, rfl⟩ | ⟨-, -, rfl⟩ | ⟨-, -, rfl⟩ | ⟨-, rfl⟩ | ⟨-, -, rfl⟩ | ⟨-, v, rfl⟩ |
    ⟨-, -, c, er, -, rfl⟩ | ⟨-, -, rfl⟩ | ⟨-, rfl⟩ | ⟨hi, hvalid, rfl⟩ | ⟨-, rfl⟩ | ⟨-, rfl⟩ | ⟨-, rfl⟩ |
    ⟨e, op, -, -, rfl⟩
  iterate 9 exact .inl rfl
  · exact .inr ⟨hi, hvalid, rfl⟩
  iterate 4 exact .inl rfl

/-- PLL_WRITE moves PLL_STATE from Idle alone (R190). -/
theorem PllState.afterWrite_cases (p : PllState) : p.afterWrite = p ∨ (p = .idle ∧ p.afterWrite = .configured) := by
  cases p
  · exact .inr ⟨rfl, rfl⟩
  · exact .inl rfl
  · exact .inl rfl

theorem engineStep_pllState {s t : State} (h : engineStep s = .next t) :
    t.pllState = s.pllState ∨
    (s.seq = .pending 0x00000007 ∧ s.pllImgValid = true ∧ s.pllState = .idle ∧ t.pllState = .configured) ∨
    (∃ k, s.seq = .pollStart k ∧ (t.pllState = .running ∨ t.pllState = .idle)) ∨
    (∃ k, s.seq = .pollStop k ∧ t.pllState = .idle) := by
  rcases engineStep_cases h with ⟨-, rfl⟩ | ⟨i, hi, hx⟩ | ⟨w, -, -, rfl⟩ | ⟨k, hk, rfl⟩ | ⟨k, hk, rfl⟩
  · exact .inl rfl
  · rcases exec_pllState hx with hkept | ⟨rfl, hvalid, ht⟩
    · exact .inl hkept
    · rcases s.pllState.afterWrite_cases with hkept | ⟨hidle, hconf⟩
      · exact .inl (ht.trans hkept)
      · exact .inr (.inl ⟨hi, hvalid, hidle, ht.trans hconf⟩)
  · rw [State.raise_eq]
    exact .inl rfl
  · obtain ⟨ans, n, h | ⟨-, h⟩ | h⟩ := pollStartStep_cases k s <;> rw [h]
    · exact .inr (.inr (.inl ⟨k, hk, .inl rfl⟩))
    · exact .inl rfl
    · exact .inr (.inr (.inl ⟨k, hk, .inr rfl⟩))
  · obtain ⟨ans, n, h | ⟨-, h⟩ | h⟩ := pollStopStep_cases k s <;> rw [h]
    · exact .inr (.inr (.inr ⟨k, hk, rfl⟩))
    · exact .inl rfl
    · exact .inr (.inr (.inr ⟨k, hk, rfl⟩))

/-- Settles O38: of the effects of a step only those of the engine and of a reset reach PLL_STATE. -/
theorem pllStateChangesOnlyWhereStated : Obligations.PllStateChangesOnlyWhereStated := by
  intro s t h hne
  rcases step_effect h with ⟨ag, u, hr, n, hu, rfl⟩ | ⟨ag, hr, rfl⟩ | ⟨ag, rfl⟩ | ⟨a, rest, v, r, -, -, -, rfl⟩ |
    ⟨rest, ha, rfl⟩
  · rcases engineStep_pllState hu with hkept | hwrite | hstart | hstop
    · exact absurd hkept hne
    · exact .inl hwrite
    · exact .inr (.inl hstart)
    · exact .inr (.inr (.inl hstop))
  · exact absurd rfl hne
  · exact absurd rfl hne
  · obtain ⟨-, -, hkept, -⟩ := r.write_keeps v { s with agenda := rest }
    exact absurd hkept hne
  · exact .inr (.inr (.inr ⟨rest, ha, rfl⟩))

/-- A command sets the valid bit of what it computes, and no other (R56). -/
theorem exec_validBits {i : Instr} {s t : State} (h : exec i s = .next t) :
    (t.packedValid = true → s.packedValid = true ∨ i = .derivePacked) ∧
    (t.vtcImgValid = true → s.vtcImgValid = true ∨ i = .deriveVtc) ∧
    (t.targetValid = true → s.targetValid = true ∨ i = .clkPrescale) ∧
    (t.searchValid = true → s.searchValid = true ∨ i = .pllSearch) ∧
    (t.pllImgValid = true → s.pllImgValid = true ∨ i = .pllPack) := by
  rcases exec_cases h with ⟨-, rfl⟩ | ⟨hi, -, rfl⟩ | ⟨hi, -, rfl⟩ | ⟨hi, rfl⟩ | ⟨-, -, rfl⟩ | ⟨hi, v, rfl⟩ |
    ⟨hi, -, c, er, -, rfl⟩ | ⟨hi, -, rfl⟩ | ⟨-, rfl⟩ | ⟨-, -, rfl⟩ | ⟨-, rfl⟩ | ⟨-, rfl⟩ | ⟨-, rfl⟩ | ⟨e, op, -, -, rfl⟩
  · exact ⟨.inl, .inl, .inl, .inl, .inl⟩
  · exact ⟨fun _ => .inr hi, .inl, .inl, .inl, .inl⟩
  · exact ⟨fun _ => .inr hi, .inl, .inl, .inl, .inl⟩
  · exact ⟨.inl, fun _ => .inr hi, .inl, .inl, .inl⟩
  · exact ⟨.inl, .inl, .inl, .inl, .inl⟩
  · exact ⟨.inl, .inl, fun _ => .inr hi, nofun, .inl⟩
  · exact ⟨.inl, .inl, .inl, fun _ => .inr hi, nofun⟩
  · exact ⟨.inl, .inl, .inl, .inl, fun _ => .inr hi⟩
  · exact ⟨.inl, .inl, .inl, .inl, nofun⟩
  iterate 5 exact ⟨.inl, .inl, .inl, .inl, .inl⟩

/-- A host write sets TARGET_VALID at SEARCH_TARGET_HZ, SEARCH_VALID at RES_D, RES_M and RES_O, and no other bit (R55). -/
theorem EngineReg.write_validBits (r : EngineReg) (v : Word) (s : State) :
    ((r.write v s).packedValid = true → s.packedValid = true) ∧
    ((r.write v s).vtcImgValid = true → s.vtcImgValid = true) ∧
    ((r.write v s).targetValid = true → s.targetValid = true ∨ r = .searchTargetHz) ∧
    ((r.write v s).searchValid = true → s.searchValid = true ∨ r = .resD ∨ r = .resM ∨ r = .resO) ∧
    ((r.write v s).pllImgValid = true → s.pllImgValid = true) := by
  rcases write_cases r v s with ⟨-, h⟩ | ⟨tm, fl, -, h⟩ | ⟨-, h⟩ | ⟨hr, h⟩ | ⟨rf, tol, h⟩ | ⟨d, m, o, hr, h⟩ <;> rw [h]
  · exact ⟨id, id, .inl, .inl, id⟩
  · exact ⟨nofun, nofun, .inl, .inl, id⟩
  · exact ⟨id, id, nofun, .inl, id⟩
  · exact ⟨id, id, fun _ => .inr hr, nofun, id⟩
  · exact ⟨id, id, .inl, .inl, id⟩
  · exact ⟨id, id, .inl, fun _ => .inr hr, nofun⟩

theorem engineStep_validBits {s t : State} (h : engineStep s = .next t) :
    (t.packedValid = true → s.packedValid = true ∨ s.seq = .pending 0x00000001) ∧
    (t.vtcImgValid = true → s.vtcImgValid = true ∨ s.seq = .pending 0x00000002) ∧
    (t.targetValid = true → s.targetValid = true ∨ s.seq = .pending 0x00000004) ∧
    (t.searchValid = true → s.searchValid = true ∨ s.seq = .pending 0x00000005) ∧
    (t.pllImgValid = true → s.pllImgValid = true ∨ s.seq = .pending 0x00000006) := by
  rcases engineStep_command_or_frame h with ⟨i, hi, hx⟩ | ⟨hist, m, ans, n, ps, q, er, rfl⟩
  · have hword : ∀ j, i = j → s.seq = .pending (encode j) := by
      rintro j rfl
      exact hi
    obtain ⟨hpk, hvtc, htg, hse, hpll⟩ := exec_validBits hx
    exact ⟨fun hv => (hpk hv).imp_right (hword .derivePacked), fun hv => (hvtc hv).imp_right (hword .deriveVtc),
      fun hv => (htg hv).imp_right (hword .clkPrescale), fun hv => (hse hv).imp_right (hword .pllSearch),
      fun hv => (hpll hv).imp_right (hword .pllPack)⟩
  · exact ⟨.inl, .inl, .inl, .inl, .inl⟩

/-- Settles O40: of the effects of a step only those of the engine and of a host write set a valid bit. -/
theorem validBitsAreSetOnlyByTheirWriters : Obligations.ValidBitsAreSetOnlyByTheirWriters := by
  intro s t h
  rcases step_effect h with ⟨ag, u, hr, n, hu, rfl⟩ | ⟨ag, hr, rfl⟩ | ⟨ag, rfl⟩ | ⟨a, rest, v, r, ha, hk, hoff, rfl⟩ |
    ⟨rest, -, rfl⟩
  · obtain ⟨hpk, hvtc, htg, hse, hpll⟩ := engineStep_validBits hu
    exact ⟨hpk, hvtc, fun hv => (htg hv).imp_right .inl, fun hv => (hse hv).imp_right .inl, hpll⟩
  · exact ⟨.inl, .inl, .inl, .inl, .inl⟩
  · exact ⟨.inl, .inl, .inl, .inl, .inl⟩
  · obtain ⟨hpk, hvtc, htg, hse, hpll⟩ := r.write_validBits v { s with agenda := rest }
    refine ⟨fun hv => .inl (hpk hv), fun hv => .inl (hvtc hv), fun hv => ?_, fun hv => ?_, fun hv => .inl (hpll hv)⟩
    · rcases htg hv with hkept | rfl
      · exact .inl hkept
      · exact .inr (.inr ⟨a, rest, v, ha, hk, hoff⟩)
    · rcases hse hv with hkept | rfl | rfl | rfl
      · exact .inl hkept
      · exact .inr (.inr ⟨a, rest, v, ha, hk, .inl hoff⟩)
      · exact .inr (.inr ⟨a, rest, v, ha, hk, .inr (.inl hoff)⟩)
      · exact .inr (.inr ⟨a, rest, v, ha, hk, .inr (.inr hoff)⟩)
  · simp

end Sys2Proof.Machine
end

section
/-! What a command writes and what it reads, over all commands (R31, R33 to R37, R50, R51). -/

namespace Sys2Proof.Machine

/-- Each result register is written by the command that computes it alone; the device windows by the four commands that
program a device. -/
theorem exec_keeps_results {i : Instr} {s t : State} (h : exec i s = .next t) :
    (i ≠ .derivePacked → t.packed = s.packed ∧ t.freeCount = s.freeCount) ∧
    (i ≠ .deriveVtc → t.vtcImage = s.vtcImage) ∧
    (i ≠ .clkPrescale → t.searchTargetHz = s.searchTargetHz) ∧
    (i ≠ .pllSearch → t.resD = s.resD ∧ t.resM = s.resM ∧ t.resO = s.resO ∧
      t.resAchievedHz = s.resAchievedHz ∧ t.resErrorHz = s.resErrorHz) ∧
    (i ≠ .pllPack → t.pllImage = s.pllImage) ∧
    (i ≠ .vtcWrite → i ≠ .pllWrite → i ≠ .pllStart → i ≠ .pllStop → t.history = s.history ∧ t.mem = s.mem) := by
  rcases exec_cases h with ⟨-, rfl⟩ | ⟨rfl, -, rfl⟩ | ⟨rfl, -, rfl⟩ | ⟨rfl, rfl⟩ | ⟨rfl, -, rfl⟩ | ⟨rfl, v, rfl⟩ |
    ⟨rfl, -, c, er, -, rfl⟩ | ⟨rfl, -, rfl⟩ | ⟨-, rfl⟩ | ⟨rfl, -, rfl⟩ | ⟨rfl, rfl⟩ | ⟨rfl, rfl⟩ | ⟨-, rfl⟩ |
    ⟨e, op, -, -, rfl⟩ <;> simp [State.storeResult, State.afterResultWrite]

/-- Settles O39: the frame of each command. -/
theorem eachRegisterHasItsOwnWriter : Obligations.EachRegisterHasItsOwnWriter := by
  intro i s
  obtain ⟨t, h⟩ := exec_next i s
  obtain ⟨h1, h2, h3, h4, h5, h6, h7, h8, h9⟩ := exec_keeps_inputs h
  exact ⟨t, h, h1, h2, h3, h4, h5, h6, h7, h8, h9, exec_keeps_results h⟩

/-- `execPllSearch_found` for a search result that is given, so that two states with one target have one result. -/
theorem execPllSearch_of_result {s : State} {c : Candidate} (h : s.targetValid = true) (hz : s.searchTargetHz ≠ 0)
    (hc : pllSearch s.searchTargetHz.toNat = some c) :
    execPllSearch s = .next { s.storeResult c with
      seq := .ready
      error := if s.toleranceHz.toNat < c.e ∧ s.error.code = .noError then ⟨.unreachableFrequency, 0x05⟩
        else s.error } := by
  simp only [execPllSearch, h, hz, hc, State.raise_eq, Bool.not_true, Bool.false_eq_true, if_false]
  by_cases htol : s.toleranceHz.toNat < c.e <;> by_cases hno : s.error.code = .noError <;>
    simp [htol, hno, State.storeResult, State.afterResultWrite, State.toReady]

/-- The state with another REFRESH_HZ (R31). -/
def State.withRefreshHz (v : Word) (s : State) : State := { s with refreshHz := v }

theorem State.raise_withRefreshHz (e : ErrorCode) (op : Byte) (v : Word) (s : State) :
    (s.withRefreshHz v).raise e op = (s.raise e op).withRefreshHz v := by
  rw [State.raise_eq, State.raise_eq]
  rfl

theorem State.vtcWrites_withRefreshHz (ws : List (Word × Word)) (v : Word) (s : State) :
    (s.withRefreshHz v).vtcWrites ws = (s.vtcWrites ws).withRefreshHz v :=
  List.foldl_hom (State.withRefreshHz v) fun _ _ => rfl

theorem State.pllWrites_withRefreshHz (ws : List (Word × Word)) (v : Word) (s : State) :
    (s.withRefreshHz v).pllWrites ws = (s.pllWrites ws).withRefreshHz v :=
  List.foldl_hom (State.withRefreshHz v) fun _ _ => rfl

theorem State.faultIf_withRefreshHz (c : Bool) (f : ModelFault) (v : Word) (s : State) :
    (s.withRefreshHz v).faultIf c f = (s.faultIf c f).withRefreshHz v := by
  cases c <;> rfl

/-- Each case of a command tests and uses fields other than REFRESH_HZ, so the run with another REFRESH_HZ is in the same
case. -/
theorem exec_withRefreshHz (i : Instr) (s : State) (v : Word) : ∃ t, exec i s = .next t ∧
    exec i (s.withRefreshHz v) = .next (t.withRefreshHz v) := by
  have hraise : ∀ e op, (s.withRefreshHz v).raise e op = (s.raise e op).withRefreshHz v :=
    fun e op => State.raise_withRefreshHz e op v s
  cases i
  case nop => exact ⟨_, rfl, rfl⟩
  case derivePacked =>
    rcases bool_cases s.timing.valid with hv | hv
    · exact ⟨_, execDerivePacked_invalid hv, execDerivePacked_invalid (s := s.withRefreshHz v) hv⟩
    · exact ⟨_, execDerivePacked_valid hv, execDerivePacked_valid (s := s.withRefreshHz v) hv⟩
  case deriveVtc => exact ⟨_, execDeriveVtc_eq s, execDeriveVtc_eq (s.withRefreshHz v)⟩
  case vtcWrite =>
    rcases bool_cases s.vtcImgValid with hv | hv
    · exact ⟨_, execVtcWrite_notReady hv, hraise _ _ ▸ execVtcWrite_notReady (s := s.withRefreshHz v) hv⟩
    · have hwrites := s.vtcWrites_withRefreshHz s.vtcImage.writes v
      exact ⟨_, execVtcWrite_ready hv, (execVtcWrite_ready (s := s.withRefreshHz v) hv).trans
        (congrArg (fun u => Host.Outcome.next (State.toReady u)) hwrites)⟩
  case clkPrescale =>
    by_cases hfits : 5 * s.pixelClockHz.toNat ≤ 0xFFFFFFFF
    · exact ⟨_, execClkPrescale_fits hfits, execClkPrescale_fits (s := s.withRefreshHz v) hfits⟩
    · have hover : 0xFFFFFFFF < 5 * s.pixelClockHz.toNat := Nat.lt_of_not_le hfits
      exact ⟨_, execClkPrescale_overflows hover,
        hraise _ _ ▸ execClkPrescale_overflows (s := s.withRefreshHz v) hover⟩
  case pllSearch =>
    rcases bool_cases s.targetValid with hv | hv
    · exact ⟨_, execPllSearch_notReady hv, hraise _ _ ▸ execPllSearch_notReady (s := s.withRefreshHz v) hv⟩
    · by_cases hz : s.searchTargetHz = 0
      · exact ⟨_, execPllSearch_zero hv hz, hraise _ _ ▸ execPllSearch_zero (s := s.withRefreshHz v) hv hz⟩
      · obtain ⟨c, hc, -⟩ := pllSearch_spec s.searchTargetHz.toNat
        exact ⟨_, execPllSearch_of_result hv hz hc, execPllSearch_of_result (s := s.withRefreshHz v) hv hz hc⟩
  case pllPack =>
    rcases bool_cases s.searchValid with hv | hv
    · exact ⟨_, execPllPack_notReady hv, hraise _ _ ▸ execPllPack_notReady (s := s.withRefreshHz v) hv⟩
    · by_cases hr : s.tripleInRange
      · exact ⟨_, execPllPack_inRange hv hr, execPllPack_inRange (s := s.withRefreshHz v) hv hr⟩
      · have hdomain : (s.withRefreshHz v).packDomainError = s.packDomainError.withRefreshHz v :=
          State.raise_withRefreshHz _ _ v { s with pllImgValid := false }
        exact ⟨_, execPllPack_outOfRange hv hr, hdomain ▸ execPllPack_outOfRange (s := s.withRefreshHz v) hv hr⟩
  case pllWrite =>
    rcases bool_cases s.pllImgValid with hv | hv
    · exact ⟨_, execPllWrite_notReady hv, hraise _ _ ▸ execPllWrite_notReady (s := s.withRefreshHz v) hv⟩
    · have hwrites := (s.faultIf (s.pllState != .idle) .pllSequence).pllWrites_withRefreshHz s.pllImage.writes v
      rw [← State.faultIf_withRefreshHz] at hwrites
      exact ⟨_, execPllWrite_ready hv, (execPllWrite_ready (s := s.withRefreshHz v) hv).trans
        (congrArg (fun u => Host.Outcome.next { u with pllState := s.pllState.afterWrite, seq := .ready }) hwrites)⟩
  case pllStart => exact ⟨_, execPllStart_eq s, execPllStart_eq (s.withRefreshHz v)⟩
  case pllStop => exact ⟨_, execPllStop_eq s, execPllStop_eq (s.withRefreshHz v)⟩
  case clearError => exact ⟨_, rfl, rfl⟩

/-- Settles O34: a state with another REFRESH_HZ runs every command to the state with that REFRESH_HZ. -/
theorem refreshHzHasNoEffect : Obligations.RefreshHzHasNoEffect :=
  fun i s v => exec_withRefreshHz i s v

end Sys2Proof.Machine
end

section
/-! The VTC image (R44, R46), the register map (R21, R38, R52) and the word ERROR reads (R25, R220). -/

namespace Sys2Proof.Machine

/-- A pair register of the VTC image, as its two fields (R44). -/
theorem TimingInputs.pair_fields (t : TimingInputs) (p : EdgePair) :
    (t.pair p).extractLsb' 0 16 = t.edge p.lo ∧ (t.pair p).extractLsb' 16 16 = t.edge p.hi :=
  ⟨halves_lo _ _, halves_hi _ _⟩

/-- Settles O14: each pair register is the `pair` of its slot. -/
theorem edgeMapFillsThePairRegisters : Obligations.EdgeMapFillsThePairRegisters := by
  intro s
  refine ⟨_, execDeriveVtc_eq s, ?_⟩
  simp only [deriveVtcImage, List.forall_mem_cons]
  exact ⟨s.timing.pair_fields _, s.timing.pair_fields _, s.timing.pair_fields _, s.timing.pair_fields _,
    s.timing.pair_fields _, s.timing.pair_fields _, s.timing.pair_fields _, fun _ h => absurd h List.not_mem_nil⟩

/-- Of the parameters the VTC image depends on the edge map and the two constants alone. -/
theorem deriveVtcImage_congr {p p' : Params} (t : TimingInputs) (hmap : p.edgeMap = p'.edgeMap)
    (h68 : p.vtcC68 = p'.vtcC68) (h6C : p.vtcC6C = p'.vtcC6C) : deriveVtcImage p t = deriveVtcImage p' t := by
  simp only [deriveVtcImage, hmap, h68, h6C]

/-- Settles O15: DERIVE_VTC stores `deriveVtcImage` of the timing inputs. -/
theorem vtcImageDependsOnlyOnTheTiming : Obligations.VtcImageDependsOnlyOnTheTiming := by
  intro s s' ht hmap h68 h6C
  refine ⟨_, _, execDeriveVtc_eq s, execDeriveVtc_eq s', ?_⟩
  dsimp only
  rw [ht]
  exact deriveVtcImage_congr s'.timing hmap h68 h6C

/-- Settles O42: `EngineReg.ofOffset` inverts `EngineReg.offset`, and every register is on its row. -/
theorem engineWindowMap : Obligations.EngineWindowMap := by
  refine ⟨fun off r => ⟨fun h => ?_, fun h => ?_⟩, fun off r n h => ?_, ?_⟩
  · rw [← offset_of_ofOffset h]
    exact mem_engineWindowRows r
  · have hoff : r.offset = off := (engineWindowRows_offset _ h).1
    rw [← hoff]
    exact ofOffset_offset r
  · exact engineWindowRows_offset _ h
  · decide

/-- Settles O53: the fields of ERROR as a number, with the codes of R220. -/
theorem errorReadsOpcodeAndCode : Obligations.ErrorReadsOpcodeAndCode := by
  intro s
  rw [show EngineReg.read .error s = s.errorWord from rfl, errorWord_toNat]
  cases s.error.code <;> rfl

end Sys2Proof.Machine
end

section
/-! What a step adds to the event history, and that the device memory follows it (R61, R62, R71, R79). -/

namespace Sys2Proof.Machine

/-- From `s` to `t` the engine has made the device accesses `es`, all of them allowed by the maps (R61, R62): they are
appended to the event history and applied to the device memory in order. -/
structure Accesses (s t : State) (es : List DeviceEvent) : Prop where
  params : t.params = s.params
  history : t.history = s.history ++ es
  mem : t.mem = es.foldl (DeviceEvent.apply s.params) s.mem
  legal : ∀ e ∈ es, e.legal

theorem Accesses.none {s t : State} (hp : t.params = s.params) (hh : t.history = s.history) (hm : t.mem = s.mem) :
    Accesses s t [] :=
  ⟨hp, by rw [hh, List.append_nil], hm, fun _ h => absurd h List.not_mem_nil⟩

theorem VtcImage.writes_legal (i : VtcImage) :
    ∀ e ∈ i.writes.map (fun w => DeviceEvent.vtcWrite w.1 w.2), e.legal := by
  simp [VtcImage.writes, DeviceEvent.legal, vtcOffsets]

/-- PLL_WRITE writes no CTRL, the one register whose value R61 restricts. -/
theorem PllImage.writes_legal (i : PllImage) :
    ∀ e ∈ i.writes.map (fun w => DeviceEvent.pllWrite w.1 w.2), e.legal := by
  simp [PllImage.writes, DeviceEvent.legal, pllOffsets]

theorem legal_ctrlStart : DeviceEvent.legal (.pllWrite 0x00 0x00000001) := ⟨by decide, fun _ => .inr rfl⟩

theorem legal_ctrlStop : DeviceEvent.legal (.pllWrite 0x00 0x00000000) := ⟨by decide, fun _ => .inl rfl⟩

theorem legal_statusRead (v : Word) : DeviceEvent.legal (.pllRead 0x04 v) := rfl

/-- The device accesses of a command (R72, R73, R195, R200). -/
theorem exec_accesses {i : Instr} {s t : State} (h : exec i s = .next t) : ∃ es, Accesses s t es := by
  rcases exec_cases h with ⟨-, rfl⟩ | ⟨-, -, rfl⟩ | ⟨-, -, rfl⟩ | ⟨-, rfl⟩ | ⟨-, -, rfl⟩ | ⟨-, v, rfl⟩ |
    ⟨-, -, c, er, -, rfl⟩ | ⟨-, -, rfl⟩ | ⟨-, rfl⟩ | ⟨-, -, rfl⟩ | ⟨-, rfl⟩ | ⟨-, rfl⟩ | ⟨-, rfl⟩ | ⟨e, op, -, -, rfl⟩
  iterate 4 exact ⟨[], .none rfl rfl rfl⟩
  · exact ⟨_, rfl, rfl, by simp only [List.foldl_map, DeviceEvent.apply], s.vtcImage.writes_legal⟩
  iterate 4 exact ⟨[], .none rfl rfl rfl⟩
  · exact ⟨_, rfl, rfl, by simp only [List.foldl_map, DeviceEvent.apply], s.pllImage.writes_legal⟩
  · exact ⟨_, rfl, rfl, rfl, List.forall_mem_singleton.2 legal_ctrlStart⟩
  · exact ⟨_, rfl, rfl, rfl, List.forall_mem_singleton.2 legal_ctrlStop⟩
  iterate 2 exact ⟨[], .none rfl rfl rfl⟩

/-- A poll step reads STATUS; PLL_START's timeout clears CTRL as well (R196, R201). -/
theorem engineStep_accesses {s t : State} (h : engineStep s = .next t) : ∃ es, Accesses s t es := by
  have hread : ∀ v, ∀ e ∈ [DeviceEvent.pllRead 0x04 v], e.legal := fun v =>
    List.forall_mem_singleton.2 (legal_statusRead v)
  rcases engineStep_cases h with ⟨-, rfl⟩ | ⟨i, -, hx⟩ | ⟨w, -, -, rfl⟩ | ⟨k, -, rfl⟩ | ⟨k, -, rfl⟩
  · exact ⟨[], .none rfl rfl rfl⟩
  · exact exec_accesses hx
  · exact ⟨[], .none (by simp) (by simp) (by simp)⟩
  · obtain ⟨ans, n, h | ⟨-, h⟩ | h⟩ := pollStartStep_cases k s <;> rw [h]
    · exact ⟨_, rfl, rfl, rfl, hread _⟩
    · exact ⟨_, rfl, rfl, rfl, hread _⟩
    · exact ⟨_, rfl, rfl, rfl, List.forall_mem_cons.2 ⟨legal_statusRead _, List.forall_mem_singleton.2 legal_ctrlStop⟩⟩
  · obtain ⟨ans, n, h | ⟨-, h⟩ | h⟩ := pollStopStep_cases k s <;> rw [h] <;> exact ⟨_, rfl, rfl, rfl, hread _⟩

/-- No host write reaches a device (R77). -/
theorem EngineReg.write_accesses (r : EngineReg) (v : Word) (s : State) : Accesses s (r.write v s) [] := by
  rcases write_cases r v s with ⟨-, h⟩ | ⟨tm, fl, -, h⟩ | ⟨-, h⟩ | ⟨-, h⟩ | ⟨rf, tol, h⟩ | ⟨d, m, o, -, h⟩ <;>
  · rw [h]
    exact .none rfl rfl rfl

/-- Of the effects of a step only the engine's reaches a device (R77, R251). -/
theorem step_accesses {s t : State} (h : step s = .next t) : ∃ es, Accesses s t es := by
  rcases step_effect h with ⟨ag, u, hr, n, hu, rfl⟩ | ⟨ag, hr, rfl⟩ | ⟨ag, rfl⟩ | ⟨a, rest, v, r, -, -, -, rfl⟩ |
    ⟨rest, -, rfl⟩
  · obtain ⟨es, hp, hh, hm, hl⟩ := engineStep_accesses hu
    exact ⟨es, hp, hh, hm, hl⟩
  · exact ⟨[], .none rfl rfl rfl⟩
  · exact ⟨[], .none rfl rfl rfl⟩
  · obtain ⟨hp, hh, hm, hl⟩ := r.write_accesses v { s with agenda := rest }
    exact ⟨[], hp, hh, hm, hl⟩
  · exact ⟨[], .none rfl rfl rfl⟩

theorem DeviceEvent.wf_apply (p : Params) {m : Memory} (hm : Memory.wf m) (e : DeviceEvent) :
    Memory.wf (e.apply p m) := by
  cases e with
  | vtcWrite off v => exact Memory.wf_writeWord hm _ v
  | pllWrite off v => exact Memory.wf_writeWord hm _ v
  | pllRead off v => exact hm

theorem DeviceEvent.wf_applyAll (p : Params) {m : Memory} (hm : Memory.wf m) (es : List DeviceEvent) :
    Memory.wf (es.foldl (DeviceEvent.apply p) m) := by
  induction es generalizing m with
  | nil => exact hm
  | cons e es ih => exact ih (e.wf_apply p hm)

/-- R79: the replay of a longer history goes on from the replay of the shorter one. -/
theorem replay_append (p : Params) (h es : List DeviceEvent) :
    replay p (h ++ es) = es.foldl (DeviceEvent.apply p) (replay p h) :=
  List.foldl_append

theorem DeviceInv.of_accesses {s t : State} {es : List DeviceEvent} (hs : DeviceInv s) (h : Accesses s t es) :
    DeviceInv t where
  wf := by
    rw [h.mem]
    exact DeviceEvent.wf_applyAll _ hs.wf es
  replays := by
    rw [h.mem, h.params, h.history, replay_append, ← hs.replays]
  legal := by
    rw [h.history, List.forall_mem_append]
    exact ⟨hs.legal, h.legal⟩

/-- Settles O57: a step makes legal accesses, each of which the memory and the history take alike. -/
theorem stepKeepsTheDeviceMemoryOfTheHistory : Obligations.StepKeepsTheDeviceMemoryOfTheHistory := by
  intro s t hs h
  obtain ⟨es, hes⟩ := step_accesses h
  exact hs.of_accesses hes

/-- Settles O41: the accesses a step makes are what it appends to the history. -/
theorem historyGrowsAndParametersStay : Obligations.HistoryGrowsAndParametersStay := by
  intro s t h
  obtain ⟨es, hes⟩ := step_accesses h
  exact ⟨⟨es, hes.history.symm⟩, hes.params⟩

end Sys2Proof.Machine
end

section
/-! Which host accesses are refused (R64), and the life of a host read made during a command (R74, R105). -/

namespace Sys2Proof.Machine

/-- The host's turn: its access, with the turn taken. -/
theorem step_host {s : State} {a : HostAccess} {rest : List Turn} (hv : s.params.valid = true)
    (ha : s.agenda = .host a :: rest) : step s = hostAccess a { s with agenda := rest } := by
  simp only [step, hv, ha, if_true]

/-- The three tests of a host access are its only refusals. -/
theorem hostAccess_refused_iff (a : HostAccess) (s : State) :
    (∃ r, hostAccess a s = .refused r) ↔
      a.size ≠ .word ∨ 256 ≤ (a.addr - s.params.engineBase).toNat ∨
        (a.addr - s.params.engineBase).toNat % 4 ≠ 0 := by
  unfold hostAccess
  dsimp only
  split
  · next hsize => exact iff_of_true ⟨_, rfl⟩ (.inl hsize)
  · next hsize =>
    split
    · next hout => exact iff_of_true ⟨_, rfl⟩ (.inr (.inl hout))
    · next hout =>
      split
      · next hmis => exact iff_of_true ⟨_, rfl⟩ (.inr (.inr hmis))
      · next hmis =>
        refine iff_of_false ?_ (not_or.2 ⟨hsize, not_or.2 ⟨hout, hmis⟩⟩)
        cases a.kind <;> exact nofun

/-- Settles O50: with valid parameters the step is the host access. -/
theorem badHostAccessIsRefused : Obligations.BadHostAccessIsRefused := by
  intro s a rest hv ha
  rw [step_host hv ha]
  exact (hostAccess_refused_iff a { s with agenda := rest }).symm

/-- STATUS reads BUSY 1 as long as SEQ is not Ready (R57, R74). -/
theorem readOffset_status_busy {s : State} (h : s.seq ≠ .ready) : (readOffset 0x004 s).getLsbD 0 = true := by
  obtain ⟨hbusy, -⟩ := statusWord_fields s
  exact hbusy.trans ((busy_iff s).2 h)

theorem step_busyRead {s : State} {off : Nat} {rest : List Turn} (hv : s.params.valid = true) (hs : s.seq ≠ .ready)
    (hoff : off < 256) (hal : off % 4 = 0)
    (ha : s.agenda = .host ⟨s.params.engineBase + BitVec.ofNat 32 off, .word, .read⟩ :: rest) :
    step s = .next { s with
      agenda := rest
      hostReads := s.hostReads ++ [.raced off (readOffset off s) (readOffset off s)] } := by
  have hreads : readOffset off { s with agenda := rest } = readOffset off s :=
    readOffset_congr off s rest s.hostReads s.freeCount
  have hacc := hostAccess_at (s := { s with agenda := rest }) hoff hal .read
  rw [step_host hv ha, hacc]
  dsimp only
  rw [hostRead_busy (s := { s with agenda := rest }) hs, hreads]

theorem engineStep_hostReads {s t : State} (h : engineStep s = .next t) : t.hostReads = s.hostReads := by
  rcases engineStep_command_or_frame h with ⟨i, -, hx⟩ | ⟨hi, m, ans, n, ps, q, er, rfl⟩
  · obtain ⟨hreads, -⟩ := exec_hostReads hx
    exact hreads
  · rfl

/-- What a race takes of a step does not depend on the schedule, the host's reads or the draws. -/
theorem HostRead.note_congr (s t : State) (ag : List Turn) (hr : List HostRead) (n : Nat) :
    HostRead.note s { t with hostReads := hr, freeCount := n } = HostRead.note { s with agenda := ag } t := by
  funext r
  cases r with
  | got v => rfl
  | raced off before after =>
    have hbefore : readOffset off { s with agenda := ag } = readOffset off s :=
      readOffset_congr off s ag s.hostReads s.freeCount
    have hafter : readOffset off { t with hostReads := hr, freeCount := n, seq := s.seq } =
        readOffset off { t with seq := s.seq } :=
      readOffset_congr off { t with seq := s.seq } t.agenda hr n
    simp only [HostRead.note, hbefore, hafter]

/-- Over a turn of the engine during a command every read notes the step, and is settled if the step ends the command. -/
theorem engineTurn_hostReads {s t : State} (hs : s.seq ≠ .ready) (h : engineTurn s = .next t) :
    (t.seq ≠ .ready → t.hostReads = s.hostReads.map (HostRead.note s t)) ∧
    (t.seq = .ready → ∃ n, t.hostReads = HostRead.settle (s.hostReads.map (HostRead.note s t)) n) := by
  obtain ⟨u, hu, rfl⟩ := engineTurn_cases h
  have hnote : HostRead.note s (s.closeReads u) = HostRead.note s u := HostRead.note_congr s u s.agenda _ _
  rw [hnote, ← engineStep_hostReads hu]
  constructor
  · intro ht
    rw [closeReads_busy (t := u) hs ht]
  · intro ht
    rw [closeReads_ends (t := u) hs ht]
    exact ⟨_, rfl⟩

theorem step_hostReads_busy {s t : State} (hm : s.engineMoves) (hs : s.seq ≠ .ready) (h : step s = .next t) :
    (t.seq ≠ .ready → t.hostReads = s.hostReads.map (HostRead.note s t)) ∧
    (t.seq = .ready → ∃ n, t.hostReads = HostRead.settle (s.hostReads.map (HostRead.note s t)) n) := by
  obtain ⟨hv, -⟩ := step_cases h
  rw [step_engineMoves hv hm] at h
  have hnote : HostRead.note s t = HostRead.note { s with agenda := s.agenda.tail } t :=
    HostRead.note_congr s t s.agenda.tail t.hostReads t.freeCount
  rw [hnote]
  exact engineTurn_hostReads (s := { s with agenda := s.agenda.tail }) hs h

theorem HostRead.getElem?_map_note {rs : List HostRead} {i : Nat} {r : HostRead} (h : rs[i]? = some r) (s t : State) :
    (rs.map (HostRead.note s t))[i]? = some (HostRead.note s t r) := by
  rw [List.getElem?_map, h, Option.map_some]

/-- Settles O48: the turn that makes the read opens the race; over a turn of the engine each read goes its own way
through `note`, and through `settle` when the command ends. -/
theorem busyReadReturnsBeforeOrAfter : Obligations.BusyReadReturnsBeforeOrAfter := by
  refine ⟨fun s off rest hv hs hoff hal ha => ⟨step_busyRead hv hs hoff hal ha, ?_⟩, fun s t hm hs h => ?_⟩
  · rintro rfl
    exact readOffset_status_busy hs
  · obtain ⟨hgoesOn, hends⟩ := step_hostReads_busy hm hs h
    by_cases ht : t.seq = .ready
    · obtain ⟨n, hreads⟩ := hends ht
      rw [hreads]
      refine ⟨by simp, fun i v hi => ?_, fun i off before after hi => ⟨fun hbusy => absurd ht hbusy, fun _ => ?_⟩⟩
      · obtain ⟨hgot, -⟩ := HostRead.settle_get (n := n) (HostRead.getElem?_map_note hi s t)
        exact hgot v rfl
      · obtain ⟨-, hraced⟩ := HostRead.settle_get (n := n) (HostRead.getElem?_map_note hi s t)
        exact hraced off before _ rfl
    · rw [hgoesOn ht]
      exact ⟨List.length_map _, fun i v hi => HostRead.getElem?_map_note hi s t,
        fun i off before after hi => ⟨fun _ => HostRead.getElem?_map_note hi s t, fun hready => absurd hready ht⟩⟩

end Sys2Proof.Machine
end

section
/-! Command words, the words and bytes that decode to them (R80 to R84), and a pending word that is none (R221). -/

namespace Sys2Proof.Machine

/-- The bytes of a word, put together again (R63). -/
theorem wordOfBytes_bytesOfWord (w : Word) :
    wordOfBytes (w.extractLsb' 0 8) (w.extractLsb' 8 8) (w.extractLsb' 16 8) (w.extractLsb' 24 8) = w := by
  rw [wordOfBytes, BitVec.extractLsb'_append_extractLsb'_eq_extractLsb' (by rfl),
    BitVec.extractLsb'_append_extractLsb'_eq_extractLsb' (by rfl),
    BitVec.extractLsb'_append_extractLsb'_eq_extractLsb' (by rfl)]
  exact BitVec.extractLsb'_eq_self

/-- Decoding the bytes of a word is decoding the word. -/
theorem decodeBytes_bytesOfWord_append {w : Word} {i : Instr} (h : decodeWord w = .ok i) (rest : List Byte) :
    decodeBytes (bytesOfWord w ++ rest) = .ok (i, rest) := by
  simp only [bytesOfWord, List.cons_append, List.nil_append, decodeBytes, wordOfBytes_bytesOfWord, h]

/-- Bytes that decode are the four bytes of a word that decodes, and the rest. -/
theorem decodeBytes_eq_ok {bs rest : List Byte} {i : Instr} (h : decodeBytes bs = .ok (i, rest)) :
    ∃ w, decodeWord w = .ok i ∧ bs = bytesOfWord w ++ rest := by
  unfold decodeBytes at h
  split at h
  · next b0 b1 b2 b3 tail =>
    split at h
    · next j hj =>
      cases h
      exact ⟨_, hj, by rw [bytesOfWord_wordOfBytes]; rfl⟩
    · cases h
  · cases h

/-- Settles O3: on bytes as on words, from `decodeWord_encode` the one way and `decodeWord_eq_ok` the other. -/
theorem bytesDecodeAndEncodeAgree : Obligations.BytesDecodeAndEncodeAgree := by
  refine ⟨fun i rest => decodeBytes_bytesOfWord_append (decodeWord_encode i) rest, fun bs i rest h => ?_⟩
  obtain ⟨w, hw, hbs⟩ := decodeBytes_eq_ok h
  rw [hbs, decodeWord_eq_ok hw, encodeBytes]

/-- Each row of R82 is the word of its command, and each command has its row. -/
theorem mem_commandWords_iff {w : Word} {i : Instr} : (w, i) ∈ commandWords ↔ w = encode i := by
  have hrows : ∀ row ∈ commandWords, row.1 = encode row.2 := by decide
  constructor
  · exact hrows (w, i)
  · rintro rfl
    cases i <;> decide

theorem decodeWord_ok_iff {w : Word} {i : Instr} : decodeWord w = .ok i ↔ w = encode i := by
  constructor
  · exact decodeWord_eq_ok
  · rintro rfl
    exact decodeWord_encode i

/-- A word that is no command's is rejected (R84). -/
theorem decodeWord_error {w : Word} (h : ∀ i, w ≠ encode i) : ∃ r, decodeWord w = .error r := by
  cases hw : decodeWord w with
  | ok i => exact absurd (decodeWord_eq_ok hw) (h i)
  | error r => exact ⟨r, rfl⟩

/-- Settles O2: a row of the opcode map is a word and the command it encodes. -/
theorem wordDecodesExactlyWhenItIsTheCommandWord : Obligations.WordDecodesExactlyWhenItIsTheCommandWord := by
  refine ⟨fun w i => decodeWord_ok_iff.trans mem_commandWords_iff.symm, fun w h => ?_⟩
  exact decodeWord_error fun i hi => h i (mem_commandWords_iff.2 hi)

/-- Settles O1: each literal is the encoding of its command. -/
theorem opcodeMapWordsDecode : Obligations.OpcodeMapWordsDecode :=
  ⟨decodeWord_encode .nop, decodeWord_encode .derivePacked, decodeWord_encode .deriveVtc, decodeWord_encode .vtcWrite,
    decodeWord_encode .clkPrescale, decodeWord_encode .pllSearch, decodeWord_encode .pllPack,
    decodeWord_encode .pllWrite, decodeWord_encode .pllStart, decodeWord_encode .pllStop, decodeWord_encode .clearError⟩

/-- The opcodes that R82 assigns are 0 to 9 and 15. -/
theorem exists_eq_encode_iff (w : Word) : (∃ i, w = encode i) ↔ w.toNat ≤ 9 ∨ w.toNat = 15 := by
  constructor
  · rintro ⟨i, rfl⟩
    cases i <;> decide
  · intro h
    have hrows : ∀ n < 16, n ≤ 9 ∨ n = 15 → ∃ row ∈ commandWords, row.1.toNat = n := by decide
    obtain ⟨⟨v, i⟩, hrow, hv⟩ := hrows w.toNat (by omega) h
    exact ⟨i, (BitVec.eq_of_toNat_eq hv).symm.trans (mem_commandWords_iff.1 hrow)⟩

/-- The illegal words of R83 are those that no command has. -/
theorem illegalWord_iff (w : Word) : IllegalWord w ↔ ∀ i, w ≠ encode i := by
  rw [← not_exists, exists_eq_encode_iff, IllegalWord]
  omega

/-- The low byte of R221 is the OPCODE field of R80. -/
theorem opcodeOf_eq_setWidth (w : Word) : opcodeOf w = w.setWidth 8 := by
  apply BitVec.eq_of_toNat_eq
  simp [opcodeOf]

theorem engineStep_illegalWord {s : State} {w : Word} (hs : s.seq = .pending w) (hw : IllegalWord w) :
    engineStep s = .next { s with
      seq := .ready
      error := if s.error.code = .noError then ⟨.illegalCommand, w.setWidth 8⟩ else s.error } := by
  obtain ⟨r, hr⟩ := decodeWord_error ((illegalWord_iff w).1 hw)
  simp only [engineStep, hs, runWord, hr, State.raise_eq, opcodeOf_eq_setWidth]

/-- Settles O5: the turn of the engine is its step on the illegal word, with the host's reads closed over it. -/
theorem illegalWordRaisesIllegalCommand : Obligations.IllegalWordRaisesIllegalCommand := by
  constructor
  · intro w
    simp only [illegalWord_iff, mem_commandWords_iff, ne_eq]
  · intro s w hv hm hs hw
    rw [step_engineMoves hv hm]
    exact engineTurn_of_next (engineStep_illegalWord (s := { s with agenda := s.agenda.tail }) hs hw)

end Sys2Proof.Machine
end

section
/-! A round of the host's WAIT loop (R86). -/

namespace Sys2Proof.Machine

theorem step_wait {s : State} {rest : List Turn} (hv : s.params.valid = true) (ha : s.agenda = .wait :: rest) :
    step s = .next (hostWait { s with agenda := rest }) := by
  simp only [step, hv, ha, if_true]

/-- While a command is pending or executing, the loop sets the turns of its next round. -/
theorem hostWait_busy {s : State} (h : s.seq ≠ .ready) :
    hostWait s = { s with
      agenda := .engine :: .wait :: s.agenda
      hostReads := s.hostReads ++ [.raced 0x004 (EngineReg.read .status s) (EngineReg.read .status s)] } := by
  simp only [hostWait, (busy_iff s).2 h, if_true, hostRead_busy h]
  rfl

theorem hostWait_ready {s : State} (h : s.seq = .ready) :
    hostWait s = { s with hostReads := s.hostReads ++ [.got (EngineReg.read .status s)] } := by
  simp only [hostWait, busy_eq_false.2 h, Bool.false_eq_true, if_false, hostRead_ready h]
  rfl

/-- Bit 0 of STATUS is BUSY (R23). -/
theorem status_busyBit (s : State) : (EngineReg.read .status s).getLsbD 0 = s.busy := by
  obtain ⟨hbusy, -⟩ := statusWord_fields s
  exact hbusy

/-- Settles O49: the BUSY bit that the round reads is the model's own test. -/
theorem waitReadsStatusUntilBusyReadsZero : Obligations.WaitReadsStatusUntilBusyReadsZero := by
  intro s rest hv ha
  dsimp only
  rw [status_busyBit, step_wait hv ha]
  refine ⟨fun h => ?_, fun h => ?_, busy_iff s⟩
  · exact congrArg Host.Outcome.next (hostWait_busy (s := { s with agenda := rest }) ((busy_iff s).1 h))
  · exact congrArg Host.Outcome.next (hostWait_ready (s := { s with agenda := rest }) (busy_eq_false.1 h))

end Sys2Proof.Machine
end

section
/-! Whatever ERROR holds, a command does the same to everything else (R109). -/

namespace Sys2Proof.Machine

/-- The state with another content of ERROR (R109). -/
def State.withError (er : ErrorReg) (s : State) : State := { s with error := er }

/-- Raising an error does to everything but ERROR what it would do whatever ERROR held (R226). -/
theorem State.raise_withError (e : ErrorCode) (op : Byte) (er er' : ErrorReg) (s : State) :
    ((s.withError er).raise e op).withError er' = (s.raise e op).withError er' := by
  rw [State.raise_eq, State.raise_eq]
  rfl

/-- Each case of a command tests and uses fields other than ERROR, so the run with another ERROR is in the same case. -/
theorem exec_withError (i : Instr) (s : State) (er : ErrorReg) : ∃ t t', exec i s = .next t ∧
    exec i (s.withError er) = .next t' ∧ t.withError s.error = t'.withError s.error := by
  have hraise : ∀ e op, (s.raise e op).withError s.error = ((s.withError er).raise e op).withError s.error :=
    fun e op => (State.raise_withError e op er s.error s).symm
  cases i
  case nop => exact ⟨_, _, rfl, rfl, rfl⟩
  case derivePacked =>
    rcases bool_cases s.timing.valid with hv | hv
    · exact ⟨_, _, execDerivePacked_invalid hv, execDerivePacked_invalid (s := s.withError er) hv, rfl⟩
    · exact ⟨_, _, execDerivePacked_valid hv, execDerivePacked_valid (s := s.withError er) hv, rfl⟩
  case deriveVtc => exact ⟨_, _, execDeriveVtc_eq s, execDeriveVtc_eq (s.withError er), rfl⟩
  case vtcWrite =>
    rcases bool_cases s.vtcImgValid with hv | hv
    · exact ⟨_, _, execVtcWrite_notReady hv, execVtcWrite_notReady (s := s.withError er) hv, hraise _ _⟩
    · exact ⟨_, _, execVtcWrite_eq hv, execVtcWrite_eq (s := s.withError er) hv, rfl⟩
  case clkPrescale =>
    by_cases hfits : 5 * s.pixelClockHz.toNat ≤ 0xFFFFFFFF
    · exact ⟨_, _, execClkPrescale_fits hfits, execClkPrescale_fits (s := s.withError er) hfits, rfl⟩
    · have hover : 0xFFFFFFFF < 5 * s.pixelClockHz.toNat := Nat.lt_of_not_le hfits
      exact ⟨_, _, execClkPrescale_overflows hover, execClkPrescale_overflows (s := s.withError er) hover, hraise _ _⟩
  case pllSearch =>
    rcases bool_cases s.targetValid with hv | hv
    · exact ⟨_, _, execPllSearch_notReady hv, execPllSearch_notReady (s := s.withError er) hv, hraise _ _⟩
    · by_cases hz : s.searchTargetHz = 0
      · exact ⟨_, _, execPllSearch_zero hv hz, execPllSearch_zero (s := s.withError er) hv hz, hraise _ _⟩
      · obtain ⟨c, hc, -⟩ := pllSearch_spec s.searchTargetHz.toNat
        exact ⟨_, _, execPllSearch_of_result hv hz hc, execPllSearch_of_result (s := s.withError er) hv hz hc, rfl⟩
  case pllPack =>
    rcases bool_cases s.searchValid with hv | hv
    · exact ⟨_, _, execPllPack_notReady hv, execPllPack_notReady (s := s.withError er) hv, hraise _ _⟩
    · by_cases hr : s.tripleInRange
      · exact ⟨_, _, execPllPack_inRange hv hr, execPllPack_inRange (s := s.withError er) hv hr, rfl⟩
      · exact ⟨_, _, execPllPack_outOfRange hv hr, execPllPack_outOfRange (s := s.withError er) hv hr,
          (State.raise_withError _ _ er s.error { s with pllImgValid := false }).symm⟩
  case pllWrite =>
    rcases bool_cases s.pllImgValid with hv | hv
    · exact ⟨_, _, execPllWrite_notReady hv, execPllWrite_notReady (s := s.withError er) hv, hraise _ _⟩
    · exact ⟨_, _, execPllWrite_eq hv, execPllWrite_eq (s := s.withError er) hv, rfl⟩
  case pllStart => exact ⟨_, _, execPllStart_eq s, execPllStart_eq (s.withError er), rfl⟩
  case pllStop => exact ⟨_, _, execPllStop_eq s, execPllStop_eq (s.withError er), rfl⟩
  case clearError => exact ⟨_, _, rfl, rfl, rfl⟩

/-- Settles O33: the two runs of a command differ in ERROR alone. -/
theorem commandsRunWhateverErrorHolds : Obligations.CommandsRunWhateverErrorHolds :=
  fun i s er => exec_withError i s er

end Sys2Proof.Machine
end

section
/-! What a host write in Ready does to the register at its offset (R54, R55, R102, R103). -/

namespace Sys2Proof.Machine

theorem EngineReg.offset_lt (r : EngineReg) : r.offset < 256 := by
  cases r <;> decide

theorem EngineReg.offset_aligned (r : EngineReg) : r.offset % 4 = 0 := by
  cases r <;> decide

/-- A register that keeps no bit of a host write and is not CMD is read-only (R103). -/
theorem EngineReg.write_readOnly {r : EngineReg} (h : r.keptBits = none) (hcmd : r ≠ .cmd) (v : Word) (s : State) :
    r.write v s = s := by
  cases r
  case cmd => exact absurd rfl hcmd
  case hActive | hSyncStart | hSyncEnd | hTotal | vActive | vSyncStart | vSyncEnd | vTotal | timingFlags |
      pixelClockHz | refreshHz | searchTargetHz | toleranceHz | resD | resM | resO =>
    exact absurd h (by decide)
  all_goals rfl

/-- What a host write does to the registers (R102): the one it names takes the word, cut to the width of the field, and
no other input changes; the valid bits and SEQ are apart. -/
theorem EngineReg.write_fields (r : EngineReg) (v : Word) (s : State) : ∃ q pk vtc tg se pll, r.write v s = { s with
    timing := {
      hActive := if r = .hActive then v.setWidth 16 else s.timing.hActive
      hSyncStart := if r = .hSyncStart then v.setWidth 16 else s.timing.hSyncStart
      hSyncEnd := if r = .hSyncEnd then v.setWidth 16 else s.timing.hSyncEnd
      hTotal := if r = .hTotal then v.setWidth 16 else s.timing.hTotal
      vActive := if r = .vActive then v.setWidth 16 else s.timing.vActive
      vSyncStart := if r = .vSyncStart then v.setWidth 16 else s.timing.vSyncStart
      vSyncEnd := if r = .vSyncEnd then v.setWidth 16 else s.timing.vSyncEnd
      vTotal := if r = .vTotal then v.setWidth 16 else s.timing.vTotal }
    timingFlags := if r = .timingFlags then v.setWidth 3 else s.timingFlags
    pixelClockHz := if r = .pixelClockHz then v else s.pixelClockHz
    refreshHz := if r = .refreshHz then v else s.refreshHz
    searchTargetHz := if r = .searchTargetHz then v else s.searchTargetHz
    toleranceHz := if r = .toleranceHz then v else s.toleranceHz
    resD := if r = .resD then v.setWidth 8 else s.resD
    resM := if r = .resM then v.setWidth 8 else s.resM
    resO := if r = .resO then v.setWidth 8 else s.resO
    seq := q, packedValid := pk, vtcImgValid := vtc, targetValid := tg, searchValid := se, pllImgValid := pll } := by
  cases r <;> exact ⟨_, _, _, _, _, _, rfl⟩

/-- Narrowing a word to `n` bits and reading it back under zeros keeps its low `n` bits. -/
theorem setWidth_setWidth_eq_and (v : Word) {n : Nat} (hn : n ≤ 32) :
    (v.setWidth n).setWidth 32 = v &&& BitVec.ofNat 32 (2 ^ n - 1) := by
  have hlt : 2 ^ n - 1 < 2 ^ 32 :=
    (Nat.sub_lt (Nat.two_pow_pos n) Nat.one_pos).trans_le (Nat.pow_le_pow_right (by decide) hn)
  apply BitVec.eq_of_toNat_eq
  rw [BitVec.toNat_setWidth_of_le hn, BitVec.toNat_setWidth, BitVec.toNat_and, BitVec.toNat_ofNat,
    Nat.mod_eq_of_lt hlt, Nat.and_two_pow_sub_one_eq_mod]

/-- A RW register reads the word just written with its reserved bits 0 (R102). -/
theorem EngineReg.read_write_same {r : EngineReg} {mask : Word} (h : r.keptBits = some mask) (v : Word) (s : State) :
    r.read (r.write v s) = v &&& mask := by
  cases r
  case hActive | hSyncStart | hSyncEnd | hTotal | vActive | vSyncStart | vSyncEnd | vTotal =>
    cases h
    exact setWidth_setWidth_eq_and v (n := 16) (by decide)
  case timingFlags =>
    cases h
    exact setWidth_setWidth_eq_and v (n := 3) (by decide)
  case pixelClockHz | refreshHz | searchTargetHz | toleranceHz =>
    cases h
    exact BitVec.and_allOnes.symm
  case resD | resM | resO =>
    cases h
    exact setWidth_setWidth_eq_and v (n := 8) (by decide)
  all_goals cases h

/-- STATUS apart, which shows the valid bits and BUSY, a host write shows in the register it names alone. -/
theorem EngineReg.read_write_of_ne {r r' : EngineReg} (hne : r' ≠ r) (hst : r' ≠ .status) (v : Word) (s : State) :
    r'.read (r.write v s) = r'.read s := by
  obtain ⟨q, pk, vtc, tg, se, pll, h⟩ := r.write_fields v s
  rw [h]
  cases r'
  case status => exact absurd rfl hst
  all_goals simp [EngineReg.read, hne.symm, State.errorWord]

/-- The valid bits after a host write to a RW register (R54, R55). -/
theorem EngineReg.write_validBits_eq {r : EngineReg} {mask : Word} (h : r.keptBits = some mask) (v : Word) (s : State) :
    ((r.write v s).packedValid, (r.write v s).vtcImgValid, (r.write v s).targetValid, (r.write v s).searchValid,
      (r.write v s).pllImgValid) =
      if r.offset < 0x034 then (false, false, s.targetValid, s.searchValid, s.pllImgValid)
      else if r = .pixelClockHz then (s.packedValid, s.vtcImgValid, false, s.searchValid, s.pllImgValid)
      else if r = .searchTargetHz then (s.packedValid, s.vtcImgValid, true, false, s.pllImgValid)
      else if r = .resD ∨ r = .resM ∨ r = .resO then (s.packedValid, s.vtcImgValid, s.targetValid, true, false)
      else (s.packedValid, s.vtcImgValid, s.targetValid, s.searchValid, s.pllImgValid) := by
  cases r
  case hActive | hSyncStart | hSyncEnd | hTotal | vActive | vSyncStart | vSyncEnd | vTotal | timingFlags |
      pixelClockHz | refreshHz | searchTargetHz | toleranceHz | resD | resM | resO => rfl
  all_goals cases h

/-- A host write to a register other than CMD leaves the sequencer alone (R100). -/
theorem EngineReg.write_seq_of_keptBits {r : EngineReg} {mask : Word} (h : r.keptBits = some mask) (v : Word)
    (s : State) : (r.write v s).seq = s.seq := by
  cases r
  case cmd => cases h
  all_goals rfl

/-- What a register reads does not depend on the schedule. -/
theorem EngineReg.read_agenda (r : EngineReg) (s : State) (ag : List Turn) :
    r.read { s with agenda := ag } = r.read s := by
  cases r <;> rfl

end Sys2Proof.Machine
end

section
/-! The turns of the host: a write in Ready or while busy, and a read in Ready (R100, R102 to R105). -/

namespace Sys2Proof.Machine

theorem step_hostWrite {s : State} {off : Nat} {v : Word} {rest : List Turn} (hv : s.params.valid = true)
    (hoff : off < 256) (hal : off % 4 = 0)
    (ha : s.agenda = .host ⟨s.params.engineBase + BitVec.ofNat 32 off, .word, .write v⟩ :: rest) :
    step s = .next (hostWrite off v { s with agenda := rest }) := by
  rw [step_host hv ha]
  exact hostAccess_at (s := { s with agenda := rest }) hoff hal (.write v)

theorem hostWrite_ready {s : State} (h : s.seq = .ready) (off : Nat) (v : Word) :
    hostWrite off v s = writeOffset off v s := by
  simp only [hostWrite, busy_eq_false.2 h, Bool.false_eq_true, if_false]

theorem hostWrite_busy {s : State} (h : s.seq ≠ .ready) (off : Nat) (v : Word) :
    hostWrite off v s = { s with error := if s.error.code = .noError then ⟨.busyWrite, 0xFF⟩ else s.error } := by
  simp only [hostWrite, (busy_iff s).2 h, if_true, State.recordError_eq]

theorem writeOffset_offset (r : EngineReg) (v : Word) (s : State) : writeOffset r.offset v s = r.write v s := by
  simp only [writeOffset, ofOffset_offset]

/-- Settles O46: a busy engine drops the write, wherever it goes. -/
theorem hostWriteWhileBusyIsDropped : Obligations.HostWriteWhileBusyIsDropped := by
  intro s off v rest hv hs hoff hal ha
  rw [step_hostWrite hv hoff hal ha, hostWrite_busy (s := { s with agenda := rest }) hs]

/-- Settles O43: CMD is at offset 0; a busy engine drops this write as any other. -/
theorem hostWriteToCmdIssuesTheCommand : Obligations.HostWriteToCmdIssuesTheCommand := by
  intro s w rest hv ha
  have hzero : s.params.engineBase + BitVec.ofNat 32 EngineReg.cmd.offset = s.params.engineBase := BitVec.add_zero _
  rw [← hzero] at ha
  refine ⟨fun hs => ?_, fun hs => ?_⟩
  · rw [step_hostWrite hv EngineReg.cmd.offset_lt EngineReg.cmd.offset_aligned ha,
      hostWrite_ready (s := { s with agenda := rest }) hs, writeOffset_offset]
    rfl
  · exact hostWriteWhileBusyIsDropped s EngineReg.cmd.offset w rest hv hs EngineReg.cmd.offset_lt
      EngineReg.cmd.offset_aligned ha

/-- Settles O45: at the offset is a reserved word or a read-only register. -/
theorem hostWriteToReadOnlyIsIgnored : Obligations.HostWriteToReadOnlyIsIgnored := by
  intro s off v rest hv hs hoff hal hne hro ha
  rw [step_hostWrite hv hoff hal ha, hostWrite_ready (s := { s with agenda := rest }) hs, writeOffset]
  split
  · next r hr =>
    have hcmd : r ≠ .cmd := by
      rintro rfl
      exact hne (offset_of_ofOffset hr).symm
    rw [EngineReg.write_readOnly (hro r hr) hcmd]
  · rfl

/-- Settles O44: the step is the write to the register at the offset. -/
theorem hostWriteStoresTheKeptBits : Obligations.HostWriteStoresTheKeptBits := by
  intro s r mask v rest hv hs hmask ha
  have hstep : step s = .next (r.write v { s with agenda := rest }) := by
    rw [step_hostWrite hv r.offset_lt r.offset_aligned ha, hostWrite_ready (s := { s with agenda := rest }) hs,
      writeOffset_offset]
  have hother : ∀ r', r' ≠ r → r' ≠ .status → r'.read (r.write v { s with agenda := rest }) = r'.read s :=
    fun r' hne hst => (EngineReg.read_write_of_ne hne hst v _).trans (r'.read_agenda s rest)
  refine ⟨_, hstep, EngineReg.read_write_same hmask v _, hother, EngineReg.write_validBits_eq hmask v _,
    (EngineReg.write_seq_of_keptBits hmask v _).trans hs, ?_⟩
  obtain ⟨q, pk, vtc, tg, se, pll, h⟩ := r.write_fields v { s with agenda := rest }
  rw [h]
  exact ⟨rfl, rfl, rfl, rfl, rfl, rfl, rfl, rfl, rfl, rfl⟩

theorem step_readyRead {s : State} {off : Nat} {rest : List Turn} (hv : s.params.valid = true) (hs : s.seq = .ready)
    (hoff : off < 256) (hal : off % 4 = 0)
    (ha : s.agenda = .host ⟨s.params.engineBase + BitVec.ofNat 32 off, .word, .read⟩ :: rest) :
    step s = .next { s with agenda := rest, hostReads := s.hostReads ++ [.got (readOffset off s)] } := by
  have hreads : readOffset off { s with agenda := rest } = readOffset off s :=
    readOffset_congr off s rest s.hostReads s.freeCount
  have hacc := hostAccess_at (s := { s with agenda := rest }) hoff hal .read
  rw [step_host hv ha, hacc]
  dsimp only
  rw [hostRead_ready (s := { s with agenda := rest }) hs, hreads]

/-- The registers that read one field. -/
def EngineReg.fieldRegs : List EngineReg := EngineReg.all.filter fun r => r != .status && r != .error

theorem EngineReg.mem_fieldRegs {r : EngineReg} (hst : r ≠ .status) (her : r ≠ .error) :
    r ∈ EngineReg.fieldRegs := by
  cases r
  case status => exact absurd rfl hst
  case error => exact absurd rfl her
  all_goals decide

/-- The list of fields is what the registers read, in the order of R21. -/
theorem registerFields_eq (s : State) : registerFields s = EngineReg.fieldRegs.map fun r => (r, r.read s) := rfl

/-- Settles O47: the turn is a read of `readOffset`, and the list of fields is `registerFields_eq`. -/
theorem hostReadReturnsTheCurrentValue : Obligations.HostReadReturnsTheCurrentValue := by
  refine ⟨fun s off rest hv hs hoff hal ha => ⟨readOffset off s, step_readyRead hv hs hoff hal ha, ?_, ?_⟩,
    fun s r hst her => ?_, fun s r v h => ?_⟩
  · intro r hr
    simp only [readOffset, hr]
  · rintro (rfl | hreserved)
    · rfl
    · simp only [readOffset, hreserved]
  · rw [registerFields_eq]
    exact List.mem_map_of_mem (EngineReg.mem_fieldRegs hst her)
  · rw [registerFields_eq, List.mem_map] at h
    obtain ⟨r', -, heq⟩ := h
    cases heq
    rfl

end Sys2Proof.Machine
end

section
/-! The step that runs a pending command (R101), NOP and CLEAR_ERROR (R107, R108), and the bits of STATUS (R106). -/

namespace Sys2Proof.Machine

theorem engineStep_command {s : State} {w : Word} {i : Instr} (hs : s.seq = .pending w) (hw : decodeWord w = .ok i) :
    engineStep s = exec i s := by
  simp only [engineStep, hs, runWord, hw]

/-- A turn of the engine on a pending command runs it, and closes the host's open reads over it (R74). -/
theorem step_command {s t : State} {w : Word} {i : Instr} (hv : s.params.valid = true) (hm : s.engineMoves)
    (hs : s.seq = .pending w) (hw : decodeWord w = .ok i) (ht : exec i { s with agenda := s.agenda.tail } = .next t) :
    step s = .next (State.closeReads { s with agenda := s.agenda.tail } t) := by
  rw [step_engineMoves hv hm]
  exact engineTurn_of_next ((engineStep_command (s := { s with agenda := s.agenda.tail }) hs hw).trans ht)

/-- A command word is 32 bits wide (R80). -/
theorem tableWord_toNat (w : Word) : tableWord 32 w.toNat = w := by
  rw [tableWord, Nat.mod_eq_of_lt w.isLt, BitVec.ofNat_toNat, BitVec.setWidth_eq]

/-- Settles O4: `withFetchWord` makes the command pending and the turn the engine's. -/
theorem stepRunsThePendingCommand : Obligations.StepRunsThePendingCommand := by
  constructor
  · intro s w i hv hm hs hw
    obtain ⟨t, ht⟩ := exec_next i { s with agenda := s.agenda.tail }
    have hstep := step_command hv hm hs hw ht
    refine ⟨⟨t, ht, hstep⟩, fun hgot => ?_⟩
    obtain ⟨hreads, -⟩ := exec_hostReads ht
    rw [hstep, ht, closeReads_got (hreads.symm ▸ hgot)]
  · intro s i hv
    obtain ⟨t, ht⟩ := exec_next i { s with seq := .pending (encode i) }
    have hfetch : s.withFetchWord 32 (encode i).toNat =
        { s with seq := .pending (encode i), agenda := .engine :: s.agenda } := by
      rw [State.withFetchWord, tableWord_toNat]
    rw [hfetch]
    exact ⟨t, ht, step_command (s := { s with seq := .pending (encode i), agenda := .engine :: s.agenda }) hv
      (.inr ⟨_, rfl⟩) rfl (decodeWord_encode i) ht⟩

/-- Settles O7: NOP is `toReady`. -/
theorem nopOnlyEndsTheCommand : Obligations.NopOnlyEndsTheCommand :=
  fun _ => rfl

/-- An empty ERROR reads 0 (R25). -/
theorem read_error_of_empty {s : State} (h : s.error = .reset) : EngineReg.read .error s = 0 := by
  rw [EngineReg.read, State.errorWord, h]
  rfl

/-- STATUS.ERR (R106). -/
theorem status_errBit (s : State) : (EngineReg.read .status s).getLsbD 4 = s.err := by
  obtain ⟨-, -, -, herr, -⟩ := statusWord_fields s
  exact herr

/-- Settles O8: ERROR is empty after CLEAR_ERROR, and ERROR and STATUS.ERR show it. -/
theorem clearErrorEmptiesTheErrorRegister : Obligations.ClearErrorEmptiesTheErrorRegister := by
  intro s
  exact ⟨_, rfl, rfl, read_error_of_empty rfl, status_errBit _⟩

/-- Settles O52: the fields of STATUS, with BUSY and ERR as what they view. -/
theorem statusBitsAreViews : Obligations.StatusBitsAreViews := by
  intro s
  obtain ⟨hbusy, hpll, h3, herr, hpk, hvtc, htg, hse, himg, hhigh⟩ := statusWord_fields s
  have hreserved : ∀ i, 10 ≤ i → s.statusWord.getLsbD i = false := by
    intro i hi
    by_cases hlt : i < 32
    · have hbit := congrArg (fun x => x.getLsbD (i - 10)) hhigh
      simpa [BitVec.getLsbD_extractLsb', show i - 10 < 22 by omega, Nat.add_sub_cancel' hi] using hbit
    · exact BitVec.getLsbD_of_ge _ _ (Nat.le_of_not_lt hlt)
  exact ⟨hbusy ▸ busy_iff s, hpll, herr ▸ err_eq s, hpk, hvtc, htg, hse, himg, h3, hreserved⟩

end Sys2Proof.Machine
end

section
/-! The deficit-correction loop in closed form: how often it runs, and the packed blanking it ends with (R122 to
R124). -/

namespace Sys2Proof.Machine

/-- The ceiling of `x / n`, by the multiple of `n` it stands for. -/
theorem ceil_eq_iff {n : Nat} (hn : 1 ≤ n) (x c : Nat) :
    (x + (n - 1)) / n = c ↔ x ≤ c * n ∧ c * n < x + n := by
  rw [Nat.div_eq_iff hn]
  omega

/-- The closed form of PK_ITER (R124), for a front porch `x`, a sync width `y` and a back porch `z`. -/
def packIterations (n x y z : Nat) : Nat := (x % n + y % n + z % n + (n - 1)) / n

/-- What packing loses at first is the three remainders. -/
theorem packedBlank_add_remainders (n x y z : Nat) :
    packedBlank n (x / n) (y / n) (z / n) + (x % n + y % n + z % n) = x + y + z := by
  have hx := Nat.div_add_mod' x n
  have hy := Nat.div_add_mod' y n
  have hz := Nat.div_add_mod' z n
  rw [packedBlank, Nat.add_mul, Nat.add_mul]
  omega

/-- R123: after the iterations the packed blanking covers the original one, by less than `n` more. -/
theorem packedBlank_packIterations_bounds {n : Nat} (hn : 1 ≤ n) (x y z : Nat) :
    x + y + z ≤ packedBlank n (x / n + packIterations n x y z) (y / n) (z / n) ∧
    packedBlank n (x / n + packIterations n x y z) (y / n) (z / n) < x + y + z + n := by
  have hsum := packedBlank_add_remainders n x y z
  obtain ⟨hge, hlt⟩ := (ceil_eq_iff hn _ (packIterations n x y z)).1 rfl
  rw [packedBlank_add]
  omega

/-- R122, R124: the loop runs `packIterations` times. The increments that `reconcile_spec` finds are enough for the
remainders, and one fewer is not. -/
theorem reconcile_eq {n : Nat} (hn : 1 ≤ n) (x y z : Nat) :
    reconcile n (y / n) (z / n) (x + y + z) (x + y + z) (x / n) 0 =
      (x / n + packIterations n x y z, packIterations n x y z) := by
  obtain ⟨k, hk, hge, hmin⟩ := reconcile_spec hn (y / n) (z / n) (x + y + z) (x + y + z) (x / n) 0
    (Nat.le_add_left _ _)
  have hsum := packedBlank_add_remainders n x y z
  have henough : x % n + y % n + z % n ≤ k * n := by
    rw [packedBlank_add] at hge
    omega
  have hleast : k * n < x % n + y % n + z % n + n := by
    cases k with
    | zero => omega
    | succ j =>
      have hj := hmin j (Nat.lt_succ_self j)
      rw [packedBlank_add] at hj
      rw [Nat.succ_mul]
      omega
  have hiter : packIterations n x y z = k := (ceil_eq_iff hn _ _).2 ⟨henough, hleast⟩
  rw [hk, hiter, Nat.zero_add]

/-- R123: the three packed parts of the blanking sum to the ceiling of the original blanking over `n`. -/
theorem packed_parts_eq_ceil {n : Nat} (hn : 1 ≤ n) (x y z : Nat) :
    x / n + packIterations n x y z + z / n + y / n = (x + y + z + (n - 1)) / n :=
  ((ceil_eq_iff hn _ _).2 (packedBlank_packIterations_bounds hn x y z)).symm

theorem ceil_le {n : Nat} (hn : 1 ≤ n) (x : Nat) : (x + (n - 1)) / n ≤ x := by
  rw [Nat.div_le_iff_le_mul_add_pred hn]
  exact Nat.add_le_add_right (Nat.le_mul_of_pos_left x hn) _

/-- The packed blanking of a 16-bit blanking fits a word: past `n = x` it is one multiple of `n` or none. -/
theorem ceil_mul_lt_word {n x : Nat} (hn : 1 ≤ n) (hword : n < 2 ^ 32) (hx : x < 2 ^ 16) :
    (x + (n - 1)) / n * n < 2 ^ 32 := by
  obtain ⟨-, hlt⟩ := (ceil_eq_iff hn x _).1 rfl
  rcases Nat.lt_or_ge x n with hsmall | hlarge
  · have hone : (x + (n - 1)) / n ≤ 1 := by
      rw [Nat.div_le_iff_le_mul_add_pred hn]
      omega
    have hle := Nat.mul_le_mul_right n hone
    omega
  · omega

/-- R123: no blanking is added exactly when `n` divides it. -/
theorem ceil_mul_eq_self_iff {n : Nat} (hn : 1 ≤ n) (x : Nat) : (x + (n - 1)) / n * n = x ↔ x % n = 0 := by
  constructor
  · intro h
    rw [← h, Nat.mul_mod_left]
  · intro h
    have hx : x / n * n = x := Nat.div_mul_cancel (Nat.dvd_of_mod_eq_zero h)
    have hceil : (x + (n - 1)) / n = x / n := (ceil_eq_iff hn x _).2 ⟨hx.ge, by omega⟩
    rw [hceil, hx]

theorem packIterations_le_three {n : Nat} (hn : 1 ≤ n) (x y z : Nat) : packIterations n x y z ≤ 3 := by
  have hx := Nat.mod_lt x hn
  have hy := Nat.mod_lt y hn
  have hz := Nat.mod_lt z hn
  rw [packIterations, Nat.div_le_iff_le_mul_add_pred hn]
  omega

theorem packIterations_one (x y z : Nat) : packIterations 1 x y z = 0 := by
  unfold packIterations
  omega

theorem packIterations_two_eq_two_iff (x y z : Nat) :
    packIterations 2 x y z = 2 ↔ x % 2 = 1 ∧ y % 2 = 1 ∧ z % 2 = 1 := by
  unfold packIterations
  omega

theorem packIterations_le_two {n : Nat} (hn : n = 2 ∨ n = 3) (x y z : Nat) : packIterations n x y z ≤ 2 := by
  unfold packIterations
  rcases hn with rfl | rfl <;> omega

theorem packIterations_le {n : Nat} (hn : 1 ≤ n) (x y z : Nat) : packIterations n x y z ≤ n := by
  rcases Nat.lt_or_ge n 3 with hsmall | hlarge
  · obtain rfl | rfl : n = 1 ∨ n = 2 := by omega
    · exact (packIterations_one x y z).trans_le (Nat.zero_le 1)
    · exact packIterations_le_two (.inl rfl) x y z
  · exact (packIterations_le_three hn x y z).trans hlarge

end Sys2Proof.Machine
end

section
/-! The PK_* registers of valid timing inputs as numbers, and DERIVE_PACKED (R120 to R126). -/

namespace Sys2Proof.Machine

/-! The original blanking of R120 is in three parts. -/

/-- From the active pixels to the sync pulse. -/
def TimingInputs.hFrontPorch (t : TimingInputs) : Nat := t.hSyncStart.toNat - t.hActive.toNat
/-- The sync pulse. -/
def TimingInputs.hSyncWidth (t : TimingInputs) : Nat := t.hSyncEnd.toNat - t.hSyncStart.toNat
/-- From the sync pulse to the end of the line. -/
def TimingInputs.hBackPorch (t : TimingInputs) : Nat := t.hTotal.toNat - t.hSyncEnd.toNat

/-- PK_ITER of the timing inputs (R124). -/
def TimingInputs.iterations (n : Nat) (t : TimingInputs) : Nat :=
  packIterations n t.hFrontPorch t.hSyncWidth t.hBackPorch

/-- The three parts of valid inputs make up the blanking. -/
theorem TimingInputs.hBlank_eq {t : TimingInputs} (hv : ValidTiming t) :
    t.hFrontPorch + t.hSyncWidth + t.hBackPorch = t.hTotal.toNat - t.hActive.toNat := by
  obtain ⟨-, -, ⟨h1, h2, h3⟩, -⟩ := hv
  unfold hFrontPorch hSyncWidth hBackPorch
  omega

theorem TimingInputs.hBlank_lt {t : TimingInputs} (hv : ValidTiming t) :
    t.hFrontPorch + t.hSyncWidth + t.hBackPorch < 2 ^ 16 := by
  rw [hBlank_eq hv]
  exact (Nat.sub_le _ _).trans_lt t.hTotal.isLt

/-- A number at most the value of a 16-bit input fits a 16-bit field. -/
theorem toNat_ofNat_of_le {x : BitVec 16} {m : Nat} (h : m ≤ x.toNat) : (BitVec.ofNat 16 m).toNat = m :=
  (BitVec.toNat_ofNat _ _).trans (Nat.mod_eq_of_lt (h.trans_lt x.isLt))

/-- The registers that DERIVE_PACKED fills from its loop. -/
theorem packTiming_loop {n : Nat} (hn : 1 ≤ n) (t : TimingInputs) (fl : BitVec 3) :
    (packTiming n t fl).hFp = BitVec.ofNat 16 (t.hFrontPorch / n + t.iterations n) ∧
    (packTiming n t fl).iter = BitVec.ofNat 32 (t.iterations n) ∧
    (packTiming n t fl).packedBlank = BitVec.ofNat 32
      (packedBlank n (t.hFrontPorch / n + t.iterations n) (t.hSyncWidth / n) (t.hBackPorch / n)) := by
  have hloop := reconcile_eq hn t.hFrontPorch t.hSyncWidth t.hBackPorch
  exact ⟨congrArg (fun r : Nat × Nat => BitVec.ofNat 16 r.1) hloop,
    congrArg (fun r : Nat × Nat => BitVec.ofNat 32 r.2) hloop,
    congrArg (fun r : Nat × Nat => BitVec.ofNat 32 (packedBlank n r.1 _ _)) hloop⟩

theorem packTiming_iter {n : Nat} (hn : 1 ≤ n) (t : TimingInputs) (fl : BitVec 3) :
    (packTiming n t fl).iter.toNat = t.iterations n := by
  obtain ⟨-, hiter, -⟩ := packTiming_loop hn t fl
  have hle : t.iterations n ≤ 3 := packIterations_le_three hn _ _ _
  rw [hiter, BitVec.toNat_ofNat, Nat.mod_eq_of_lt (by omega)]

/-- PK_H_FP fits its field: the packed front porch is at most the ceiling of the blanking over `n`. -/
theorem packTiming_hFp {n : Nat} (hn : 1 ≤ n) {t : TimingInputs} (hv : ValidTiming t) (fl : BitVec 3) :
    (packTiming n t fl).hFp.toNat = t.hFrontPorch / n + t.iterations n := by
  obtain ⟨hfp, -⟩ := packTiming_loop hn t fl
  rw [hfp, BitVec.toNat_ofNat, Nat.mod_eq_of_lt]
  calc t.hFrontPorch / n + t.iterations n
    _ ≤ t.hFrontPorch / n + t.iterations n + t.hBackPorch / n + t.hSyncWidth / n :=
      (Nat.le_add_right _ _).trans (Nat.le_add_right _ _)
    _ = (t.hFrontPorch + t.hSyncWidth + t.hBackPorch + (n - 1)) / n := packed_parts_eq_ceil hn _ _ _
    _ ≤ t.hFrontPorch + t.hSyncWidth + t.hBackPorch := ceil_le hn _
    _ < 2 ^ 16 := TimingInputs.hBlank_lt hv

theorem packTiming_hSync (n : Nat) (t : TimingInputs) (fl : BitVec 3) :
    (packTiming n t fl).hSync.toNat = t.hSyncWidth / n :=
  toNat_ofNat_of_le (x := t.hSyncEnd) ((Nat.div_le_self _ _).trans (Nat.sub_le _ _))

theorem packTiming_hBp (n : Nat) (t : TimingInputs) (fl : BitVec 3) :
    (packTiming n t fl).hBp.toNat = t.hBackPorch / n :=
  toNat_ofNat_of_le (x := t.hTotal) ((Nat.div_le_self _ _).trans (Nat.sub_le _ _))

theorem packTiming_origBlank (n : Nat) {t : TimingInputs} (hv : ValidTiming t) (fl : BitVec 3) :
    (packTiming n t fl).origBlank.toNat = t.hTotal.toNat - t.hActive.toNat := by
  have hblank := TimingInputs.hBlank_lt hv
  rw [← TimingInputs.hBlank_eq hv]
  exact (BitVec.toNat_ofNat _ _).trans (Nat.mod_eq_of_lt (hblank.trans (by decide)))

/-- `packed_total_blanking` at loop exit, as the sum of R120 and as the multiple of `n` of R123. -/
theorem packTiming_packedBlank {n : Nat} (hn : 1 ≤ n) (hword : n < 2 ^ 32) {t : TimingInputs} (hv : ValidTiming t)
    (fl : BitVec 3) :
    (packTiming n t fl).packedBlank.toNat =
      ((packTiming n t fl).hFp.toNat + (packTiming n t fl).hBp.toNat + (packTiming n t fl).hSync.toNat) * n ∧
    (packTiming n t fl).packedBlank.toNat = (t.hTotal.toNat - t.hActive.toNat + (n - 1)) / n * n := by
  obtain ⟨-, -, hpk⟩ := packTiming_loop hn t fl
  have hparts : t.hFrontPorch / n + t.iterations n + t.hBackPorch / n + t.hSyncWidth / n =
      (t.hFrontPorch + t.hSyncWidth + t.hBackPorch + (n - 1)) / n := packed_parts_eq_ceil hn _ _ _
  have hfits := ceil_mul_lt_word hn hword (TimingInputs.hBlank_lt hv)
  rw [packTiming_hFp hn hv, packTiming_hBp, packTiming_hSync, ← TimingInputs.hBlank_eq hv, hparts, hpk,
    BitVec.toNat_ofNat, packedBlank, hparts]
  exact ⟨Nat.mod_eq_of_lt hfits, Nat.mod_eq_of_lt hfits⟩

/-- R32: PPC is a word, and being nonzero is being at least 1. -/
theorem one_le_ppc {s : State} (hppc : s.params.ppc ≠ 0) : 1 ≤ s.params.ppc.toNat := by
  bv_omega

/-- Settles O9: the loop fills PK_H_FP, PK_ITER and PK_PACKED_BLANK; the other fields hold differences and quotients of
16-bit inputs. -/
theorem derivePackedComputesThePackedTiming : Obligations.DerivePackedComputesThePackedTiming := by
  intro s hppc hv
  have hn := one_le_ppc hppc
  have hiter := packTiming_iter hn s.timing s.timingFlags
  have hfp := packTiming_hFp hn hv s.timingFlags
  obtain ⟨hpk, -⟩ := packTiming_packedBlank hn s.params.ppc.isLt hv s.timingFlags
  obtain ⟨hpol, hpol', hil⟩ := polarityBits_bits s.timingFlags
  have hsub : ∀ x y : BitVec 16, (BitVec.ofNat 16 (x.toNat - y.toNat)).toNat = x.toNat - y.toNat :=
    fun x y => toNat_ofNat_of_le (Nat.sub_le _ _)
  exact ⟨_, execDerivePacked_valid ((timing_valid_iff _).2 hv), rfl, toNat_ofNat_of_le (Nat.div_le_self _ _),
    packTiming_hSync _ _ _, packTiming_hBp _ _ _, hiter, hiter.symm ▸ hfp, packTiming_origBlank _ hv _, hpk, rfl,
    hsub _ _, hsub _ _, hsub _ _, hpol, hpol', hil⟩

/-- Settles O11: PK_PACKED_BLANK is the multiple of N at the ceiling, which `ceil_eq_iff` bounds. -/
theorem packedBlankingIsTheLeastMultiple : Obligations.PackedBlankingIsTheLeastMultiple := by
  intro s hppc hv
  have hn := one_le_ppc hppc
  refine ⟨_, execDerivePacked_valid ((timing_valid_iff _).2 hv), ?_⟩
  obtain ⟨-, hpk⟩ := packTiming_packedBlank hn s.params.ppc.isLt hv s.timingFlags
  dsimp only
  rw [packTiming_origBlank _ hv, hpk]
  obtain ⟨hge, hlt⟩ := (ceil_eq_iff hn (s.timing.hTotal.toNat - s.timing.hActive.toNat) _).1 rfl
  exact ⟨rfl, Nat.mul_comm _ _, hge, hlt, ceil_mul_eq_self_iff hn _⟩

/-- Settles O12: `packIterations`, its bounds, and the values of `N` for which they are smaller. -/
theorem packingLoopIterationBounds : Obligations.PackingLoopIterationBounds := by
  intro s hppc hv
  have hn := one_le_ppc hppc
  refine ⟨_, execDerivePacked_valid ((timing_valid_iff _).2 hv), ?_⟩
  dsimp only
  rw [packTiming_iter hn, packTiming_hFp hn hv]
  unfold TimingInputs.iterations
  refine ⟨rfl, packIterations_le hn _ _ _, packIterations_le_three hn _ _ _, fun h => ?_,
    fun h => packIterations_le_two h _ _ _, fun h => ?_, rfl⟩
  · rw [h]
    exact packIterations_one _ _ _
  · rw [h]
    exact packIterations_two_eq_two_iff _ _ _

/-- Settles O10: the free choice decides whether the command has finished. -/
theorem derivePackedOfInvalidTimingChangesOnlyItsOutputs :
    Obligations.DerivePackedOfInvalidTimingChangesOnlyItsOutputs := by
  intro s hv
  have hinvalid : s.timing.valid = false := by
    rwa [← timing_valid_iff, Bool.not_eq_true] at hv
  refine ⟨_, execDerivePacked_invalid hinvalid, rfl, ?_⟩
  cases hfin : s.packedFinishes
  · exact .inr ⟨rfl, Bool.or_false _⟩
  · exact .inl ⟨rfl, Bool.or_true _⟩

end Sys2Proof.Machine
end

section
/-! DERIVE_VTC and VTC_WRITE (R130, R140). -/

namespace Sys2Proof.Machine

/-- Settles O13: each word of `deriveVtcImage` is a constant or a pair of 16-bit halves, as `halves_eq` writes it. -/
theorem deriveVtcComputesTheRegisterImage : Obligations.DeriveVtcComputesTheRegisterImage := by
  intro s
  have hht : halves 0 s.timing.hTotal = s.timing.hTotal.setWidth 32 := by
    simp [halves_eq]
  refine ⟨_, execDeriveVtc_eq s, rfl, fun hv => if_pos ((timing_valid_iff _).2 hv),
    fun hv => if_neg ((timing_valid_iff _).not.2 hv), rfl, halves_eq _ _, rfl, rfl, hht, halves_eq _ _, fun hmap => ?_⟩
  dsimp only [deriveVtcImage]
  rw [hmap]
  exact ⟨halves_eq _ _, halves_eq _ _, halves_eq _ _, halves_eq _ _, halves_eq _ _, halves_eq _ _, halves_eq _ _⟩

/-- The writes of VTC_WRITE with the control register, which is written last, first. -/
theorem VtcImage.writes_perm (i : VtcImage) : i.writes.Perm ((0x00, i.w00) :: i.writes.dropLast) :=
  List.perm_append_singleton (0x00, i.w00) i.writes.dropLast

/-- VTC_WRITE writes only the words of `vtcOffsets`. -/
theorem VtcImage.offset_mem_of_mem_writes {i : VtcImage} {w : Word × Word} (h : w ∈ i.writes) : w.1 ∈ vtcOffsets :=
  i.writes_legal _ (List.mem_map_of_mem h)

/-- Settles O16: the words of the writes do not meet, so each reads back whatever their order. -/
theorem vtcWriteProgramsTheVtcControlLast : Obligations.VtcWriteProgramsTheVtcControlLast := by
  intro s
  refine ⟨fun h => ⟨_, execVtcWrite_eq h, ?_⟩, fun h => ?_⟩
  · dsimp only
    refine ⟨rfl, rfl, fun x hx => ?_, fun a ha => ?_⟩
    · exact Memory.readWord_writeWords s.mem _ _ s.vtcImage.writes_apart x (s.vtcImage.writes_perm.mem_iff.2 hx)
    · exact Memory.readByte_writeWords_of_ne s.mem _ _ a fun w hw => ha w.1 (VtcImage.offset_mem_of_mem_writes hw)
  · exact (execVtcWrite_notReady h).trans (congrArg _ (State.raise_eq _ _ s))

end Sys2Proof.Machine
end

section
/-! CLK_PRESCALE (R160). -/

namespace Sys2Proof.Machine

theorem toNat_ofNat_of_lt {w n : Nat} (h : n < 2 ^ w) : (BitVec.ofNat w n).toNat = n :=
  (BitVec.toNat_ofNat n w).trans (Nat.mod_eq_of_lt h)

/-- Settles O17: the two cases of the command, and where the boundary lies. -/
theorem clkPrescaleMultipliesByFive : Obligations.ClkPrescaleMultipliesByFive := by
  intro s
  refine ⟨fun h => ⟨_, execClkPrescale_fits h, ?_, rfl⟩, fun h => ?_, by omega⟩
  · exact toNat_ofNat_of_lt (by omega)
  · exact (execClkPrescale_overflows h).trans (congrArg _ (State.raise_eq _ _ s))

end Sys2Proof.Machine
end

section
/-! The search (R163 to R173): what it enumerates, which candidate it answers, and what a result fits. -/

namespace Sys2Proof.Machine

/-- The feasible pairs as R168 writes their ranges. -/
theorem mem_enumPairs_iff {d m : Nat} :
    (d, m) ∈ enumPairs ↔ 1 ≤ d ∧ d ≤ 106 ∧ max 2 (6 * d) ≤ m ∧ m ≤ min 64 (12 * d) := by
  rw [mem_enumPairs, and_assoc]
  rfl

/-- The feasible pairs without the bounds that never bind: no D above 10 has an M, and 2 is below every `6 D` (R168). -/
theorem mem_enumPairs_iff_linear {d m : Nat} : (d, m) ∈ enumPairs ↔ 1 ≤ d ∧ 6 * d ≤ m ∧ m ≤ 64 ∧ m ≤ 12 * d := by
  rw [mem_enumPairs_iff]
  omega

/-- The ranges of M, of which only those of D in 1 to 10 are not empty, hold 180 values together (R168). -/
theorem length_enumPairs : enumPairs.length = 180 := by
  simp only [enumPairs, List.length_flatMap, List.length_map, rangeIncl, List.length_range]
  decide

/-- Settles O19: `length_enumPairs` counts the pairs, and the rest is arithmetic on `mem_enumPairs_iff_linear`. -/
theorem searchEnumeratesTheFeasiblePairs : Obligations.SearchEnumeratesTheFeasiblePairs := by
  refine ⟨length_enumPairs, fun d m => mem_enumPairs_iff, fun d m h => ?_, fun x hx m => ?_⟩
  · obtain ⟨hd, hlo, h64, hhi⟩ := mem_enumPairs_iff_linear.1 h
    omega
  · have hrow : 1 ≤ x.1 ∧ x.2.1 = 6 * x.1 ∧ x.2.2 = min 64 (12 * x.1) := by
      revert x
      decide
    rw [mem_enumPairs_iff_linear]
    omega

/-- The first least error of the images of a list in ascending order is the image of an element whose error no other
undercuts and no earlier one reaches. -/
theorem FirstLeast.exists_of_map {α : Type} {R : α → α → Prop} (hR : ∀ p q, R p q → ¬ R q p) {f : α → Candidate}
    {l : List α} (hl : l.Pairwise R) {c : Candidate} (h : FirstLeast (l.map f) c) :
    ∃ p ∈ l, c = f p ∧ (∀ q ∈ l, (f p).e ≤ (f q).e) ∧ ∀ q ∈ l, R q p → (f p).e < (f q).e := by
  obtain ⟨pre, post, heq, hpre, hpost⟩ := h
  obtain ⟨l₁, l₂', rfl, rfl, htail⟩ := List.map_eq_append_iff.1 heq
  obtain ⟨p, l₂, rfl, rfl, rfl⟩ := List.map_eq_cons_iff.1 htail
  rw [List.forall_mem_map] at hpre hpost
  obtain ⟨-, hp, -⟩ := List.pairwise_append.1 hl
  obtain ⟨hafter, -⟩ := List.pairwise_cons.1 hp
  refine ⟨p, by simp, rfl, ?_, ?_⟩ <;> simp only [List.forall_mem_append, List.forall_mem_cons]
  · exact ⟨fun q hq => Nat.le_of_lt (hpre q hq), Nat.le_refl _, hpost⟩
  · exact ⟨fun q hq _ => hpre q hq, fun hself => absurd hself (hR p p hself),
      fun q hq hback => absurd hback (hR p q (hafter q hq))⟩

/-- The search answers the candidate of a feasible pair, whose error no other pair undercuts and no earlier one reaches
(R165). -/
theorem pllSearch_result (t : Nat) : ∃ d m, (d, m) ∈ enumPairs ∧ pllSearch t = some (candidate t d m) ∧
    (∀ d' m', (d', m') ∈ enumPairs → (candidate t d m).e ≤ (candidate t d' m').e) ∧
    ∀ d' m', (d', m') ∈ enumPairs → d' < d ∨ d' = d ∧ m' < m → (candidate t d m).e < (candidate t d' m').e := by
  obtain ⟨c, hc, hleast⟩ := pllSearch_spec t
  obtain ⟨⟨d, m⟩, hmem, rfl, hle, hlt⟩ := hleast.exists_of_map (fun p q hpq => by omega) enumPairs_sorted
  exact ⟨d, m, hmem, hc, fun d' m' => hle (d', m'), fun d' m' => hlt (d', m')⟩

/-- The pair that no feasible one undercuts and no earlier one reaches is the search's answer. -/
theorem pllSearch_eq {t d m : Nat} (hmem : (d, m) ∈ enumPairs)
    (hle : ∀ d' m', (d', m') ∈ enumPairs → (candidate t d m).e ≤ (candidate t d' m').e)
    (hlt : ∀ d' m', (d', m') ∈ enumPairs → d' < d ∨ d' = d ∧ m' < m → (candidate t d m).e < (candidate t d' m').e) :
    pllSearch t = some (candidate t d m) := by
  obtain ⟨D, M, hMem, hres, hLe, hLt⟩ := pllSearch_result t
  have heq : (candidate t D M).e = (candidate t d m).e := Nat.le_antisymm (hLe d m hmem) (hle D M hMem)
  have hD : ¬ (D < d ∨ D = d ∧ M < m) := fun h => absurd heq (Nat.ne_of_gt (hlt D M hMem h))
  have hd : ¬ (d < D ∨ d = D ∧ m < M) := fun h => absurd heq (Nat.ne_of_lt (hLt d m hmem h))
  obtain ⟨rfl, rfl⟩ : D = d ∧ M = m := by omega
  exact hres

theorem outDiv_bounds (d m t : Nat) : 1 ≤ outDiv d m t ∧ outDiv d m t ≤ 128 := by
  simp only [outDiv, Config.oMin, Config.oMax]
  omega

/-- The VCO frequency of a feasible pair, 600 MHz to 1.2 GHz, bounds what any output divider achieves (R168). -/
theorem achieved_le {d m o : Nat} (h : (d, m) ∈ enumPairs) (ho : 1 ≤ o) : achieved d m o ≤ 1200000000 := by
  obtain ⟨hd, -, -, hhi⟩ := mem_enumPairs_iff_linear.1 h
  have hdo : d ≤ d * o := Nat.le_mul_of_pos_right d ho
  apply Nat.div_le_of_le_mul
  rw [Nat.mul_comm]
  simp only [Config.refHz]
  omega

/-- What PLL_SEARCH stores fits its registers (R50, R167). -/
theorem candidate_fits {t d m : Nat} (h : (d, m) ∈ enumPairs) (ht : t < 2 ^ 32) :
    d < 2 ^ 8 ∧ m < 2 ^ 8 ∧ (candidate t d m).o < 2 ^ 8 ∧ (candidate t d m).f < 2 ^ 32 ∧
      (candidate t d m).e < 2 ^ 32 := by
  obtain ⟨hlo, hhi⟩ := outDiv_bounds d m t
  have hf := achieved_le h hlo
  obtain ⟨hd, hmlo, hm, -⟩ := mem_enumPairs_iff_linear.1 h
  simp only [candidate, absDiff]
  omega

/-- Settles O18: the result is `pllSearch_result`'s, and each of its parts fits its register. -/
theorem pllSearchStoresTheFirstLeastError : Obligations.PllSearchStoresTheFirstLeastError := by
  intro s
  refine ⟨fun h => ?_, fun h hz => ?_, fun h hpos => ?_⟩
  · exact (execPllSearch_notReady h).trans (congrArg _ (State.raise_eq _ _ s))
  · have hzero : s.searchTargetHz = 0 := BitVec.eq_of_toNat_eq hz
    exact (execPllSearch_zero h hzero).trans (congrArg _ (State.raise_eq _ _ s))
  · have hne : s.searchTargetHz ≠ 0 := fun h0 => by simp [h0] at hpos
    obtain ⟨d, m, hmem, hres, hle, hlt⟩ := pllSearch_result s.searchTargetHz.toNat
    obtain ⟨hd, hm, ho, hf, he⟩ := candidate_fits hmem s.searchTargetHz.isLt
    refine ⟨d, m, _, mem_enumPairs_iff.1 hmem, fun d' m' h' => hle d' m' (mem_enumPairs_iff.2 h'),
      fun d' m' h' => hlt d' m' (mem_enumPairs_iff.2 h'), execPllSearch_of_result h hne hres,
      toNat_ofNat_of_lt hd, toNat_ofNat_of_lt hm, toNat_ofNat_of_lt ho,
      toNat_ofNat_of_lt hf, toNat_ofNat_of_lt he, ?_⟩
    rw [ite_and]
    rfl

end Sys2Proof.Machine
end

section
/-! Searches whose result is known: round trips (R170) and the extreme targets (R172). -/

namespace Sys2Proof.Machine

/-- Rounding the ratio of `v` to `d T` gives the divider `o` back from the truncated `T = v / (d o)`, when `T` is large
against `o` (R166, R170). -/
theorem round_div_of_truncated {v d o T : Nat} (hd : 1 ≤ d) (ho : 1 ≤ o) (hT : T = v / (d * o)) (hlarge : 2 * o ≤ T) :
    (2 * v + d * T) / (2 * d * T) = o := by
  have hlo : T * (d * o) ≤ v := hT ▸ Nat.div_mul_le_self v (d * o)
  have hhi : v < d * o * (T + 1) := hT ▸ Nat.lt_mul_div_succ v (Nat.mul_pos hd ho)
  have hslack : d * (2 * o) ≤ d * T := Nat.mul_le_mul_left d hlarge
  apply Nat.div_eq_of_lt_le
  · linarith
  · linarith

/-- A target truncated from a feasible triple is at least 600 MHz over 128. -/
theorem le_achieved {d m o : Nat} (h : (d, m) ∈ enumPairs) (ho : 1 ≤ o) (ho' : o ≤ 128) : 4687500 ≤ achieved d m o := by
  obtain ⟨hd, hlo, -, -⟩ := mem_enumPairs_iff_linear.1 h
  have hdo : d * o ≤ d * 128 := Nat.mul_le_mul_left d ho'
  apply (Nat.le_div_iff_mul_le (Nat.mul_pos hd ho)).2
  simp only [Config.refHz]
  omega

theorem outDiv_achieved {d m o : Nat} (h : (d, m) ∈ enumPairs) (ho : 1 ≤ o) (ho' : o ≤ 128) :
    outDiv d m (achieved d m o) = o := by
  have hlarge := le_achieved h ho ho'
  have hround := round_div_of_truncated (mem_enumPairs_iff_linear.1 h).1 ho (T := achieved d m o) rfl (by omega)
  rw [outDiv, Nat.mul_assoc 2 Config.refHz, hround]
  simp only [Config.oMin, Config.oMax]
  omega

/-- Settles O20: the triple's own candidate has error 0, and so has the least. -/
theorem searchRoundTripsToErrorZero : Obligations.SearchRoundTripsToErrorZero := by
  intro s d m o hd hd' hm hm' ho ho' hv hT
  have hmem : (d, m) ∈ enumPairs := mem_enumPairs_iff.2 ⟨hd, by omega, hm, hm'⟩
  have htarget : s.searchTargetHz.toNat = achieved d m o := hT
  have hne : s.searchTargetHz ≠ 0 := fun h0 => by
    have hlarge := le_achieved hmem ho ho'
    simp [h0] at htarget
    omega
  obtain ⟨D, M, -, hres, hle, -⟩ := pllSearch_result s.searchTargetHz.toNat
  have hown : (candidate s.searchTargetHz.toNat d m).e = 0 := by
    simp [candidate, absDiff, htarget, outDiv_achieved hmem ho ho']
  have hzero : (candidate s.searchTargetHz.toNat D M).e = 0 := Nat.le_zero.1 (hown ▸ hle d m hmem)
  refine ⟨_, execPllSearch_of_result hv hne hres, ?_, if_neg fun h => ?_⟩
  · exact congrArg (BitVec.ofNat 32) hzero
  · omega

/-- With the reset tolerance no result raises: an error fits 32 bits (R172 (f)). -/
theorem execPllSearch_resetTolerance {s : State} {d m : Nat} (hv : s.targetValid = true)
    (htol : s.toleranceHz = 0xFFFFFFFF) (hpos : 1 ≤ s.searchTargetHz.toNat) (hmem : (d, m) ∈ enumPairs)
    (hres : pllSearch s.searchTargetHz.toNat = some (candidate s.searchTargetHz.toNat d m)) :
    execPllSearch s = .next { s.storeResult (candidate s.searchTargetHz.toNat d m) with seq := .ready } := by
  have hne : s.searchTargetHz ≠ 0 := fun h0 => by simp [h0] at hpos
  obtain ⟨-, -, -, -, he⟩ := candidate_fits hmem s.searchTargetHz.isLt
  have hwithin : ¬ (s.toleranceHz.toNat < (candidate s.searchTargetHz.toNat d m).e ∧ s.error.code = .noError) := by
    rw [htol]
    exact fun ⟨h, _⟩ => absurd he (Nat.not_lt_of_le h)
  rw [execPllSearch_of_result hv hne hres, if_neg hwithin]
  rfl

/-- A target above 2.4 GHz is more than twice any VCO frequency, so it is not divided. -/
theorem outDiv_of_large {t d m : Nat} (h : (d, m) ∈ enumPairs) (ht : 2400000000 < t) : outDiv d m t = 1 := by
  obtain ⟨hd, -, -, hhi⟩ := mem_enumPairs_iff_linear.1 h
  have hdt : d * 2400000000 < d * t := Nat.mul_lt_mul_of_pos_left ht hd
  have hround : (2 * Config.refHz * m + d * t) / (2 * d * t) < 2 := by
    apply Nat.div_lt_of_lt_mul
    rw [Nat.mul_assoc 2 d]
    simp only [Config.refHz]
    omega
  simp only [outDiv, Config.oMin, Config.oMax]
  omega

theorem candidate_of_large {t d m : Nat} (h : (d, m) ∈ enumPairs) (ht : 2400000000 < t) :
    candidate t d m = ⟨d, m, 1, achieved d m 1, t - achieved d m 1⟩ := by
  have hf := achieved_le h (le_refl 1)
  simp only [candidate, outDiv_of_large h ht, absDiff]
  congr 1
  omega

/-- Above 2.4 GHz the first pair of the highest VCO frequency wins (R172 (b)). -/
theorem pllSearch_of_large {t : Nat} (ht : 2400000000 < t) : pllSearch t = some (candidate t 1 12) := by
  have hmem : (1, 12) ∈ enumPairs := mem_enumPairs_iff_linear.2 (by decide)
  refine pllSearch_eq hmem (fun d m h => ?_) fun d m h hlt => ?_
  · rw [candidate_of_large hmem ht, candidate_of_large h ht]
    exact Nat.sub_le_sub_left (achieved_le h (le_refl 1)) t
  · obtain ⟨hd, -, -, -⟩ := mem_enumPairs_iff_linear.1 h
    obtain ⟨rfl, hm⟩ : d = 1 ∧ m < 12 := by omega
    rw [candidate_of_large hmem ht, candidate_of_large h ht]
    simp only [achieved, Config.refHz]
    omega

/-- A target up to 4 669 260 Hz is below every VCO frequency over 127.5, so the clamp decides. -/
theorem outDiv_of_small {t d m : Nat} (h : (d, m) ∈ enumPairs) (hpos : 1 ≤ t) (ht : t ≤ 4669260) :
    outDiv d m t = 128 := by
  obtain ⟨hd, hlo, -, -⟩ := mem_enumPairs_iff_linear.1 h
  have hdt : d * t ≤ d * 4669260 := Nat.mul_le_mul_left d ht
  have hround : 128 ≤ (2 * Config.refHz * m + d * t) / (2 * d * t) := by
    apply (Nat.le_div_iff_mul_le (by positivity)).2
    rw [Nat.mul_assoc 2 d]
    simp only [Config.refHz]
    omega
  simp only [outDiv, Config.oMin, Config.oMax]
  omega

theorem candidate_of_small {t d m : Nat} (h : (d, m) ∈ enumPairs) (hpos : 1 ≤ t) (ht : t ≤ 4669260) :
    candidate t d m = ⟨d, m, 128, achieved d m 128, achieved d m 128 - t⟩ := by
  have hf := le_achieved h (by decide : 1 ≤ 128) (le_refl 128)
  simp only [candidate, outDiv_of_small h hpos ht, absDiff]
  congr 1
  omega

/-- Up to 4 669 260 Hz the first pair of the lowest VCO frequency wins (R172 (c)). -/
theorem pllSearch_of_small {t : Nat} (hpos : 1 ≤ t) (ht : t ≤ 4669260) : pllSearch t = some (candidate t 1 6) := by
  have hmem : (1, 6) ∈ enumPairs := mem_enumPairs_iff_linear.2 (by decide)
  refine pllSearch_eq hmem (fun d m h => ?_) fun d m h hlt => ?_
  · rw [candidate_of_small hmem hpos ht, candidate_of_small h hpos ht]
    exact Nat.sub_le_sub_right (le_achieved h (by decide : 1 ≤ 128) (le_refl 128)) t
  · obtain ⟨hd, hm, -, -⟩ := mem_enumPairs_iff_linear.1 h
    omega

/-- Settles O21: the three results, stored under the reset tolerance. -/
theorem searchOfExtremeTargets : Obligations.SearchOfExtremeTargets := by
  intro s hv htol
  refine ⟨fun hpos => ?_, fun ht => ?_, fun hpos ht => ⟨fun p hp => outDiv_of_small hp hpos ht, ?_⟩⟩
  · obtain ⟨d, m, hmem, hres, -⟩ := pllSearch_result s.searchTargetHz.toNat
    exact ⟨_, execPllSearch_resetTolerance hv htol hpos hmem hres, rfl, rfl⟩
  · have hmem : (1, 12) ∈ enumPairs := mem_enumPairs_iff_linear.2 (by decide)
    have hexec := execPllSearch_resetTolerance hv htol (by omega) hmem (pllSearch_of_large ht)
    rw [candidate_of_large hmem ht] at hexec
    exact ⟨_, hexec, rfl, rfl, rfl, rfl, rfl⟩
  · have hmem : (1, 6) ∈ enumPairs := mem_enumPairs_iff_linear.2 (by decide)
    have hexec := execPllSearch_resetTolerance hv htol hpos hmem (pllSearch_of_small hpos ht)
    rw [candidate_of_small hmem hpos ht] at hexec
    exact ⟨_, hexec, rfl, rfl, rfl, rfl, rfl⟩

end Sys2Proof.Machine
end

section
/-! The divider and count words (R180, R181), and PLL_PACK (R175 to R185). -/

namespace Sys2Proof.Machine

/-- The count fields of a divider word as a number: the low time in bits [5:0], the high time in bits [11:6]. -/
theorem toNat_countFields {lo hi : Nat} (hlo : lo < 64) (hhi : hi < 64) :
    (BitVec.ofNat 32 lo ||| (BitVec.ofNat 32 hi <<< 6)).toNat = lo + 64 * hi := by
  have hshift : (hi <<< 6) % 2 ^ 32 = 2 ^ 6 * hi := by
    rw [Nat.shiftLeft_eq]
    omega
  rw [BitVec.toNat_or, BitVec.toNat_shiftLeft, BitVec.toNat_ofNat, BitVec.toNat_ofNat,
    Nat.mod_eq_of_lt (show lo < 2 ^ 32 by omega), Nat.mod_eq_of_lt (show hi < 2 ^ 32 by omega), hshift, Nat.or_comm,
    ← Nat.two_pow_add_eq_or_of_lt hlo]
  omega

/-- Setting the wedge bit of the default layout, above the count fields. -/
theorem toNat_or_wedge {w : Word} (hw : w.toNat < 2 ^ 13) : (w ||| (1 : Word) <<< 13).toNat = w.toNat + 8192 := by
  rw [BitVec.toNat_or, Nat.or_comm]
  exact (Nat.two_pow_add_eq_or_of_lt hw 1).symm.trans (Nat.add_comm _ _)

/-- Settles O23: the count fields and the wedge bit do not meet, so their disjunction is a sum. -/
theorem dividerWordEncodesTheDutyCycle : Obligations.DividerWordEncodesTheDutyCycle := by
  refine ⟨rfl, fun d hd _ => ?_⟩
  have hlo : lowTime d % 64 < 64 := Nat.mod_lt _ (by decide)
  have hhi : highTime d % 64 < 64 := Nat.mod_lt _ (by decide)
  have hcounts := toNat_countFields hlo hhi
  have hfits : (BitVec.ofNat 32 (lowTime d % 64) ||| (BitVec.ofNat 32 (highTime d % 64) <<< 6)).toNat < 2 ^ 13 := by
    omega
  simp only [divWord, if_neg (show d ≠ 1 by omega)]
  split
  · exact (toNat_or_wedge hfits).trans (congrArg (· + 8192) hcounts)
  · exact hcounts

/-- A moved bit, as a shift and a mask. -/
theorem moveBit_eq (w : Word) {src dst : Nat} (h : src ≤ dst) (hdst : dst < 32) :
    moveBit w src dst = (w <<< (dst - src)) &&& BitVec.twoPow 32 dst := by
  rw [BitVec.and_twoPow, BitVec.getLsbD_shiftLeft]
  simp [moveBit, BitVec.twoPow, hdst, Nat.sub_sub_self h]

/-- Settles O24: both flag bits move up by 10. -/
theorem countWordRelocatesTheFlagBits : Obligations.CountWordRelocatesTheFlagBits := by
  intro d
  have hflags (w : Word) : moveBit w 12 22 ||| moveBit w 13 23 = (w <<< 10) &&& 0x00C00000 := by
    rw [moveBit_eq w (by decide) (by decide), moveBit_eq w (by decide) (by decide), ← BitVec.and_or_distrib_left]
    rfl
  rw [← hflags, ← BitVec.or_assoc]
  rfl

/-- The lock word of the image holds the low 32 bits of the lock entry. -/
theorem packImage_lockL (p : Params) (d m o : Nat) {i : Nat} (hi : i < 32) :
    (packImage p d m o).lockL.getLsbD i = (lockEntry p m).getLsbD i := by
  simp [packImage, hi]

/-- The filter word of the image holds the high 8 bits of the lock entry and, from bit 16 on, the filter entry. -/
theorem packImage_fltrLockH (p : Params) (d m o : Nat) {i : Nat} (hi : i < 32) :
    (packImage p d m o).fltrLockH.getLsbD i =
      if i < 8 then (lockEntry p m).getLsbD (32 + i)
      else if 16 ≤ i ∧ i < 26 then (filterEntry p m).getLsbD (i - 16) else false := by
  have hbits : (packImage p d m o).fltrLockH.getLsbD i =
      ((!decide (i < 16) && (filterEntry p m).getLsbD (i - 16)) ||
        (decide (i < 8) && (lockEntry p m).getLsbD (32 + i))) := by
    simp [packImage, hi]
  rw [hbits]
  by_cases hlow : i < 8
  · simp [hlow, show i < 16 by omega]
  · by_cases hgap : i < 16
    · simp [hlow, hgap, Nat.not_le_of_lt hgap]
    · by_cases hfilter : i < 26
      · simp [hlow, hgap, hfilter, Nat.le_of_not_lt hgap]
      · simp [hlow, hfilter, BitVec.getLsbD_of_ge (filterEntry p m) (i - 16) (by omega)]

/-- Settles O22: the three cases of PLL_PACK, with the bits of the packed image. -/
theorem pllPackBuildsTheRegisterImage : Obligations.PllPackBuildsTheRegisterImage := by
  intro s
  refine ⟨fun h => ?_, fun h hr => ?_, fun h ⟨hM, hM'⟩ ⟨hD, hD'⟩ ⟨hO, hO'⟩ => ?_⟩
  · exact (execPllPack_notReady h).trans (congrArg _ (State.raise_eq _ _ s))
  · have hrange : ¬ s.tripleInRange := fun ⟨h1, h2, h3, h4, h5, h6⟩ => hr ⟨⟨h1, h2⟩, ⟨h3, h4⟩, h5, h6⟩
    exact (execPllPack_outOfRange h hrange).trans (congrArg _ (State.raise_eq _ _ { s with pllImgValid := false }))
  · refine ⟨_, execPllPack_inRange h ⟨hM, hM', hD, hD', hO, hO'⟩, rfl, rfl, rfl, rfl, fun hsrc => ?_,
      fun hsrc => ?_, fun hlt => ?_⟩
    · simp only [packImage, hsrc]
    · simp only [packImage, hsrc]
    · have hlock : lockEntry s.params s.resM.toNat = s.params.lockLookup[s.resM.toNat - 1] := dif_pos hlt
      have hfilter : filterEntry s.params s.resM.toNat = s.params.filterLookupLow[s.resM.toNat - 1] := dif_pos hlt
      rw [← hlock, ← hfilter]
      exact ⟨fun i => packImage_lockL _ _ _ _, fun i => packImage_fltrLockH _ _ _ _⟩

/-- Of the parameters the image depends on the two tables, the divider layout and DIV_WORD_SOURCE alone. -/
theorem packImage_congr {p p' : Params} (d m o : Nat) (hlock : p.lockLookup = p'.lockLookup)
    (hfilter : p.filterLookupLow = p'.filterLookupLow) (hdivider : p.divider = p'.divider)
    (hsource : p.divWordSource = p'.divWordSource) : packImage p d m o = packImage p' d m o := by
  simp only [packImage, lockEntry, filterEntry, hlock, hfilter, hdivider, hsource]

/-- Settles O25: in both states the triple is in range, with one image, or in neither. -/
theorem packReadsOnlyTheTripleAndTheTables : Obligations.PackReadsOnlyTheTripleAndTheTables := by
  intro s s' hlock hfilter hdivider hsource hD hM hO h h'
  have hiff : s.tripleInRange ↔ s'.tripleInRange := by rw [State.tripleInRange, State.tripleInRange, hD, hM, hO]
  by_cases hr : s.tripleInRange
  · refine ⟨_, _, execPllPack_inRange h hr, execPllPack_inRange h' (hiff.1 hr), rfl, fun _ => ?_⟩
    dsimp only
    rw [hD, hM, hO]
    exact packImage_congr _ _ _ hlock hfilter hdivider hsource
  · refine ⟨_, _, execPllPack_outOfRange h hr, execPllPack_outOfRange h' (hiff.not.1 hr), ?_⟩
    simp [State.packDomainError]

end Sys2Proof.Machine
end

section
/-! PLL_WRITE, and the issuing steps of PLL_START and PLL_STOP (R190, R195, R200). -/

namespace Sys2Proof.Machine

/-- PLL_WRITE moves Idle to Configured and keeps the other states (R190). -/
theorem PllState.afterWrite_eq (p : PllState) : p.afterWrite = if p = .idle then .configured else p := by
  cases p <;> rfl

/-- Settles O26: the words of the six writes do not meet, so each reads back. -/
theorem pllWriteProgramsThePll : Obligations.PllWriteProgramsThePll := by
  intro s
  refine ⟨fun h => ⟨_, execPllWrite_eq h, ?_⟩, fun h => ?_⟩
  · dsimp only
    refine ⟨?_, rfl, fun x hx => ?_, fun a ha => ?_⟩
    · rw [PllState.afterWrite_eq]
      rfl
    · exact Memory.readWord_writeWords s.mem _ _ s.pllImage.writes_apart x hx
    · exact Memory.readByte_writeWords_of_ne s.mem _ _ a fun w hw => ha w.1 (List.mem_map_of_mem (f := Prod.fst) hw)
  · exact (execPllWrite_notReady h).trans (congrArg _ (State.raise_eq _ _ s))

/-- A write of CTRL, the word at offset 0: it reads back, and no other byte changes. -/
theorem Memory.writeWord_ctrl (m : Memory) (base v : Word) :
    (m.writeWord (base + 0x00) v).readWord base = some v ∧
      ∀ a, outsideWords base [0x00] a → (m.writeWord (base + 0x00) v).readByte a = m.readByte a := by
  refine ⟨?_, fun a ha => Memory.readByte_writeWord_of_ne m _ v a (ha 0x00 List.mem_cons_self)⟩
  rw [add_zero]
  exact Memory.readWord_writeWord m base v

/-- Settles O27: `execPllStart_eq`, with CTRL's word in the memory. -/
theorem pllStartWritesCtrlAndBeginsPolling : Obligations.PllStartWritesCtrlAndBeginsPolling :=
  fun s => ⟨_, execPllStart_eq s, rfl, Memory.writeWord_ctrl s.mem s.params.pllBase _⟩

/-- Settles O28: `execPllStop_eq`, with CTRL's word in the memory. -/
theorem pllStopClearsCtrlAndBeginsPolling : Obligations.PllStopClearsCtrlAndBeginsPolling :=
  fun s => ⟨_, execPllStop_eq s, rfl, Memory.writeWord_ctrl s.mem s.params.pllBase _⟩

end Sys2Proof.Machine
end

section
/-! The poll steps (R196, R201), and the whole poll of PLL_START (R196, R205). -/

namespace Sys2Proof.Machine

/-- A STATUS read, as one update: the answer is used up, or counted as a draw (R68). -/
theorem State.pllRead_eq (off : Word) (s : State) :
    s.pllRead off = { s with
      history := s.history ++ [.pllRead off s.pllAnswer]
      pllAnswers := s.pllAnswers.tail
      freeCount := if s.pllAnswers = [] then s.freeCount + 1 else s.freeCount } := by
  unfold State.pllRead
  split <;> simp_all

/-- Bit 0 set: the PLL runs. -/
theorem pollStartStep_running {s : State} (k : Nat) (h : s.pllAnswer.getLsbD 0 = true) :
    pollStartStep k s = { s.pllRead 0x04 with pllState := .running, seq := .ready } :=
  (pollStartStep_eq k s).trans (if_pos h)

/-- Bit 0 clear and reads left: the poll goes on. -/
theorem pollStartStep_again {s : State} {k : Nat} (h : s.pllAnswer.getLsbD 0 = false)
    (hk : k + 1 < s.params.pollLimit) : pollStartStep k s = { s.pllRead 0x04 with seq := .pollStart (k + 1) } := by
  rw [pollStartStep_eq, if_neg (ne_true_of_eq_false h), if_neg (Nat.not_le_of_lt hk)]

/-- Bit 0 clear at the last read: the PLL is stopped, and the error recorded. -/
theorem pollStartStep_timeout {s : State} {k : Nat} (h : s.pllAnswer.getLsbD 0 = false)
    (hk : s.params.pollLimit ≤ k + 1) :
    pollStartStep k s = { (s.pllRead 0x04).pllWrite 0x00 0x00000000 with
      pllState := .idle
      seq := .ready
      error := if s.error.code = .noError then ⟨.hardwareTimeout, 0x08⟩ else s.error } := by
  rw [pollStartStep_eq, if_neg (ne_true_of_eq_false h), if_pos hk, State.raise_eq]
  simp

/-- Bit 0 clear: the PLL has stopped. -/
theorem pollStopStep_stopped {s : State} (k : Nat) (h : s.pllAnswer.getLsbD 0 = false) :
    pollStopStep k s = { s.pllRead 0x04 with pllState := .idle, seq := .ready } := by
  rw [pollStopStep_eq, h]
  rfl

/-- Bit 0 set and reads left: the poll goes on. -/
theorem pollStopStep_again {s : State} {k : Nat} (h : s.pllAnswer.getLsbD 0 = true)
    (hk : k + 1 < s.params.pollLimit) : pollStopStep k s = { s.pllRead 0x04 with seq := .pollStop (k + 1) } := by
  rw [pollStopStep_eq, h, if_neg (Nat.not_le_of_lt hk)]
  rfl

/-- Bit 0 set at the last read: the error is recorded. -/
theorem pollStopStep_timeout {s : State} {k : Nat} (h : s.pllAnswer.getLsbD 0 = true)
    (hk : s.params.pollLimit ≤ k + 1) :
    pollStopStep k s = { s.pllRead 0x04 with
      pllState := .idle
      seq := .ready
      error := if s.error.code = .noError then ⟨.hardwareTimeout, 0x09⟩ else s.error } := by
  rw [pollStopStep_eq, h, if_pos hk, State.raise_eq]
  simp

/-- A turn of the engine while PLL_START polls is its poll step. -/
theorem engineTurn_pollStart {s : State} {k : Nat} (hs : s.seq = .pollStart k) :
    engineTurn s = .next (s.closeReads (pollStartStep k s)) :=
  engineTurn_of_next (by simp only [engineStep, hs])

/-- A turn of the engine while PLL_STOP polls is its poll step. -/
theorem engineTurn_pollStop {s : State} {k : Nat} (hs : s.seq = .pollStop k) :
    engineTurn s = .next (s.closeReads (pollStopStep k s)) :=
  engineTurn_of_next (by simp only [engineStep, hs])

/-- Settles O29: the three cases of the poll step, in a turn of the engine. -/
theorem pollStartStepFollowsTheStatusBit : Obligations.PollStartStepFollowsTheStatusBit := by
  intro s k hv hm hs
  have hstep := (step_engineMoves hv hm).trans (engineTurn_pollStart (s := { s with agenda := s.agenda.tail }) hs)
  refine ⟨fun h => hstep.trans ?_, fun h hk => hstep.trans ?_, fun h hk => ⟨_, hstep, ?_⟩⟩
  · rw [pollStartStep_running (s := { s with agenda := s.agenda.tail }) k h, State.pllRead_eq]
    rfl
  · rw [pollStartStep_again (s := { s with agenda := s.agenda.tail }) h hk, State.pllRead_eq]
    rfl
  · rw [pollStartStep_timeout (s := { s with agenda := s.agenda.tail }) h hk, State.pllRead_eq]
    refine ⟨?_, Memory.writeWord_ctrl s.mem s.params.pllBase _⟩
    simp [State.pllWrite, State.pllAnswer]

/-- Settles O30: the three cases of the poll step, in a turn of the engine. -/
theorem pollStopStepFollowsTheStatusBit : Obligations.PollStopStepFollowsTheStatusBit := by
  intro s k hv hm hs
  have hstep := (step_engineMoves hv hm).trans (engineTurn_pollStop (s := { s with agenda := s.agenda.tail }) hs)
  refine ⟨fun h => hstep.trans ?_, fun h hk => hstep.trans ?_, fun h hk => hstep.trans ?_⟩
  · rw [pollStopStep_stopped (s := { s with agenda := s.agenda.tail }) k h, State.pllRead_eq]
    rfl
  · rw [pollStopStep_again (s := { s with agenda := s.agenda.tail }) h hk, State.pllRead_eq]
    rfl
  · rw [pollStopStep_timeout (s := { s with agenda := s.agenda.tail }) h hk, State.pllRead_eq]
    rfl

/-- The state of an engine polling alone after its STATUS reads were answered `ws`, with `rest` still to be answered: what
the reads did to the host's reads and to the count of draws is `hr` and `n` (log 5, log 9). -/
def State.polled (s : State) (k : Nat) (ws rest : List Word) (hr : List HostRead) (n : Nat) : State :=
  { s with
    seq := .pollStart k
    history := s.history ++ ws.map (DeviceEvent.pllRead 0x04)
    pllAnswers := rest
    hostReads := hr
    freeCount := n }

theorem State.polled_nil {s : State} {k : Nat} (hs : s.seq = .pollStart k) :
    s.polled k [] s.pllAnswers s.hostReads s.freeCount = s := by
  simp [State.polled, ← hs]

theorem State.polled_polled (s : State) (k j : Nat) (ws vs rest rest' : List Word) (hr hr' : List HostRead) (n m : Nat) :
    (s.polled k ws rest hr n).polled j vs rest' hr' m = s.polled j (ws ++ vs) rest' hr' m := by
  simp [State.polled]

/-- One answer with bit 0 clear, with reads left. -/
theorem step_pollStart_clear {s : State} {k : Nat} {w : Word} {rest : List Word} (hv : s.params.valid = true)
    (ha : s.agenda = []) (hs : s.seq = .pollStart k) (hw : w.getLsbD 0 = false) (hk : k + 1 < s.params.pollLimit)
    (hans : s.pllAnswers = w :: rest) : ∃ hr n, step s = .next (s.polled (k + 1) [w] rest hr n) := by
  have hanswer : s.pllAnswer = w := by simp [State.pllAnswer, hans]
  obtain ⟨hr, n, hreads⟩ := State.closeReads_eq s (pollStartStep k s)
  refine ⟨hr, n, ?_⟩
  rw [step_engine hv ha, engineTurn_pollStart hs, hreads, pollStartStep_again (hanswer ▸ hw) hk, State.pllRead_eq]
  simp [State.polled, hanswer, hans]

/-- Answers with bit 0 clear, fewer than the reads left, only move the poll on. -/
theorem run_pollStart_clear {ws rest : List Word} {s : State} {k : Nat} (hv : s.params.valid = true)
    (ha : s.agenda = []) (hs : s.seq = .pollStart k) (hclear : ∀ w ∈ ws, w.getLsbD 0 = false)
    (hk : k + ws.length < s.params.pollLimit) (hans : s.pllAnswers = ws ++ rest) :
    ∃ hr n, ∀ j, Host.Core.run core (ws.length + j) s =
      Host.Core.run core j (s.polled (k + ws.length) ws rest hr n) := by
  induction ws generalizing s k with
  | nil =>
    obtain rfl : s.pllAnswers = rest := hans
    exact ⟨s.hostReads, s.freeCount, fun j => by
      rw [List.length_nil, Nat.add_zero, Nat.zero_add, State.polled_nil hs]⟩
  | cons w ws ih =>
    rw [List.length_cons] at hk
    rw [List.cons_append] at hans
    obtain ⟨hw, hws⟩ := List.forall_mem_cons.1 hclear
    obtain ⟨hr, n, hstep⟩ := step_pollStart_clear hv ha hs hw (by omega) hans
    obtain ⟨hr', n', hrun⟩ := ih (s := s.polled (k + 1) [w] (ws ++ rest) hr n) (k := k + 1) hv ha rfl hws
      (show k + 1 + ws.length < s.params.pollLimit by omega) rfl
    refine ⟨hr', n', fun j => ?_⟩
    rw [List.length_cons, Nat.add_right_comm, core_run_succ _ hstep, hrun, State.polled_polled, Nat.add_right_comm,
      Nat.add_assoc k, List.singleton_append]

/-- Settles O31: the answers with bit 0 clear before the last read move the poll on, and the last read ends it. -/
theorem startPollRunsToRunningOrTimesOut : Obligations.StartPollRunsToRunningOrTimesOut := by
  intro s ws rest hv ha hs hclear
  refine ⟨fun w hw hlen hans => ?_, fun hlen hans => ?_⟩
  · obtain ⟨hr, n, hrun⟩ := run_pollStart_clear hv ha hs hclear (by omega) hans
    have hstep := (step_engine (s := s.polled (0 + ws.length) ws (w :: rest) hr n) hv ha).trans (engineTurn_pollStart rfl)
    have hset : (s.polled (0 + ws.length) ws (w :: rest) hr n).pllAnswer.getLsbD 0 = true := hw
    rw [pollStartStep_running _ hset] at hstep
    exact ⟨_, (hrun 1).trans (core_run_succ 0 hstep), rfl, rfl, rfl, rfl, rfl, rfl, rfl⟩
  · obtain ⟨-, hlimit, -⟩ := (Params.valid_iff _).1 hv
    rcases List.eq_nil_or_concat' ws with rfl | ⟨vs, w, rfl⟩
    · exact absurd hlen (Nat.ne_of_lt hlimit)
    rw [List.length_append, List.length_singleton] at hlen ⊢
    rw [List.append_assoc, List.singleton_append] at hans
    obtain ⟨hvs, hw⟩ := List.forall_mem_append.1 hclear
    obtain ⟨hr, n, hrun⟩ := run_pollStart_clear hv ha hs hvs (by omega) hans
    have hstep := (step_engine (s := s.polled (0 + vs.length) vs (w :: rest) hr n) hv ha).trans (engineTurn_pollStart rfl)
    have hlastClear : (s.polled (0 + vs.length) vs (w :: rest) hr n).pllAnswer.getLsbD 0 = false := hw w List.mem_cons_self
    have hlast : s.params.pollLimit ≤ 0 + vs.length + 1 := by omega
    rw [pollStartStep_timeout hlastClear hlast] at hstep
    obtain ⟨hctrl, -⟩ := Memory.writeWord_ctrl s.mem s.params.pllBase 0
    refine ⟨_, (hrun 1).trans (core_run_succ 0 hstep), rfl, rfl, fun hno => if_pos hno, hctrl, rfl, ?_⟩
    simp [State.polled, State.pllAnswer]

end Sys2Proof.Machine
end

section
/-! Model faults: which command records which, and that nothing clears one (R232 to R234). -/

namespace Sys2Proof.Machine

/-- A command records F_INVALID_TIMING and F_PLL_SEQUENCE where R233 and R234 say, and clears neither. -/
theorem exec_faults {i : Instr} {s t : State} (h : exec i s = .next t) :
    (t.faults.invalidTiming = true ↔ s.faults.invalidTiming = true ∨
      (i = .derivePacked ∨ i = .deriveVtc) ∧ ¬ ValidTiming s.timing) ∧
    (t.faults.pllSequence = true ↔ s.faults.pllSequence = true ∨
      (i = .pllWrite ∧ s.pllImgValid = true ∧ s.pllState ≠ .idle) ∨
      (i = .pllStart ∧ s.pllState ≠ .configured)) := by
  rw [← timing_valid_iff]
  rcases exec_cases h with ⟨rfl, rfl⟩ | ⟨rfl, hv, rfl⟩ | ⟨rfl, hv, rfl⟩ | ⟨rfl, rfl⟩ | ⟨rfl, -, rfl⟩ | ⟨rfl, v, rfl⟩ |
    ⟨rfl, -, c, er, -, rfl⟩ | ⟨rfl, -, rfl⟩ | ⟨rfl, rfl⟩ | ⟨rfl, himg, rfl⟩ | ⟨rfl, rfl⟩ | ⟨rfl, rfl⟩ | ⟨rfl, rfl⟩ |
    ⟨e, op, hi, -, rfl⟩
  · simp
  · simp [hv]
  · simp [hv, FaultSet.add]
  · cases hv : s.timing.valid <;> simp [FaultSet.add]
  iterate 5 simp
  · by_cases hidle : s.pllState = .idle <;> simp [hidle, himg, FaultSet.add]
  · by_cases hconf : s.pllState = .configured <;> simp [hconf, FaultSet.add]
  iterate 2 simp
  · rcases hi with ⟨rfl, -⟩ | rfl | rfl | ⟨rfl, -⟩ | ⟨rfl, himg⟩
    iterate 4 simp
    · simp [himg]

/-- Settles O37: every command answers a next state, with the faults of `exec_faults`. -/
theorem modelFaultsAreSetExactlyWhereStated : Obligations.ModelFaultsAreSetExactlyWhereStated := by
  intro i s
  obtain ⟨t, h⟩ := exec_next i s
  exact ⟨t, h, exec_faults h⟩

/-- A model fault of `s` is one of `t` (R232). -/
def FaultsKept (s t : State) : Prop :=
  (s.faults.invalidTiming = true → t.faults.invalidTiming = true) ∧
  (s.faults.pllSequence = true → t.faults.pllSequence = true)

theorem FaultsKept.of_eq {s t : State} (h : t.faults = s.faults) : FaultsKept s t := by
  rw [FaultsKept, h]
  exact ⟨id, id⟩

theorem FaultsKept.of_engineStep {s t : State} (h : engineStep s = .next t) : FaultsKept s t := by
  rcases engineStep_command_or_frame h with ⟨i, -, hx⟩ | ⟨hi, m, ans, n, ps, q, er, rfl⟩
  · obtain ⟨htiming, hseq⟩ := exec_faults hx
    exact ⟨fun hf => htiming.2 (.inl hf), fun hf => hseq.2 (.inl hf)⟩
  · exact .of_eq rfl

theorem EngineReg.write_faults (r : EngineReg) (v : Word) (s : State) : (r.write v s).faults = s.faults := by
  rcases write_cases r v s with ⟨-, h⟩ | ⟨tm, fl, -, h⟩ | ⟨-, h⟩ | ⟨-, h⟩ | ⟨rf, tol, h⟩ | ⟨d, m, o, -, h⟩ <;> rw [h]

/-- Settles O36: of the effects of a step only a command reaches FAULTS, and it only adds. -/
theorem modelFaultsAreNeverCleared : Obligations.ModelFaultsAreNeverCleared := by
  intro s t h
  rcases step_effect h with ⟨ag, u, hr, n, hu, rfl⟩ | ⟨ag, hr, rfl⟩ | ⟨ag, rfl⟩ | ⟨a, rest, v, r, -, -, -, rfl⟩ |
    ⟨rest, -, rfl⟩
  · have hkept : FaultsKept { s with agenda := ag } u := .of_engineStep hu
    exact hkept
  · exact FaultsKept.of_eq (s := s) rfl
  · exact FaultsKept.of_eq (s := s) rfl
  · exact FaultsKept.of_eq (r.write_faults v { s with agenda := rest })
  · exact FaultsKept.of_eq (s := s) rfl

end Sys2Proof.Machine
end

section
/-! Every pending word ends: at once, or by the last poll that POLL_LIMIT allows (R198, R236). -/

namespace Sys2Proof.Machine

/-- The step of an engine that moves alone is its engine step, up to the host's reads and the draws that settle them. -/
theorem step_alone {s t : State} (hv : s.params.valid = true) (ha : s.agenda = []) (h : engineStep s = .next t) :
    ∃ hr n, step s = .next { t with hostReads := hr, freeCount := n } := by
  obtain ⟨hr, n, hreads⟩ := State.closeReads_eq s t
  exact ⟨hr, n, by rw [step_engine hv ha, engineTurn_of_next h, hreads]⟩

/-- A command that does not poll ends in its step, but for DERIVE_PACKED of invalid inputs (R233). -/
theorem exec_ends {i : Instr} {s t : State} (h : exec i s = .next t) (hstart : i ≠ .pllStart) (hstop : i ≠ .pllStop)
    (hvalid : i = .derivePacked → ValidTiming s.timing) : t.seq = .ready := by
  rcases exec_cases h with ⟨-, rfl⟩ | ⟨-, -, rfl⟩ | ⟨hi, hv, -⟩ | ⟨-, rfl⟩ | ⟨-, -, rfl⟩ | ⟨-, v, rfl⟩ |
    ⟨-, -, c, er, -, rfl⟩ | ⟨-, -, rfl⟩ | ⟨-, rfl⟩ | ⟨-, -, rfl⟩ | ⟨hi, -⟩ | ⟨hi, -⟩ | ⟨-, rfl⟩ | ⟨e, op, -, -, rfl⟩
  iterate 2 rfl
  · exact absurd ((timing_valid_iff _).2 (hvalid hi)) (ne_true_of_eq_false hv)
  iterate 7 rfl
  · exact absurd hi hstart
  · exact absurd hi hstop
  iterate 2 rfl

/-- A pending word, illegal or a command, that does not poll ends in its engine step (R221, R236). -/
theorem engineStep_ends {s t : State} {w : Word} (hs : s.seq = .pending w) (h : engineStep s = .next t)
    (hstart : w ≠ encode .pllStart) (hstop : w ≠ encode .pllStop)
    (hvalid : w = encode .derivePacked → ValidTiming s.timing) : t.seq = .ready := by
  by_cases hw : IllegalWord w
  · rw [engineStep_illegalWord hs hw] at h
    cases h
    rfl
  · rw [illegalWord_iff] at hw
    push Not at hw
    obtain ⟨i, rfl⟩ := hw
    rw [engineStep_command hs (decodeWord_encode i)] at h
    exact exec_ends h (fun hi => hstart (congrArg encode hi)) (fun hi => hstop (congrArg encode hi))
      (fun hi => hvalid (congrArg encode hi))

/-- A valid engine polls, nobody else moves, and `m` STATUS reads are left of POLL_LIMIT. -/
structure PollsLeft (m : Nat) (s : State) : Prop where
  valid : s.params.valid = true
  alone : s.agenda = []
  polls : ∃ k, (s.seq = .pollStart k ∨ s.seq = .pollStop k) ∧ k + m = s.params.pollLimit

/-- Whatever the device answers, a poll step ends the command or goes on with one read less, and some read left. -/
theorem PollsLeft.step_ends_or_continues {m : Nat} {s : State} (hp : PollsLeft (m + 1) s) :
    ∃ t, step s = .next t ∧ (t.seq = .ready ∨ (0 < m ∧ PollsLeft m t)) := by
  obtain ⟨hv, ha, k, hs | hs, hk⟩ := hp
  · obtain ⟨hr, n, hstep⟩ := step_alone hv ha (t := pollStartStep k s) (by simp only [engineStep, hs])
    refine ⟨_, hstep, ?_⟩
    obtain ⟨ans, d, h | ⟨hlt, h⟩ | h⟩ := pollStartStep_cases k s <;> rw [h]
    · exact .inl rfl
    · exact .inr ⟨by omega, hv, ha, k + 1, .inl rfl, show k + 1 + m = s.params.pollLimit by omega⟩
    · exact .inl rfl
  · obtain ⟨hr, n, hstep⟩ := step_alone hv ha (t := pollStopStep k s) (by simp only [engineStep, hs])
    refine ⟨_, hstep, ?_⟩
    obtain ⟨ans, d, h | ⟨hlt, h⟩ | h⟩ := pollStopStep_cases k s <;> rw [h]
    · exact .inl rfl
    · exact .inr ⟨by omega, hv, ha, k + 1, .inr rfl, show k + 1 + m = s.params.pollLimit by omega⟩
    · exact .inl rfl

/-- A poll ends within the reads that are left (R198). -/
theorem PollsLeft.run_ends {m : Nat} {s : State} (hm : 0 < m) (hp : PollsLeft m s) :
    ∃ n t, n ≤ m ∧ Host.Core.run core n s = .next t ∧ t.seq = .ready := by
  induction m generalizing s with
  | zero => exact absurd hm (Nat.lt_irrefl 0)
  | succ m ih =>
    obtain ⟨u, hstep, hready | ⟨hleft, hu⟩⟩ := hp.step_ends_or_continues
    · exact ⟨1, u, Nat.succ_le_succ (Nat.zero_le m), core_run_succ 0 hstep, hready⟩
    · obtain ⟨n, t, hn, hrun, hready⟩ := ih hleft hu
      exact ⟨n + 1, t, Nat.succ_le_succ hn, (core_run_succ n hstep).trans hrun, hready⟩

/-- The issuing step of PLL_START or PLL_STOP leaves all the reads of POLL_LIMIT (R195, R200). -/
theorem step_beginsPolling {s : State} {w : Word} (hv : s.params.valid = true) (ha : s.agenda = [])
    (hs : s.seq = .pending w) (hw : w = encode .pllStart ∨ w = encode .pllStop) :
    ∃ u, step s = .next u ∧ PollsLeft s.params.pollLimit u := by
  rcases hw with rfl | rfl
  · obtain ⟨hr, n, hstep⟩ := step_alone hv ha
      ((engineStep_command hs (decodeWord_encode .pllStart)).trans (execPllStart_eq s))
    exact ⟨_, hstep, hv, ha, 0, .inl rfl, Nat.zero_add _⟩
  · obtain ⟨hr, n, hstep⟩ := step_alone hv ha
      ((engineStep_command hs (decodeWord_encode .pllStop)).trans (execPllStop_eq s))
    exact ⟨_, hstep, hv, ha, 0, .inr rfl, Nat.zero_add _⟩

/-- Settles O32: one step for a word that does not poll; the issuing step and the poll for PLL_START and PLL_STOP. -/
theorem everyCommandEndsWithinThePollLimit : Obligations.EveryCommandEndsWithinThePollLimit := by
  intro s w hv ha hs hvalid
  refine ⟨fun hstart hstop => ?_, fun hw => ?_⟩
  · obtain ⟨u, hu⟩ := engineStep_next s
    obtain ⟨hr, n, hstep⟩ := step_alone hv ha hu
    have hready : u.seq = .ready := engineStep_ends hs hu hstart hstop hvalid
    exact ⟨_, hstep, hready⟩
  · obtain ⟨u, hstep, hpolls⟩ := step_beginsPolling hv ha hs hw
    obtain ⟨-, hlimit, -⟩ := (Params.valid_iff _).1 hv
    obtain ⟨n, t, hn, hrun, hready⟩ := hpolls.run_ends hlimit
    refine ⟨n, t, hn, ?_, hready⟩
    rw [Nat.add_comm, core_run_succ n hstep, hrun]

end Sys2Proof.Machine
end

section
/-! Ready and reset: a turn of the engine in Ready (R253), the reset values (R250), a reset between steps (R251, R252). -/

namespace Sys2Proof.Machine

/-- In Ready the engine does nothing until the host writes CMD (R253). -/
theorem engineStep_ready {s : State} (hs : s.seq = .ready) : engineStep s = .next s := by
  simp only [engineStep, hs]

theorem engineTurn_ready {s : State} (hs : s.seq = .ready) : engineTurn s = .next s := by
  rw [engineTurn_of_next (engineStep_ready hs), State.closeReads_ready hs]

/-- Settles O6: the step is the engine's turn, which in Ready answers the state itself and closes no reads. -/
theorem readyEngineDoesNothing : Obligations.ReadyEngineDoesNothing := by
  intro s hv hm hs
  rw [step_engineMoves hv hm]
  exact engineTurn_ready (s := { s with agenda := s.agenda.tail }) hs

/-- Every field of STATUS is 0 after reset: not busy, Idle, no error, nothing valid (R23). -/
theorem statusWord_resetWith (p : Params) : (State.resetWith p).statusWord = 0 := by
  have hbusy : (State.resetWith p).busy = false := rfl
  have herr : (State.resetWith p).err = false := rfl
  rw [State.statusWord, hbusy, herr]
  simp only [State.resetWith]
  decide

/-- The table of R250. -/
theorem EngineReg.read_resetWith (p : Params) (r : EngineReg) :
    r.read (State.resetWith p) = if r = .ppc then p.ppc else if r = .toleranceHz then 0xFFFFFFFF else 0 := by
  cases r
  case status => exact statusWord_resetWith p
  case error => exact read_error_of_empty rfl
  all_goals rfl

theorem readOffset_reserved {off : Nat} (h : EngineReg.ofOffset off = none) (s : State) : readOffset off s = 0 := by
  simp only [readOffset, h]

/-- Settles O54: the registers by `EngineReg.read_resetWith`; the other fields are those `State.resetWith` writes. -/
theorem resetValuesOfTheRegisters : Obligations.ResetValuesOfTheRegisters :=
  ⟨rfl, fun p => ⟨EngineReg.read_resetWith p, fun _ hoff => readOffset_reserved hoff _, rfl, rfl, rfl, rfl⟩⟩

/-- No register reads anything of what a reset keeps but the parameters. -/
theorem EngineReg.read_resetEvent (r : EngineReg) (s : State) :
    r.read s.resetEvent = r.read (State.resetWith s.params) := by
  cases r <;> rfl

theorem step_reset {s : State} {rest : List Turn} (hv : s.params.valid = true) (ha : s.agenda = .reset :: rest) :
    step s = .next (State.resetEvent { s with agenda := rest }) := by
  simp only [step, hv, ha, if_true]

/-- Settles O55: the step is the reset event, whose kept fields are the frame, and whose host reads are settled ones. -/
theorem resetEventAbandonsTheCommand : Obligations.ResetEventAbandonsTheCommand := by
  intro s rest hv ha
  exact ⟨_, step_reset hv ha, fun r => r.read_resetEvent _, rfl, rfl, rfl, rfl, rfl, rfl, rfl, rfl, rfl, rfl,
    HostRead.settle_got _ _⟩

/-- The open parameters of the reset engine do not matter: its POLL_LIMIT is a successor, and PPC and the bases are
written out. -/
theorem resetParams_valid : resetParams.valid = true :=
  (Params.valid_iff _).2 ⟨by decide, Nat.le_add_left 1 _, rfl, rfl⟩

/-- An engine that has made no device access holds no known byte (R251). -/
theorem DeviceInv.of_empty {s : State} (hh : s.history = []) (hm : s.mem = []) : DeviceInv s where
  wf := hm ▸ Memory.wf_nil
  replays := by rw [hh, hm]; rfl
  legal := by simp [hh]

/-- A reset right after the start of a run changes nothing. -/
theorem State.resetEvent_resetWith (p : Params) : (State.resetWith p).resetEvent = State.resetWith p := rfl

/-- Settles O56: nothing has been accessed, no valid bit is set, ERROR is empty, SEQ is Ready and no read was made. -/
theorem resetStateMeetsTheInvariants : Obligations.ResetStateMeetsTheInvariants := by
  refine ⟨resetParams_valid, fun p => ⟨.of_empty rfl rfl, ?_, .of_empty rfl, .of_ready rfl, ?_⟩⟩
  · exact State.resetEvent_resetWith p ▸ FreshInv.of_reset (State.resetWith p)
  · exact fun _ _ hr => absurd hr List.not_mem_nil

end Sys2Proof.Machine
end
